-- ==== Sys2Proof/Word.lean ====
section
/-! DEFINITION. The word types of BBFP and of the bus it serves (spec/00_scope.md R4, R6, R7). -/

namespace Sys2Proof

/-- A machine word: every register is 32 bits wide (R4 `WORD_BITS`). -/
abbrev Word := BitVec 32

/-- A byte address: addresses are 32 bits wide (R4 `ADDR_BITS`, R7). -/
abbrev Addr := BitVec 32

/-- The 16-bit quantities: the control word, a field value, a valid-code mask (R15). -/
abbrev Half := BitVec 16

/-- One byte of the byte-addressed space (R28). -/
abbrev Byte := BitVec 8

/-- `zext_32` of a narrower value (R7). -/
abbrev zext32 {n : Nat} (x : BitVec n) : Word := x.setWidth 32

end Sys2Proof
end

