-- ==== Sys2Proof/Config.lean ====
section
/-! DEFINITION. What the platform fixes (spec/00_scope.md R4, spec/10_state.md R18, R21, R24) and the
free values, which nothing fixes (R8 `draw`). -/

namespace Sys2Proof

namespace Config

/-- `WORD_BITS` (R4). -/
abbrev wordBits : Nat := 32

/-- `WORD_BYTES` (R4): derived from `WORD_BITS` and byte addressing. -/
abbrev wordBytes : Nat := 4

/-- `BB_MULT` (R4): alias bytes for one region byte, 8 bits times `WORD_BYTES`. -/
abbrev bbMult : Nat := 32

/-- `BB_STRIDE` (R4): alias bytes for one bit, one full machine word. -/
abbrev bbStride : Nat := 4

/-- FREE VALUE: the `n`-th word the environment draws (R8 `draw`): placeholder bits (R32), the value read
from BSRR (R38), the pin levels and upper half of an IDR read (R39). No law relates two of them. Log
entry 3. -/
opaque freeWord : Nat → BitVec 32

/-- FREE VALUE: the `k`-th of the unspecified values drawn together as the `n`-th draw: what the output ports
hold after a violated precondition (R78), and what a `$name` that is not bound denotes (R69 is silent). Log
entries 12 and 26. -/
opaque freePort : Nat → Nat → BitVec 32

/-- FREE VALUE: the `n`-th choice the environment draws: whether `configure` stops at a failed `set` (R109,
decision D35). Log entry 13. -/
opaque freeChoice : Nat → Bool

end Config

/-- The registers of one GPIO block, in the order of R21's table. -/
inductive Reg where
  | moder | otyper | ospeedr | pupdr | idr | odr | bsrr | lckr | afrl | afrh
  deriving DecidableEq, Repr

/-- All ten registers (R21). -/
def Reg.all : List Reg :=
  [.moder, .otyper, .ospeedr, .pupdr, .idr, .odr, .bsrr, .lckr, .afrl, .afrh]

/-- The byte offsets `OFF_*` of the registers in a block (R4). -/
structure Offsets where
  moder   : Nat
  otyper  : Nat
  ospeedr : Nat
  pupdr   : Nat
  idr     : Nat
  odr     : Nat
  bsrr    : Nat
  lckr    : Nat
  afrl    : Nat
  afrh    : Nat
  deriving DecidableEq, Repr

/-- The implementation parameters of R4, with `VALID(field)` (R24) and `REG_RESET` (R105): the configuration
record a model passes to `bbfp` (R18). Plain data, so that a run can be written out.
`valid` gives `VALID(field)` for the fields that are enumerated, a field being a register and a shift;
`regReset` gives `REG_RESET` byte by byte in the memory's canonical form (an unlisted byte is 0). -/
structure Params where
  /-- `BB_REGION_BASE`. -/
  rb        : Nat
  /-- `BB_REGION_SIZE`. -/
  rs        : Nat
  /-- `BB_ALIAS_BASE`. -/
  ab        : Nat
  /-- `GPIO_BLOCK_SIZE`. -/
  bs        : Nat
  offs      : Offsets
  /-- `GPIO_BASES`. -/
  gpioBases : List Nat
  valid     : List ((Reg × Nat) × BitVec 16)
  regReset  : List Host.Cell
  deriving DecidableEq, Repr

/-- The offset of a register in its block (R4 `OFF_*`). -/
def Params.off (P : Params) : Reg → Nat
  | .moder => P.offs.moder
  | .otyper => P.offs.otyper
  | .ospeedr => P.offs.ospeedr
  | .pupdr => P.offs.pupdr
  | .idr => P.offs.idr
  | .odr => P.offs.odr
  | .bsrr => P.offs.bsrr
  | .lckr => P.offs.lckr
  | .afrl => P.offs.afrl
  | .afrh => P.offs.afrh

/-- The constraints R4 puts on the parameters ("a model may assume them"), in R4's order. -/
abbrev Params.RangesOk (P : Params) : Prop :=
  P.rb % 4 = 0 ∧ P.rs % 4 = 0 ∧ 0 < P.rs ∧ P.rb + P.rs ≤ 2 ^ 32 ∧
  P.ab % 4 = 0 ∧ P.ab + 32 * P.rs ≤ 2 ^ 32 ∧
  (P.rb + P.rs ≤ P.ab ∨ P.ab + 32 * P.rs ≤ P.rb) ∧
  P.bs = 2 ^ Nat.log2 P.bs ∧ P.off .afrh + 4 ≤ P.bs ∧
  ∀ base ∈ P.gpioBases, base % P.bs = 0 ∧ P.rb ≤ base ∧ base + P.bs ≤ P.rb + P.rs

/-- What R21 and R31 presuppose of the offsets and R4 does not write down: every register is an aligned
word inside its block, and no two registers share an offset. DEDUCED, log entry 5. -/
abbrev Params.LayoutOk (P : Params) : Prop :=
  (∀ r ∈ Reg.all, P.off r % 4 = 0 ∧ P.off r + 4 ≤ P.bs) ∧ (Reg.all.map P.off).Nodup

/-- A platform the model is about. -/
abbrev Params.Valid (P : Params) : Prop := P.RangesOk ∧ P.LayoutOk

/-- The default values of R4 (PRESUMED by the spec, log entry 15). `VALID(field)` and `REG_RESET` are OPEN:
nothing is listed for them (DESIGN CHOICE, log entries 14 and 2). -/
def Params.default : Params where
  rb := 0x40000000
  rs := 0x00100000
  ab := 0x42000000
  bs := 0x400
  offs :=
    { moder := 0x00, otyper := 0x04, ospeedr := 0x08, pupdr := 0x0C, idr := 0x10
      odr := 0x14, bsrr := 0x18, lckr := 0x1C, afrl := 0x20, afrh := 0x24 }
  gpioBases := (List.range 9).map fun k => 0x40020000 + 0x400 * k
  valid := []
  regReset := []

end Sys2Proof
end

