-- ==== Sys2Proof/Syntax.lean ====
section
/-! DEFINITION. The requests of BBFP (spec/30_encoding.md R58), and the programs agents run over them: the
assembler lines of R69 and the access sequences of spec/20_memory.md R47 to R53. -/

namespace Sys2Proof

/-- The seven operations of R58, by name: what `PreconditionViolation(op, name)` names (R94). -/
inductive Op where
  | toalias | fromalias | pinlookup | fget | fset | bitwr | srenc
  deriving DecidableEq, Repr

/-- The five field widths (R5). -/
inductive Width where
  | w1 | w2 | w4 | w15 | w16
  deriving DecidableEq, Repr

/-- The width in bits (R59). -/
def Width.bits : Width → Nat
  | .w1 => 1
  | .w2 => 2
  | .w4 => 4
  | .w15 => 15
  | .w16 => 16

/-- A decoded control word (R65): one constructor per row of spec/opcode_table.json, with the fields of the
word that the operation reads (R64). The data operands stand on the ports `A`, `D`, `V`, `M`. -/
inductive Instr where
  /-- `TOALIAS`, bit index `b` (R71). -/
  | toalias (b : BitVec 5)
  /-- `FROMALIAS` (R72). -/
  | fromalias
  /-- `PINLOOKUP` (R73). -/
  | pinlookup
  /-- `FGET`, width `w` and shift `sh` (R80). -/
  | fget (w : Width) (sh : BitVec 5)
  /-- `FSET`, width `w`, enumeration check `e` and shift `sh` (R81). -/
  | fset (w : Width) (e : Bool) (sh : BitVec 5)
  /-- `BITWR`, bit index `b` (R82). -/
  | bitwr (b : BitVec 5)
  /-- `SRENC`, pin `p` (R83). -/
  | srenc (p : BitVec 5)
  deriving DecidableEq, Repr

/-- The operation of an instruction. -/
def Instr.op : Instr → Op
  | .toalias _ => .toalias
  | .fromalias => .fromalias
  | .pinlookup => .pinlookup
  | .fget _ _ => .fget
  | .fset _ _ _ => .fset
  | .bitwr _ => .bitwr
  | .srenc _ => .srenc

/-- The `$names` of R69. `r` and `t` are the names the access sequences of R47 to R53 use for their own
response and their own word read; a program's own lines use `user n`. -/
inductive Name where
  | r
  | t
  | user (n : Nat)
  deriving DecidableEq, Repr

/-- The names, numbered: what the free values of names that are not bound are kept apart by. -/
def Name.code : Name → Nat
  | .r => 0
  | .t => 1
  | .user n => n + 2

/-- An operand of at most 16 bits (ports `V` and `M`): a literal, or a port of a named response, or bit 0 of
a named word read (R69). Each is zero-extended to its port (R57). -/
inductive NarrowOperand where
  | lit (x : Half)
  | rv (n : Name)
  | z (n : Name)
  | ok (n : Name)
  | bit0 (n : Name)
  deriving DecidableEq, Repr

/-- An operand of 32 bits (ports `A` and `D`, a bus address, bus data): a literal, `$n.Y`, `$n.WD`, a named
word read, or a narrower operand (R69). `regOf n r` is `$n.Y + OFF_<r>`, the address R53 forms from
`PINLOOKUP`'s base. -/
inductive Operand where
  | lit (x : Word)
  | y (n : Name)
  | wd (n : Name)
  | word (n : Name)
  | narrow (o : NarrowOperand)
  | regOf (n : Name) (r : Reg)
  deriving DecidableEq, Repr

/-- One line of a program (R69): a request, or a bus step of its agent. A bus step names its access size in
bytes, so that the accesses R31 gives no step can be written down too. -/
inductive Line where
  /-- `$dst = <request>`. -/
  | request (dst : Name) (ctrl : Half) (a d : Operand) (v m : NarrowOperand)
  /-- `$dst = ld32 addr`, that is `MemRead(addr, size)`. -/
  | ld (dst : Name) (size : Nat) (addr : Operand)
  /-- `st32 addr, data`, that is `MemWrite(addr, size, data)`. -/
  | st (size : Nat) (addr data : Operand)
  /-- `st32.we $n`: `if $n.WE = 1 then MemWrite($n.Y, 4, $n.WD)`. -/
  | stWe (n : Name)
  deriving DecidableEq, Repr

/-- The role of a pin handle (R25). -/
inductive Role where
  | input | output | alternateInput | alternateOutput
  deriving DecidableEq, Repr

/-- A pin handle (R25): a static constant; the instance is named by the base address of its block. -/
structure PinHandle where
  base : Addr
  pin  : Fin 16
  role : Role
  deriving DecidableEq, Repr

/-- The access sequences (R47 to R53): the only ways the model implements the operations they name. -/
inductive AccessSeq where
  /-- R47, `rdbit reg, bit`: read one bit through its alias. -/
  | readBit (reg : Addr) (b : BitVec 5)
  /-- R47, `read_input` with an alias handle. -/
  | readInput (h : Addr)
  /-- R47, `read_output` with an alias handle. -/
  | readOutput (h : Addr)
  /-- R48, `getf.w<N> reg, s`: get a field of any width by word read. -/
  | get (w : Width) (reg : Addr) (sh : BitVec 5)
  /-- R49, `setb reg, bit, v`: set a width-1 field. -/
  | setBit (reg : Addr) (b : BitVec 5) (v : Half)
  /-- R50, `setf.w<N>[.e] reg, s, v[, m]`: set a field of width 2, 4, 15 or 16. -/
  | set (w : Width) (e : Bool) (reg : Addr) (sh : BitVec 5) (v m : Half)
  /-- R51, `outa`: `write_output` by a direct alias write. -/
  | writeDirect (h : PinHandle) (v : Half)
  /-- R52, `outb`: `write_output` by the set/reset protocol. -/
  | writeSetReset (h : PinHandle) (v : Half)
  /-- R53, `pin h`: instance and pin of a handle carried as an alias address. -/
  | pinOf (h : Addr)
  deriving DecidableEq, Repr

/-- The arguments of PF4's `configure` (R108). -/
structure PinConfig where
  base       : Addr
  pin        : Fin 16
  outputType : Half
  mode       : Half
  speed      : Half
  pull       : Half
  /-- The code of step 5; `none` where step 5 does not apply (R108). -/
  alternate  : Option Half
  deriving DecidableEq, Repr

/-- One item of an agent's program: an access sequence (R68), `configure` as the ordered sequences of R108,
or one bare line of R69. -/
inductive Item where
  | seq (q : AccessSeq)
  | configure (c : PinConfig)
  | line (l : Line)
  deriving DecidableEq, Repr

end Sys2Proof
end

