-- ==== Sys2Proof/WellFormed.lean ====
section
/-! DEFINITION. The static check on a decoded request: the one combination of fields that `Instr` can write
down and no control word encodes (spec/30_encoding.md R60, R63.4). The checks WF1 to WF7 on programs
(R68) stand in Machine/Checks.lean. -/

namespace Sys2Proof

/-- The names of the checks on an instruction. -/
inductive InstrCheck where
  /-- `E = 1` only with widths 1, 2 and 4: a 16-bit mask cannot list the codes of a wider field (R60). -/
  | enumWidth
  deriving DecidableEq, Repr

/-- The check an instruction fails, if any. -/
def Instr.failed : Instr → Option InstrCheck
  | .toalias _ => none
  | .fromalias => none
  | .pinlookup => none
  | .fget _ _ => none
  | .fset w e _ => if e = true ∧ 15 ≤ w.bits then some .enumWidth else none
  | .bitwr _ => none
  | .srenc _ => none

/-- The instructions that some control word encodes (R65). -/
abbrev Instr.WellFormed (i : Instr) : Prop := i.failed = none

end Sys2Proof
end

