-- ==== Sys2Proof/Decode.lean ====
section
/-! DEFINITION. Decoding a control word (spec/30_encoding.md R56 to R65) and encoding one. -/

namespace Sys2Proof

/-- Why a control word is ILLEGAL: the four conditions of R63, in its order. -/
inductive IllegalReason where
  /-- R63.1: `CTRL[15:13] != 000`. -/
  | reservedBits
  /-- R63.2: `OP >= 0x7`. -/
  | reservedOp
  /-- R63.3: `FGET` or `FSET` with `WC >= 5`. -/
  | reservedWidth
  /-- R63.4: `FSET` with `E = 1` and `WC` 3 or 4. -/
  | enumWidth
  deriving DecidableEq, Repr

/-- `CTRL[3:0]` (R56). -/
def ctrlOp (c : Half) : BitVec 4 := c.extractLsb' 0 4
/-- `CTRL[6:4]` (R56). -/
def ctrlWC (c : Half) : BitVec 3 := c.extractLsb' 4 3
/-- `CTRL[7]` (R56). -/
def ctrlE (c : Half) : Bool := c.getLsbD 7
/-- `CTRL[12:8]` (R56). -/
def ctrlB (c : Half) : BitVec 5 := c.extractLsb' 8 5
/-- `CTRL[15:13]` (R56). -/
def ctrlRSV (c : Half) : BitVec 3 := c.extractLsb' 13 3

/-- The operation of an `OP` value; 7 to 15 are reserved (R58). -/
def opOfCode (n : BitVec 4) : Option Op :=
  match n.toNat with
  | 0 => some .toalias
  | 1 => some .fromalias
  | 2 => some .pinlookup
  | 3 => some .fget
  | 4 => some .fset
  | 5 => some .bitwr
  | 6 => some .srenc
  | _ => none

/-- The `OP` value of an operation (R58). -/
def Op.code : Op → BitVec 4
  | .toalias => 0
  | .fromalias => 1
  | .pinlookup => 2
  | .fget => 3
  | .fset => 4
  | .bitwr => 5
  | .srenc => 6

/-- The width of a width code; 5 to 7 name none (R59). -/
def widthOfCode (n : BitVec 3) : Option Width :=
  match n.toNat with
  | 0 => some .w1
  | 1 => some .w2
  | 2 => some .w4
  | 3 => some .w15
  | 4 => some .w16
  | _ => none

/-- The width code of a width (R59). -/
def Width.code : Width → BitVec 3
  | .w1 => 0
  | .w2 => 1
  | .w4 => 2
  | .w15 => 3
  | .w16 => 4

/-- R65: every one of the `2^16` control words decodes to exactly one result. The bits an operation ignores
(R64) are accepted with either value. -/
def decode (c : Half) : Except IllegalReason Instr :=
  if ctrlRSV c ≠ 0 then .error .reservedBits
  else
    match opOfCode (ctrlOp c) with
    | none => .error .reservedOp
    | some .toalias => .ok (.toalias (ctrlB c))
    | some .fromalias => .ok .fromalias
    | some .pinlookup => .ok .pinlookup
    | some .fget =>
      match widthOfCode (ctrlWC c) with
      | none => .error .reservedWidth
      | some w => .ok (.fget w (ctrlB c))
    | some .fset =>
      match widthOfCode (ctrlWC c) with
      | none => .error .reservedWidth
      | some w =>
        if ctrlE c = true ∧ 15 ≤ w.bits then .error .enumWidth
        else .ok (.fset w (ctrlE c) (ctrlB c))
    | some .bitwr => .ok (.bitwr (ctrlB c))
    | some .srenc => .ok (.srenc (ctrlB c))

/-- The control word `{RSV, B, E, WC, OP}` with `RSV = 000` (R56). -/
def ctrlWord (b : BitVec 5) (e : Bool) (wc : BitVec 3) (op : Op) : Half :=
  (0#3 ++ b ++ BitVec.ofBool e ++ wc ++ op.code : BitVec 16)

/-- The control word an assembler writes: 0 in the fields the operation ignores (R56, R69). -/
def encode : Instr → Half
  | .toalias b => ctrlWord b false 0 .toalias
  | .fromalias => ctrlWord 0 false 0 .fromalias
  | .pinlookup => ctrlWord 0 false 0 .pinlookup
  | .fget w sh => ctrlWord sh false w.code .fget
  | .fset w e sh => ctrlWord sh e w.code .fset
  | .bitwr b => ctrlWord b false 0 .bitwr
  | .srenc p => ctrlWord p false 0 .srenc

/-- The bits of the control word an instruction's decoding depends on: all but the `x` bits of its pattern
(R56, R64). -/
def Instr.readMask : Instr → Half
  | .toalias _ => 0xFF0F
  | .fromalias => 0xE00F
  | .pinlookup => 0xE00F
  | .fget _ _ => 0xFF7F
  | .fset _ _ _ => 0xFFFF
  | .bitwr _ => 0xFF0F
  | .srenc _ => 0xFF0F

/-- The instruction the decoder reads from the `nbits`-bit number `w`; the bits of the control word above
`nbits` are 0. There is one instruction length, 16 bits (R66), so a longer number names none. -/
def decodeTableWord (nbits w : Nat) : Option Instr :=
  if 16 < nbits ∨ 2 ^ nbits ≤ w then none
  else
    match decode (BitVec.ofNat 16 w) with
    | .ok i => some i
    | .error _ => none

end Sys2Proof
end

