-- ==== Sys2Proof/Machine/State.lean ====
section
/-! DEFINITION. The state as plain data: BBFP's ports (spec/10_state.md R15, R16), the environment it serves
(R20) and the agents (spec/20_memory.md R41). BBFP itself keeps nothing between requests (R13). -/

namespace Sys2Proof.Machine

/-- The input ports of a request (R15). -/
structure Request where
  ctrl : Half := 0
  a    : Word := 0
  d    : Word := 0
  v    : Half := 0
  m    : Half := 0
  deriving DecidableEq, Repr

/-- The output ports of a response (R16). A port an operation does not set holds 0 (R17). -/
structure Response where
  y   : Word := 0
  z   : BitVec 5 := 0
  wd  : Word := 0
  rv  : Half := 0
  ok  : Bool := false
  we  : Bool := false
  ill : Bool := false
  deriving DecidableEq, Repr

/-- A response of which nothing is known: the `k`-th of those drawn together as the `n`-th draw. -/
def freeResponse (n k : Nat) : Response where
  y := Config.freePort n (8 * k)
  z := (Config.freePort n (8 * k + 1)).setWidth 5
  wd := Config.freePort n (8 * k + 2)
  rv := (Config.freePort n (8 * k + 3)).setWidth 16
  ok := (Config.freePort n (8 * k + 4)).getLsbD 0
  we := (Config.freePort n (8 * k + 5)).getLsbD 0
  ill := (Config.freePort n (8 * k + 6)).getLsbD 0

/-- A word of which nothing is known. -/
def freeRead (n k : Nat) : Word := Config.freePort n (8 * k + 7)

/-- The ILLEGAL response (R93): a defined value. -/
def Response.illegal : Response := { ill := true }

/-- The documented preconditions (R94): the name a `PRE` outcome carries. -/
inductive Precondition where
  /-- `TOALIAS`, `BITWR`: `A < RB` or `A >= RB + RS`. -/
  | addrOutsideRegion
  /-- `TOALIAS`, `BITWR`: `A mod 4 != 0`. -/
  | addrMisaligned
  /-- `FROMALIAS`, `PINLOOKUP`: `A < AB` or `A >= AB + 32*RS`. -/
  | aliasOutsideWindow
  /-- `FROMALIAS`, `PINLOOKUP`: `A mod 4 != 0`. -/
  | aliasMisaligned
  /-- `PINLOOKUP`: the recovered register is not at `OFF_IDR` or `OFF_ODR` of its block. -/
  | notDataArray
  /-- `PINLOOKUP`, `SRENC`: bit or pin `>= 16`. -/
  | pinOutOfRange
  /-- `FGET`, `FSET`: `s + w > 32`. -/
  | fieldOutOfWord
  deriving DecidableEq, Repr

/-- The bus accesses that have no step (R96): the agent that makes one is stuck. -/
inductive NoStep where
  /-- R31: an access that is not 32 bits wide. -/
  | accessWidth
  /-- R31: a 32-bit access to an address that is not word-aligned. -/
  | misaligned
  /-- R54: an address in no GPIO block and outside the alias window. -/
  | outsideModel
  /-- R35(e), R54: an alias whose register lies in no GPIO block. -/
  | aliasOutsideBlocks
  /-- R35(a): an alias read or write of a BSRR bit. -/
  | aliasOfBsrr
  /-- R35(b): an alias write of an IDR bit. -/
  | aliasWriteIdr
  /-- R35(c): an alias write of an LCKR bit. -/
  | aliasWriteLckr
  /-- R35(d): an alias write of a placeholder bit. -/
  | aliasWritePlaceholder
  /-- R39: a write to IDR. -/
  | idrWrite
  /-- R40: a write to LCKR. -/
  | lckrWrite
  deriving DecidableEq, Repr

/-- Why an agent stops (R96): the whole list but for the refusal of its program. The agent stops for good; the
others go on (R94, R99). -/
inductive Fault where
  /-- R94, `PreconditionViolation(op, name)`: raised by the meaning of a request whose precondition fails.
  SAFE: hardware answers with unspecified output ports where the model stops. -/
  | preconditionViolation (op : Op) (name : Precondition)
  /-- R37, `BsrrBothBits`: raised by a BSRR write with the set and the reset bit of one pin. SAFE. -/
  | bsrrBothBits
  /-- R31, R35, R39, R40, R54: raised by a bus access the model admits no step for. SAFE: the agent is
  stuck where hardware may go on. -/
  | stuck (why : NoStep)
  deriving DecidableEq, Repr

/-- The static checks on programs (R68). -/
inductive ProgramCheck where
  /-- The field named by a get or set is one row of R21, in a block of `GPIO_BASES`. -/
  | wf1
  /-- No set targets a read-only or a placeholder field. -/
  | wf2
  /-- No get targets a write-only field. -/
  | wf3
  /-- A width-1 set uses `BITWR`, a wider one `FSET`. -/
  | wf4
  /-- `write_output` only with an output handle, `read_input` only with an input-data alias. -/
  | wf5
  /-- A handle given to `PINLOOKUP` was made by `TOALIAS` from IDR or ODR of a block and a pin below 16. -/
  | wf6
  /-- For an `FSET` with `E = 1`, `M` is the field's valid set. -/
  | wf7
  /-- R23: a placeholder field is never the target of an access sequence, a get included. -/
  | placeholderTarget
  deriving DecidableEq, Repr

/-- Why the model refuses to run. -/
inductive Refusal where
  /-- An instruction with no meaning yet: raised by an arm of `exec` only. SAFE. -/
  | notModelled (mnemonic : String)
  /-- R68: a program that fails a static check is refused before it takes a step. SAFE. -/
  | illFormedProgram (c : ProgramCheck)
  deriving DecidableEq, Repr

/-- The result an access sequence leaves its agent (R47 to R53). -/
inductive SeqResult where
  /-- `value <- t[0]` (R47). -/
  | bit (b : Bool)
  /-- `value <- r.RV` (R48). -/
  | value (v : Half)
  /-- `success <- r.OK` (R49, R50; for R51 and R52 the same port, R95). -/
  | success (ok : Bool)
  /-- `base <- r.Y ; pin <- r.Z` (R53). -/
  | pin (base : Word) (p : BitVec 5)
  /-- The sequence stopped at an ILLEGAL response (spec/20_memory.md section 5). -/
  | illegal
  /-- What `configure` reports: success requires every individual `set` to succeed (R109). -/
  | configured (ok : Bool)
  deriving DecidableEq, Repr

/-- An access sequence in progress: its lines still to run. -/
structure Running where
  seq   : AccessSeq
  lines : List Line
  deriving DecidableEq, Repr

/-- A `configure` in progress (R108): the steps not begun, and whether every step so far succeeded. -/
structure Configuring where
  steps : List AccessSeq
  ok    : Bool
  deriving DecidableEq, Repr

/-- One agent (R41): its program, and what it holds between its events. The words it has read are `words`:
the word a multi-bit set holds between its read and its write stands there (R26). -/
structure Agent where
  code      : List Item := []
  running   : Option Running := none
  conf      : Option Configuring := none
  responses : List (Name × Response) := []
  words     : List (Name × Word) := []
  results   : List SeqResult := []
  /-- The named fault the agent has stopped in, never cleared (R94, R96, R99). -/
  stopped   : Option Fault := none
  deriving DecidableEq, Repr

/-- Which agent (R41): the one foreground, an interrupt handler, or a DMA engine, by number. -/
inductive AgentId where
  | foreground
  | handler (n : Nat)
  | dma (n : Nat)
  deriving DecidableEq, Repr

/-- The machine. -/
structure State where
  /-- The configuration record (R4, R18). No step changes it. Log entry 4. -/
  cfg        : Params
  /-- The input ports: the request being presented, or the last one (R15). -/
  inp        : Request
  /-- The output ports: the last response (R16). BBFP keeps neither (R13), log entry 9. -/
  out        : Response
  /-- `img` (R20) byte by byte, little-endian (R30): canonical (rising addresses, no byte 0 listed). -/
  img        : List Host.Cell
  /-- `pin_in` (R20): per instance, by base address, the external input levels as last drawn (R39).
  Log entry 21. -/
  pinIn      : List (Nat × BitVec 16)
  /-- The model's own: how many free values have been drawn (R8 `draw`). Log entry 3. -/
  draws      : Nat
  foreground : Agent
  handlers   : List Agent
  dmas       : List Agent
  /-- The order in which the agents take their next turns, head first (R43): any list is admitted.
  The model's own, log entry 8. -/
  sched      : List AgentId
  deriving DecidableEq, Repr

/-- The machine as a platform leaves it before any agent has run: the image holds `REG_RESET` (R105), no
agent has a program, nothing is on the ports (DESIGN CHOICE, log entry 1). BBFP itself has nothing to reset (R104). -/
def State.resetOf (P : Params) : State where
  cfg := P
  inp := {}
  out := {}
  img := P.regReset
  pinIn := []
  draws := 0
  foreground := {}
  handlers := []
  dmas := []
  sched := []

/-- Reset with R4's default parameters. -/
def State.reset : State := State.resetOf Params.default

end Sys2Proof.Machine
end

