-- ==== Sys2Proof/Machine/Ops.lean ====
section
/-! DEFINITION. The named operations over the image, the agents and the draws, and the `PRE` fault. BBFP has
no trap mechanism (spec/60_exceptions.md R91, R99): the one way a request stops is `raisePre`. -/

namespace Sys2Proof.Machine

/-! ### The image -/

/-- What a byte that is not listed reads as. `REG_RESET` is listed where it is not 0 (log entry 2). -/
def unlistedByte : Byte := 0

/-- One byte of the image. -/
def Memory.get : List Host.Cell → Nat → Byte
  | [], _ => unlistedByte
  | (b, w) :: m, a => if a = b then w else Memory.get m a

/-- A byte put in front of the image, unless it is what an unlisted byte reads as. -/
def Memory.cons (a : Nat) (v : Byte) (m : List Host.Cell) : List Host.Cell :=
  if v = unlistedByte then m else (a, v) :: m

/-- Write one byte, keeping the canonical form. -/
def Memory.set : List Host.Cell → Nat → Byte → List Host.Cell
  | [], a, v => Memory.cons a v []
  | (b, w) :: m, a, v =>
    if a < b then Memory.cons a v ((b, w) :: m)
    else if a = b then Memory.cons a v m
    else (b, w) :: Memory.set m a v

/-- The canonical form: addresses strictly rising, and no entry equal to what an unlisted byte reads as. -/
abbrev Memory.wf (m : List Host.Cell) : Prop :=
  m.Pairwise (fun x y => x.1 < y.1) ∧ ∀ c ∈ m, c.2 ≠ unlistedByte

/-- The 32-bit word at an address, little-endian (R30): bit `b` is bit `b mod 8` of the byte at
`A + floor(b/8)`. -/
def Memory.word (m : List Host.Cell) (a : Addr) : Word :=
  Memory.get m (a.toNat + 3) ++ Memory.get m (a.toNat + 2) ++
    Memory.get m (a.toNat + 1) ++ Memory.get m a.toNat

/-- Write a 32-bit word, little-endian (R30). -/
def Memory.setWord (m : List Host.Cell) (a : Addr) (w : Word) : List Host.Cell :=
  Memory.set (Memory.set (Memory.set (Memory.set m a.toNat (w.extractLsb' 0 8))
    (a.toNat + 1) (w.extractLsb' 8 8)) (a.toNat + 2) (w.extractLsb' 16 8)) (a.toNat + 3) (w.extractLsb' 24 8)

/-! ### Agents -/

/-- The agent of an id; `none` where there is no such handler or engine. -/
def State.agent? (s : State) : AgentId → Option Agent
  | .foreground => some s.foreground
  | .handler n => s.handlers[n]?
  | .dma n => s.dmas[n]?

/-- Replace an agent that exists. -/
def State.setAgent (s : State) (id : AgentId) (ag : Agent) : State :=
  match id with
  | .foreground => { s with foreground := ag }
  | .handler n => { s with handlers := s.handlers.set n ag }
  | .dma n => { s with dmas := s.dmas.set n ag }

/-- All agents (R41). -/
def State.agents (s : State) : List Agent := s.foreground :: (s.handlers ++ s.dmas)

/-- Bind a key in a list of pairs, dropping what the key was bound to. -/
def bindKey {κ α : Type} [DecidableEq κ] (k : κ) (x : α) (l : List (κ × α)) : List (κ × α) :=
  (k, x) :: l.filter (fun p => decide (p.1 ≠ k))

/-- `$n` as a response (R69). A name may be bound both as a response and as a word read: R69 does not say what
it then denotes, and the two bindings stand side by side, each read by its own operand forms (DESIGN CHOICE, log
entry 25). -/
def Agent.response? (ag : Agent) (n : Name) : Option Response := ag.responses.lookup n

/-- `$n` as a word read (R69). -/
def Agent.word? (ag : Agent) (n : Name) : Option Word := ag.words.lookup n

/-- The response an operand reads through `$n`: free where the name is not bound (log entry 12). -/
def Agent.responseOf (ag : Agent) (draw : Nat) (n : Name) : Response :=
  (ag.response? n).getD (freeResponse draw (n.code + 1))

/-- The word an operand reads through `$n`: free where the name is not bound (log entry 12). -/
def Agent.wordOf (ag : Agent) (draw : Nat) (n : Name) : Word :=
  (ag.word? n).getD (freeRead draw (n.code + 1))

/-- `$n = <request>` (R69). It replaces the name's earlier response; a word read under the same name stays (log
entry 25). -/
def Agent.bindResponse (ag : Agent) (n : Name) (r : Response) : Agent :=
  { ag with responses := bindKey n r ag.responses }

/-- `$n = ld32 ...` (R69). It replaces the name's earlier word; a response under the same name stays (log entry
25). -/
def Agent.bindWord (ag : Agent) (n : Name) (w : Word) : Agent :=
  { ag with words := bindKey n w ag.words }

/-- Change an agent of the state, where it exists. -/
def State.mapAgent (s : State) (id : AgentId) (f : Agent → Agent) : State :=
  match s.agent? id with
  | some ag => s.setAgent id (f ag)
  | none => s

/-- The agent stops in a named fault, for good (R94, R96). -/
def State.stop (s : State) (id : AgentId) (f : Fault) : State :=
  s.mapAgent id fun ag => { ag with stopped := some f }

/-- Use up one draw, if anything was drawn. -/
def State.drawIf (s : State) (b : Bool) : State := if b then { s with draws := s.draws + 1 } else s

/-! ### The outcome of a request -/

/-- The `PRE` outcome (R94): a fault of the issuing agent, named after the operation and the condition. -/
def raisePre (op : Op) (name : Precondition) : Host.Outcome State Fault Refusal :=
  .fault (.preconditionViolation op name)

/-- Put an operation's response on the output ports, or raise its violated precondition (R9). -/
def answer (op : Op) (r : Except Precondition Response) (s : State) : Host.Outcome State Fault Refusal :=
  match r with
  | .ok resp => .next { s with out := resp }
  | .error name => raisePre op name

end Sys2Proof.Machine
end

