-- ==== Sys2Proof/Machine/Operands.lean ====
section
/-! DEFINITION. Operands: the geometry of a field (spec/41_field_datapath.md R79), single bits, and the
operand forms of a program line (spec/30_encoding.md R69). -/

namespace Sys2Proof.Machine

/-- `mask(w) = 2^w - 1` as a 32-bit value (R7, R59). -/
def mask (w : Width) : Word := BitVec.ofNat 32 (2 ^ w.bits - 1)

/-- `fmask(s, w) = mask(w) << s` (R79). -/
def fmask (sh : BitVec 5) (w : Width) : Word := mask w <<< sh.toNat

/-- `s + w <= 32`: the field does not straddle the word (R79). -/
abbrev inWord (sh : BitVec 5) (w : Width) : Prop := sh.toNat + w.bits ≤ 32

/-- The word with bit `b` replaced. -/
def putBit (x : Word) (b : BitVec 5) (v : Bool) : Word :=
  if v then x ||| (1#32 <<< b.toNat) else x &&& ~~~(1#32 <<< b.toNat)

/-- One bit as a 32-bit value, `zext_32` (R33). -/
def zextBit (v : Bool) : Word := if v then 1 else 0

/-- The value of an operand of at most 16 bits; what a name that is not bound denotes is free, as the draw
`draw` gives it. -/
def NarrowOperand.eval (draw : Nat) (ag : Agent) : NarrowOperand → Half
  | .lit x => x
  | .rv n => (ag.responseOf draw n).rv
  | .z n => (ag.responseOf draw n).z.setWidth 16
  | .ok n => if (ag.responseOf draw n).ok then 1 else 0
  | .bit0 n => if (ag.wordOf draw n).getLsbD 0 then 1 else 0

/-- The value of a 32-bit operand. -/
def Operand.eval (P : Params) (draw : Nat) (ag : Agent) : Operand → Word
  | .lit x => x
  | .y n => (ag.responseOf draw n).y
  | .wd n => (ag.responseOf draw n).wd
  | .word n => ag.wordOf draw n
  | .narrow o => zext32 (NarrowOperand.eval draw ag o)
  | .regOf n r => (ag.responseOf draw n).y + BitVec.ofNat 32 (P.off r)

/-- The request a line presents: its control word and its four data operands (R55). -/
def requestOf (P : Params) (draw : Nat) (ag : Agent) (ctrl : Half) (a d : Operand) (v m : NarrowOperand) :
    Request :=
  { ctrl := ctrl, a := Operand.eval P draw ag a, d := Operand.eval P draw ag d
    v := NarrowOperand.eval draw ag v, m := NarrowOperand.eval draw ag m }

/-- The operand reads a name that is not bound. -/
def NarrowOperand.unbound (ag : Agent) : NarrowOperand → Bool
  | .lit _ => false
  | .rv n => (ag.response? n).isNone
  | .z n => (ag.response? n).isNone
  | .ok n => (ag.response? n).isNone
  | .bit0 n => (ag.word? n).isNone

/-- The operand reads a name that is not bound. -/
def Operand.unbound (ag : Agent) : Operand → Bool
  | .lit _ => false
  | .y n => (ag.response? n).isNone
  | .wd n => (ag.response? n).isNone
  | .word n => (ag.word? n).isNone
  | .narrow o => NarrowOperand.unbound ag o
  | .regOf n _ => (ag.response? n).isNone

/-- The line reads a name that is not bound: it uses up a draw (log entry 12). -/
def Line.unbound (ag : Agent) : Line → Bool
  | .request _ _ a d v m => Operand.unbound ag a || Operand.unbound ag d || NarrowOperand.unbound ag v ||
      NarrowOperand.unbound ag m
  | .ld _ _ addr => Operand.unbound ag addr
  | .st _ addr data => Operand.unbound ag addr || Operand.unbound ag data
  | .stWe n => (ag.response? n).isNone

end Sys2Proof.Machine
end

