-- ==== Sys2Proof/Machine/Flags.lean ====
section
/-! DEFINITION. The status outputs `OK` and `WE`, the only flags of BBFP (spec/10_state.md R19), and the
checks that decide them (spec/41_field_datapath.md R81, R84, R95). `ILL` is set by the ILLEGAL response
alone (spec/60_exceptions.md R93). -/

namespace Sys2Proof.Machine

/-- `fits <- (zext_32(v) <= mask(w))` (R81). -/
def fits (w : Width) (v : Half) : Bool := decide (zext32 v ≤ mask w)

/-- `legal <- (e = 0) or (fits and in.M[v] = 1)` (R81, R84). -/
def legal (w : Width) (e : Bool) (v m : Half) : Bool := !e || (fits w v && m.getLsbD v.toNat)

/-- An operation that only reports success: `OK = 1`, `WE = 0`. -/
def Response.done (r : Response) : Response := { r with ok := true, we := false }

/-- A set that asks for its write: `OK = 1`, `WE = 1`. -/
def Response.accepted (r : Response) : Response := { r with ok := true, we := true }

/-- A rejected value: a status, not an exception (R95): `OK = 0`, `WE = 0`. -/
def Response.rejected (r : Response) : Response := { r with ok := false, we := false }

end Sys2Proof.Machine
end

