-- ==== Sys2Proof/Machine/Translator.lean ====
section
/-! DEFINITION. The bit-band translator: `TOALIAS`, `FROMALIAS`, `PINLOOKUP` (spec/40_translator.md R71 to
R73), as pure functions of the parameters and the request, and as meanings. -/

namespace Sys2Proof.Machine

/-- The address lies in the bit-band region `[RB, RB+RS)` (R29). -/
abbrev inRegion (P : Params) (a : Addr) : Prop := P.rb ≤ a.toNat ∧ a.toNat < P.rb + P.rs

/-- The address lies in the alias window `[AB, AB+32*RS)` (R29). -/
abbrev inWindow (P : Params) (y : Addr) : Prop := P.ab ≤ y.toNat ∧ y.toNat < P.ab + 32 * P.rs

/-- The address is word-aligned (R31). -/
abbrev wordAligned (a : Addr) : Prop := a.toNat % 4 = 0

/-- `AB + (a - RB) * 32 + b * 4`: the alias of bit `b` of the word at `a` (R71). With `aliasReg` and `aliasBit` it is a
pair of inverse maps: reverse after forward (R74), forward after reverse (R75). -/
def aliasOf (P : Params) (a : Addr) (b : BitVec 5) : Addr :=
  BitVec.ofNat 32 (P.ab + (a.toNat - P.rb) * Config.bbMult + b.toNat * Config.bbStride)

/-- `RB + floor(off / 128) * 4`: the register word an alias belongs to (R72; R74, R75). -/
def aliasReg (P : Params) (y : Addr) : Addr :=
  BitVec.ofNat 32 (P.rb + (y.toNat - P.ab) / 128 * 4)

/-- `floor(off / 4) mod 32`: the bit an alias stands for (R72; R74, R75). -/
def aliasBit (P : Params) (y : Addr) : BitVec 5 :=
  BitVec.ofNat 5 ((y.toNat - P.ab) / 4 % 32)

/-- `reg & ~(BS - 1)`: the address masked down to the block size (R73). -/
def blockBase (P : Params) (reg : Addr) : Addr := reg &&& ~~~(BitVec.ofNat 32 (P.bs - 1))

/-- `TOALIAS` (R71). -/
def toaliasResponse (P : Params) (b : BitVec 5) (q : Request) : Except Precondition Response :=
  if ¬ inRegion P q.a then .error .addrOutsideRegion
  else if ¬ wordAligned q.a then .error .addrMisaligned
  else .ok (Response.done { y := aliasOf P q.a b })

/-- `FROMALIAS` (R72). -/
def fromaliasResponse (P : Params) (q : Request) : Except Precondition Response :=
  if ¬ inWindow P q.a then .error .aliasOutsideWindow
  else if ¬ wordAligned q.a then .error .aliasMisaligned
  else .ok (Response.done { y := aliasReg P q.a, z := aliasBit P q.a })

/-- `PINLOOKUP` (R73). -/
def pinlookupResponse (P : Params) (q : Request) : Except Precondition Response :=
  if ¬ inWindow P q.a then .error .aliasOutsideWindow
  else if ¬ wordAligned q.a then .error .aliasMisaligned
  else
    let reg := aliasReg P q.a
    let bit := aliasBit P q.a
    let base := blockBase P reg
    if ¬ ((reg - base).toNat = P.off .idr ∨ (reg - base).toNat = P.off .odr) then .error .notDataArray
    else if ¬ bit.toNat < 16 then .error .pinOutOfRange
    else .ok (Response.done { y := base, z := bit })

/-- The meaning of `TOALIAS` (R71). -/
def execToalias (b : BitVec 5) (s : State) : Host.Outcome State Fault Refusal :=
  answer .toalias (toaliasResponse s.cfg b s.inp) s

/-- The meaning of `FROMALIAS` (R72). -/
def execFromalias (s : State) : Host.Outcome State Fault Refusal :=
  answer .fromalias (fromaliasResponse s.cfg s.inp) s

/-- The meaning of `PINLOOKUP` (R73). -/
def execPinlookup (s : State) : Host.Outcome State Fault Refusal :=
  answer .pinlookup (pinlookupResponse s.cfg s.inp) s

end Sys2Proof.Machine
end

