-- ==== Sys2Proof/Machine/FieldDatapath.lean ====
section
/-! DEFINITION. The field-packing datapath: `FGET`, `FSET`, `BITWR`, `SRENC`
(spec/41_field_datapath.md R80 to R83), as pure functions of the request, and as meanings. -/

namespace Sys2Proof.Machine

/-- `FGET` (R80). -/
def fgetResponse (w : Width) (sh : BitVec 5) (q : Request) : Except Precondition Response :=
  if ¬ inWord sh w then .error .fieldOutOfWord
  else .ok (Response.done { rv := ((q.d >>> sh.toNat) &&& mask w).extractLsb' 0 16 })

/-- The word with the field replaced: mask out the old bits, OR in the new (R81). -/
def insertField (w : Width) (sh : BitVec 5) (d : Word) (v : Half) : Word :=
  (d &&& ~~~(fmask sh w)) ||| (zext32 v <<< sh.toNat)

/-- `FSET` (R81, R84). -/
def fsetResponse (w : Width) (e : Bool) (sh : BitVec 5) (q : Request) : Except Precondition Response :=
  if ¬ inWord sh w then .error .fieldOutOfWord
  else if fits w q.v && legal w e q.v q.m then
    .ok (Response.accepted { y := q.a, wd := insertField w sh q.d q.v })
  else .ok (Response.rejected { y := q.a, wd := q.d })

/-- `BITWR` (R82). -/
def bitwrResponse (P : Params) (b : BitVec 5) (q : Request) : Except Precondition Response :=
  if ¬ inRegion P q.a then .error .addrOutsideRegion
  else if ¬ wordAligned q.a then .error .addrMisaligned
  else if q.v ≤ 1 then .ok (Response.accepted { y := aliasOf P q.a b, wd := zext32 q.v })
  else .ok (Response.rejected { y := aliasOf P q.a b, wd := 0 })

/-- `SRENC` (R83). -/
def srencResponse (p : BitVec 5) (q : Request) : Except Precondition Response :=
  if ¬ p.toNat < 16 then .error .pinOutOfRange
  else if q.v = 1 then .ok (Response.accepted { y := q.a, wd := 1#32 <<< p.toNat })
  else if q.v = 0 then .ok (Response.accepted { y := q.a, wd := 1#32 <<< (p.toNat + 16) })
  else .ok (Response.rejected { y := q.a, wd := 0 })

/-- The meaning of `FGET` (R80). -/
def execFget (w : Width) (sh : BitVec 5) (s : State) : Host.Outcome State Fault Refusal :=
  answer .fget (fgetResponse w sh s.inp) s

/-- The meaning of `FSET` (R81). -/
def execFset (w : Width) (e : Bool) (sh : BitVec 5) (s : State) : Host.Outcome State Fault Refusal :=
  answer .fset (fsetResponse w e sh s.inp) s

/-- The meaning of `BITWR` (R82). -/
def execBitwr (b : BitVec 5) (s : State) : Host.Outcome State Fault Refusal :=
  answer .bitwr (bitwrResponse s.cfg b s.inp) s

/-- The meaning of `SRENC` (R83). -/
def execSrenc (p : BitVec 5) (s : State) : Host.Outcome State Fault Refusal :=
  answer .srenc (srencResponse p s.inp) s

end Sys2Proof.Machine
end

