-- ==== Sys2Proof/Machine/Bbfp.lean ====
section
/-! DEFINITION. BBFP as R13 has it: a total function of the configuration and the request. The machine's
`exec` puts the same responses on the output ports; Laws/Request.lean says so. -/

namespace Sys2Proof.Machine

/-- The three outcomes of R9. -/
inductive RequestOutcome where
  | response (r : Response)
  | illegal
  | pre (op : Op) (name : Precondition)
  deriving DecidableEq, Repr

/-- The response of a decoded request, or the precondition it violates. -/
def respond (P : Params) (i : Instr) (q : Request) : Except Precondition Response :=
  match i with
  | .toalias b => toaliasResponse P b q
  | .fromalias => fromaliasResponse P q
  | .pinlookup => pinlookupResponse P q
  | .fget w sh => fgetResponse w sh q
  | .fset w e sh => fsetResponse w e sh q
  | .bitwr b => bitwrResponse P b q
  | .srenc p => srencResponse p q

/-- `bbfp : Request -> Outcome` (R13), with the configuration it is passed (R18). ILLEGAL is decided from
`CTRL` alone, before any precondition (R92). -/
def bbfp (P : Params) (q : Request) : RequestOutcome :=
  match decode q.ctrl with
  | .error _ => .illegal
  | .ok i =>
    match respond P i q with
    | .ok r => .response r
    | .error name => .pre i.op name

end Sys2Proof.Machine
end

