-- ==== Sys2Proof/Machine/Layout.lean ====
section
/-! DEFINITION. The register image of one GPIO block: R21's table, row by row, and what follows from it. -/

namespace Sys2Proof.Machine

/-- The field arrays of R21. -/
inductive FieldKind where
  | mode | outputType | outputSpeed | pull | inputData | outputData
  | setBit | resetBit | lock | lockKey | alternateFunction | placeholder
  deriving DecidableEq, Repr

/-- The access column of R21; `none` is a placeholder's (R23). -/
inductive Access where
  | readWrite | readOnly | writeOnly | none
  deriving DecidableEq, Repr

/-- One row of R21: `count` fields of one width, field `i` at shift `first + stride * i`. -/
structure FieldRow where
  reg    : Reg
  kind   : FieldKind
  width  : Width
  count  : Nat
  first  : Nat
  stride : Nat
  access : Access
  deriving DecidableEq, Repr

/-- R21's table. -/
def layout : List FieldRow :=
  [ ⟨.moder, .mode, .w2, 16, 0, 2, .readWrite⟩,
    ⟨.otyper, .outputType, .w1, 16, 0, 1, .readWrite⟩,
    ⟨.otyper, .placeholder, .w16, 1, 16, 0, .none⟩,
    ⟨.ospeedr, .outputSpeed, .w2, 16, 0, 2, .readWrite⟩,
    ⟨.pupdr, .pull, .w2, 16, 0, 2, .readWrite⟩,
    ⟨.idr, .inputData, .w1, 16, 0, 1, .readOnly⟩,
    ⟨.idr, .placeholder, .w16, 1, 16, 0, .none⟩,
    ⟨.odr, .outputData, .w1, 16, 0, 1, .readWrite⟩,
    ⟨.odr, .placeholder, .w16, 1, 16, 0, .none⟩,
    ⟨.bsrr, .setBit, .w1, 16, 0, 1, .writeOnly⟩,
    ⟨.bsrr, .resetBit, .w1, 16, 16, 1, .writeOnly⟩,
    ⟨.lckr, .lock, .w1, 16, 0, 1, .readWrite⟩,
    ⟨.lckr, .lockKey, .w1, 1, 16, 0, .readWrite⟩,
    ⟨.lckr, .placeholder, .w15, 1, 17, 0, .none⟩,
    ⟨.afrl, .alternateFunction, .w4, 8, 0, 4, .readWrite⟩,
    ⟨.afrh, .alternateFunction, .w4, 8, 0, 4, .readWrite⟩ ]

/-- The row names the field of this register, shift and width. -/
def FieldRow.names (f : FieldRow) (r : Reg) (sh : Nat) (w : Width) : Bool :=
  decide (f.reg = r) && decide (f.width = w) &&
    (List.range f.count).any fun i => decide (sh = f.first + f.stride * i)

/-- The row of R21 a field is one of (R68 WF1). -/
def fieldRow? (r : Reg) (sh : Nat) (w : Width) : Option FieldRow :=
  layout.find? fun f => f.names r sh w

/-- The placeholder bits of a register (R21, R23): the bits each read draws and each write ignores (R32). -/
def placeholderMask : Reg → Word
  | .moder => 0
  | .otyper => 0xFFFF0000
  | .ospeedr => 0
  | .pupdr => 0
  | .idr => 0xFFFF0000
  | .odr => 0xFFFF0000
  | .bsrr => 0
  | .lckr => 0xFFFE0000
  | .afrl => 0
  | .afrh => 0

/-- The block of `GPIO_BASES` an address lies in, by its base (R29, R54). -/
def blockOf (P : Params) (a : Addr) : Option Nat :=
  P.gpioBases.find? fun base => decide (base ≤ a.toNat) && decide (a.toNat < base + P.bs)

/-- The register at an offset of a block (R21). -/
def regAt (P : Params) (o : Nat) : Option Reg := Reg.all.find? fun r => decide (P.off r = o)

/-- The address of a register of a block (R21). -/
def regAddr (P : Params) (base : Addr) (r : Reg) : Addr := base + BitVec.ofNat 32 (P.off r)

/-- The block and register an address names. -/
def locate (P : Params) (a : Addr) : Option (Nat × Reg) :=
  match blockOf P a with
  | none => none
  | some base =>
    match regAt P (a.toNat - base) with
    | none => none
    | some r => some (base, r)

/-- `VALID(field)` (R24), for a field that is enumerated. -/
def validSet? (P : Params) (r : Reg) (sh : Nat) : Option Half := P.valid.lookup (r, sh)

/-- Where the alternate-function field of a pin stands (R21, R108): its register and its shift. -/
def alternateField (pin : Fin 16) : Reg × BitVec 5 :=
  (if pin.val < 8 then .afrl else .afrh, BitVec.ofNat 5 (4 * (pin.val % 8)))

end Sys2Proof.Machine
end

