-- ==== Sys2Proof/Machine/Bus.lean ====
section
/-! DEFINITION. The bus accesses agents make (spec/20_memory.md R28 to R40, R44, R54): each is one
indivisible event. -/

namespace Sys2Proof.Machine

/-- What an admitted access addresses: a word of a GPIO block, or one bit of one through its alias. The
register is `none` at an offset of the block where R21 places none. -/
inductive Target where
  | reg (base : Nat) (r : Option Reg) (a : Addr)
  | bit (base : Nat) (r : Option Reg) (a : Addr) (b : BitVec 5)
  deriving DecidableEq, Repr

/-- Which target an access of `n` bytes has (R29, R31, R54), or why it has no step. -/
def target (P : Params) (n : Nat) (addr : Addr) : Except NoStep Target :=
  if n ≠ Config.wordBytes then .error .accessWidth
  else if ¬ wordAligned addr then .error .misaligned
  else if inWindow P addr then
    match blockOf P (aliasReg P addr) with
    | none => .error .aliasOutsideBlocks
    | some base =>
      .ok (.bit base (regAt P ((aliasReg P addr).toNat - base)) (aliasReg P addr) (aliasBit P addr))
  else
    match blockOf P addr with
    | none => .error .outsideModel
    | some base => .ok (.reg base (regAt P (addr.toNat - base)) addr)

/-! ### Reads -/

/-- The bits a read of a register draws: all of BSRR (R38) and of IDR (R39), the placeholder bits of the
others (R32, R40), and all of a word where R21 places no register, whose value no rule gives (log entry 6). -/
def drawMask : Option Reg → Word
  | none => BitVec.allOnes 32
  | some .idr => BitVec.allOnes 32
  | some .bsrr => BitVec.allOnes 32
  | some r => placeholderMask r

/-- A word whose bits under `m` are drawn. -/
def mixDrawn (x free m : Word) : Word := if m = 0 then x else (x &&& ~~~m) ||| (free &&& m)

/-- The word a `MemRead(A, 4)` of a register word returns at this point (R32, R38, R39, R40). -/
def regWord (s : State) (r : Option Reg) (a : Addr) : Word :=
  mixDrawn (Memory.word s.img a) (Config.freeWord s.draws) (drawMask r)

/-- Bit `b` of that word (R33); `regWord_getLsbD` says it is. -/
def regBit (s : State) (r : Option Reg) (a : Addr) (b : BitVec 5) : Bool :=
  if (drawMask r).getLsbD b.toNat then (Config.freeWord s.draws).getLsbD b.toNat
  else (Memory.word s.img a).getLsbD b.toNat

/-- What a read leaves: its draw is used up, and an IDR read's draw is the pin levels of its block (R20,
R39). Nothing else changes: no read has a side effect (R32). -/
def afterRead (s : State) (base : Nat) (r : Option Reg) : State :=
  { s with
    draws := s.draws + 1
    pinIn := if r = some .idr then bindKey base ((Config.freeWord s.draws).extractLsb' 0 16) s.pinIn
             else s.pinIn }

/-- `MemRead(addr, n)` (R31 to R33, R38 to R40). -/
def memRead (s : State) (n : Nat) (addr : Addr) : Except Fault (Word × State) :=
  match target s.cfg n addr with
  | .error e => .error (.stuck e)
  | .ok (.reg base r a) => .ok (regWord s r a, afterRead s base r)
  | .ok (.bit base r a b) =>
    if r = some .bsrr then .error (.stuck .aliasOfBsrr)
    else .ok (zextBit (regBit s r a b), afterRead s base r)

/-! ### Writes -/

/-- Some pin has both its set bit and its reset bit in the word (R37). -/
def bothBits (w : Word) : Bool := decide ((w &&& (w >>> 16)) &&& 0xFFFF#32 ≠ 0)

/-- The output-data word after a BSRR write (R36): set bits to 1, reset bits to 0, the others unchanged. -/
def setReset (odr w : Word) : Word := (odr ||| (w &&& 0xFFFF#32)) &&& ~~~(w >>> 16)

/-- The word a write leaves in a read-write register: the placeholder bits of the data are ignored (R32);
what stands in them is kept and never seen (log entry 23). -/
def storedWord (r : Reg) (old v : Word) : Word :=
  (v &&& ~~~(placeholderMask r)) ||| (old &&& placeholderMask r)

/-- The effect of a word write inside a block (R32, R36, R37, R39, R40). A word where R21 places no register
takes the data: no rule stops the write, and no rule gives it another effect (log entry 6). -/
def writeReg (s : State) (base : Nat) (r : Option Reg) (a : Addr) (v : Word) : Except Fault State :=
  match r with
  | none => .ok { s with img := Memory.setWord s.img a v }
  | some .idr => .error (.stuck .idrWrite)
  | some .lckr => .error (.stuck .lckrWrite)
  | some .bsrr =>
    if bothBits v then .error .bsrrBothBits
    else
      let o := regAddr s.cfg (BitVec.ofNat 32 base) .odr
      .ok { s with img := Memory.setWord s.img o (setReset (Memory.word s.img o) v) }
  | some r => .ok { s with img := Memory.setWord s.img a (storedWord r (Memory.word s.img a) v) }

/-- Why an alias write of a bit has no step, if it has none (R35). -/
def bitWriteRefused (r : Option Reg) (b : BitVec 5) : Option NoStep :=
  match r with
  | none => none
  | some .bsrr => some .aliasOfBsrr
  | some .idr => some .aliasWriteIdr
  | some .lckr => some .aliasWriteLckr
  | some r => if (placeholderMask r).getLsbD b.toNat then some .aliasWritePlaceholder else none

/-- The effect of an alias write (R34): bit `b` of the word takes `v[0]`, every other bit is unchanged; the
read and the write are one event (R44). -/
def writeBit (s : State) (r : Option Reg) (a : Addr) (b : BitVec 5) (v : Word) : Except Fault State :=
  match bitWriteRefused r b with
  | some e => .error (.stuck e)
  | none => .ok { s with img := Memory.setWord s.img a (putBit (Memory.word s.img a) b (v.getLsbD 0)) }

/-- `MemWrite(addr, n, v)` (R31, R32, R34 to R37, R39, R40). -/
def memWrite (s : State) (n : Nat) (addr : Addr) (v : Word) : Except Fault State :=
  match target s.cfg n addr with
  | .error e => .error (.stuck e)
  | .ok (.reg base r a) => writeReg s base r a v
  | .ok (.bit _ r a b) => writeBit s r a b v

end Sys2Proof.Machine
end

