-- ==== Sys2Proof/Machine/Expand.lean ====
section
/-! DEFINITION. The access sequences of spec/20_memory.md R47 to R53 as the lines they expand to (R70). -/

namespace Sys2Proof.Machine

/-- A request line of an access sequence; an omitted data operand is 0 (R69). -/
def reqLine (i : Instr) (a : Operand := .lit 0) (d : Operand := .lit 0) (v : NarrowOperand := .lit 0)
    (m : NarrowOperand := .lit 0) : Line :=
  .request .r (encode i) a d v m

/-- The expansion of each access sequence, and only that (R70). -/
def expand (P : Params) : AccessSeq → List Line
  | .readBit reg b => [reqLine (.toalias b) (.lit reg), .ld .t 4 (.y .r)]
  | .readInput h => [.ld .t 4 (.lit h)]
  | .readOutput h => [.ld .t 4 (.lit h)]
  | .get w reg sh => [.ld .t 4 (.lit reg), reqLine (.fget w sh) (.lit 0) (.word .t)]
  | .setBit reg b v => [reqLine (.bitwr b) (.lit reg) (.lit 0) (.lit v), .stWe .r]
  | .set w e reg sh v m =>
    [.ld .t 4 (.lit reg), reqLine (.fset w e sh) (.lit reg) (.word .t) (.lit v) (.lit m), .stWe .r]
  | .writeDirect h v =>
    [reqLine (.bitwr (BitVec.ofNat 5 h.pin.val)) (.lit (regAddr P h.base .odr)) (.lit 0) (.lit v), .stWe .r]
  | .writeSetReset h v =>
    [reqLine (.srenc (BitVec.ofNat 5 h.pin.val)) (.lit (regAddr P h.base .bsrr)) (.lit 0) (.lit v), .stWe .r]
  | .pinOf h => [reqLine .pinlookup (.lit h)]

end Sys2Proof.Machine
end

