-- ==== Sys2Proof/Machine/Checks.lean ====
section
/-! DEFINITION. The static checks on programs, WF1 to WF7 (spec/30_encoding.md R68) and R23's. BBFP
performs none of them: the model refuses a program that fails one, by its name. A program stands there as access
sequences, or as the bare lines that make them up: `checkLine` reads the sequences off the lines. -/

namespace Sys2Proof.Machine

/-- WF1: the row of R21 that a register address, a shift and a width name, in a block of `GPIO_BASES`. -/
def fieldAt (P : Params) (reg : Addr) (sh : BitVec 5) (w : Width) : Option FieldRow :=
  match locate P reg with
  | none => none
  | some (_, r) => fieldRow? r sh.toNat w

/-- A get (R47, R48): WF1, R23, WF3. -/
def checkGet (P : Params) (reg : Addr) (sh : BitVec 5) (w : Width) : Option ProgramCheck :=
  match fieldAt P reg sh w with
  | none => some .wf1
  | some f =>
    match f.access with
    | .none => some .placeholderTarget
    | .writeOnly => some .wf3
    | .readOnly => none
    | .readWrite => none

/-- A set (R49, R50): WF1, WF2. -/
def checkSet (P : Params) (reg : Addr) (sh : BitVec 5) (w : Width) : Option ProgramCheck :=
  match fieldAt P reg sh w with
  | none => some .wf1
  | some f =>
    match f.access with
    | .none => some .wf2
    | .readOnly => some .wf2
    | .writeOnly => none
    | .readWrite => none

/-- WF7: the valid set of the field a register address and a shift name is `m`. -/
def checkValid (P : Params) (reg : Addr) (sh : BitVec 5) (m : Half) : Option ProgramCheck :=
  match locate P reg with
  | none => some .wf7
  | some (_, r) => if validSet? P r sh.toNat = some m then none else some .wf7

/-- A set by `FSET` (R50): WF1, WF2, WF4, and WF7, which `valid` decides, where `E = 1`. -/
def checkWideSet (P : Params) (w : Width) (e : Bool) (reg : Addr) (sh : BitVec 5)
    (valid : Option ProgramCheck) : Option ProgramCheck :=
  match checkSet P reg sh w with
  | some c => some c
  | none => if w = .w1 then some .wf4 else if e then valid else none

/-- The alias address was made by `TOALIAS` from register `r` of a block of `GPIO_BASES` and a pin below
16 (R68 WF6). -/
def isSlot (P : Params) (r : Reg) (h : Addr) : Bool :=
  P.gpioBases.any fun base => (List.range 16).any fun p =>
    decide (aliasOf P (regAddr P (BitVec.ofNat 32 base) r) (BitVec.ofNat 5 p) = h)

/-- The handle given to `PINLOOKUP` was made from IDR or ODR of a listed block and a pin below 16 (WF6). -/
def checkHandle (P : Params) (h : Addr) : Option ProgramCheck :=
  if isSlot P .idr h || isSlot P .odr h then none else some .wf6

/-- A `write_output` (R51, R52): the handle's block is in `GPIO_BASES` (WF1) and its role is an output's
(WF5). -/
def checkOutput (P : Params) (h : PinHandle) : Option ProgramCheck :=
  if h.base.toNat ∉ P.gpioBases then some .wf1
  else
    match h.role with
    | .output => none
    | .alternateOutput => none
    | .input => some .wf5
    | .alternateInput => some .wf5

/-- The check an access sequence fails, if any, the first in R68's order. Log entry 17. -/
def checkSeq (P : Params) : AccessSeq → Option ProgramCheck
  | .readBit reg b => checkGet P reg b .w1
  | .readInput h => if isSlot P .idr h then none else some .wf5
  | .readOutput h => if isSlot P .odr h then none else some .wf1
  | .get w reg sh => checkGet P reg sh w
  | .setBit reg b _ => checkSet P reg b .w1
  | .set w e reg sh _ m => checkWideSet P w e reg sh (checkValid P reg sh m)
  | .writeDirect h _ => checkOutput P h
  | .writeSetReset h _ => checkOutput P h
  | .pinOf h => checkHandle P h

/-- The steps of `configure`, in R108's order: output-type, mode, speed, pull, alternate function. The
enumeration check of a step applies where `VALID(field)` is given (R24). Log entry 14. -/
def configureSteps (P : Params) (c : PinConfig) : List AccessSeq :=
  let two : BitVec 5 := BitVec.ofNat 5 (2 * c.pin.val)
  let step (w : Width) (r : Reg) (sh : BitVec 5) (v : Half) : AccessSeq :=
    .set w (validSet? P r sh.toNat).isSome (regAddr P c.base r) sh v ((validSet? P r sh.toNat).getD 0)
  [ .setBit (regAddr P c.base .otyper) (BitVec.ofNat 5 c.pin.val) c.outputType,
    step .w2 .moder two c.mode,
    step .w2 .ospeedr two c.speed,
    step .w2 .pupdr two c.pull ] ++
  match c.alternate with
  | none => []
  | some v => [step .w4 (alternateField c.pin).1 (alternateField c.pin).2 v]

/-- The first check that fails in a list of sequences. -/
def checkSeqs (P : Params) : List AccessSeq → Option ProgramCheck
  | [] => none
  | q :: qs => match checkSeq P q with
    | some c => some c
    | none => checkSeqs P qs

/-! ### The sequences that bare lines make up

R68's checks are static, so what a line's operand names must be known from the program's text: each name stands
for the request or the read that bound it. Log entry 11. -/

/-- What the text of a program says of a value: which it is; that it was bound before the part that is left (and
checked then); or nothing, because it comes from a read or its name is never bound. -/
inductive Static (α : Type) where
  | known (x : α)
  | earlier
  | notStatic
  deriving DecidableEq, Repr

def Static.map {α β : Type} (f : α → β) : Static α → Static β
  | .known x => .known (f x)
  | .earlier => .earlier
  | .notStatic => .notStatic

/-- A value computed from another, where it is given one. -/
def Static.bind {α β : Type} (x : Static α) (f : α → Static β) : Static β :=
  match x with
  | .known x => f x
  | .earlier => .earlier
  | .notStatic => .notStatic

/-- A value computed from another in a way the text does not follow. -/
def Static.lost {α β : Type} : Static α → Static β
  | .known _ => .notStatic
  | .earlier => .earlier
  | .notStatic => .notStatic

/-- Check a value that R68 wants static: one the text does not give fails the check `c`. -/
def Static.check {α : Type} (c : ProgramCheck) (f : α → Option ProgramCheck) : Static α → Option ProgramCheck
  | .known x => f x
  | .earlier => none
  | .notStatic => some c

/-- What the text says of the names: for a response, what was asked (`none`: an ILLEGAL word), with which `A` and
which `M`; for a word read, from which address. -/
structure StaticNames where
  asked  : Name → Static (Option Instr)
  addr   : Name → Static Addr
  mask   : Name → Static Half
  source : Name → Static Addr

/-- Bind a name. -/
def bindName {α : Type} (n : Name) (x : α) (f : Name → α) : Name → α := fun k => if k = n then x else f k

/-- `Y` of a request, of which the operation and `A` decide: no value where they violate a precondition (R78). -/
def staticY (P : Params) : Option Instr → Addr → Static Addr
  | none, _ => .known Response.illegal.y
  | some i, a =>
    match respond P i { a := a } with
    | .ok x => .known x.y
    | .error _ => .notStatic

/-- `$n.Y`, as far as the text gives it. -/
def StaticNames.y (P : Params) (env : StaticNames) (n : Name) : Static Addr :=
  (env.asked n).bind fun i => (env.addr n).bind (staticY P i)

/-- An operand of at most 16 bits, as far as the text gives it. -/
def NarrowOperand.static (env : StaticNames) : NarrowOperand → Static Half
  | .lit x => .known x
  | .rv n => (env.asked n).lost
  | .z n => (env.asked n).lost
  | .ok n => (env.asked n).lost
  | .bit0 n => (env.source n).lost

/-- A 32-bit operand, as far as the text gives it. -/
def Operand.static (P : Params) (env : StaticNames) : Operand → Static Addr
  | .lit x => .known x
  | .y n => env.y P n
  | .wd n => (env.asked n).lost
  | .word n => (env.source n).lost
  | .narrow o => (NarrowOperand.static env o).map zext32
  | .regOf n r => (env.y P n).map fun y => y + BitVec.ofNat 32 (P.off r)

/-- The handle an operand gives `PINLOOKUP`: an address the program carries, or the `Y` of a `TOALIAS`; no other
request makes one (R68 WF6). -/
def handleOf (P : Params) (env : StaticNames) : Operand → Static Addr
  | .lit h => .known h
  | .y n => (env.asked n).bind fun
    | some (.toalias b) => (env.addr n).bind (staticY P (some (.toalias b)))
    | _ => .notStatic
  | .wd n => (env.asked n).lost
  | .word n => (env.source n).lost
  | .narrow o => (NarrowOperand.static env o).map zext32
  | .regOf n _ => (env.asked n).lost

/-- WF7 of an `FSET` with `E = 1` whose address and shift name a register of a listed block. -/
def checkMask (P : Params) (a : Static Addr) (sh : BitVec 5) (m : Static Half) : Option ProgramCheck :=
  match a with
  | .known reg =>
    match locate P reg with
    | none => none
    | some _ => m.check .wf7 (checkValid P reg sh)
  | .earlier => none
  | .notStatic => none

/-- The bit and the register address of the `TOALIAS` whose `Y` an operand is. -/
def toaliasOf (env : StaticNames) : Operand → Option (BitVec 5 × Static Addr)
  | .y n =>
    match env.asked n with
    | .known (some (.toalias b)) => some (b, env.addr n)
    | _ => none
  | _ => none

/-- An alias word read: one bit read through its alias (R47). Any other word may be read for an `FGET` or an `FSET`. -/
def checkAliasRead (P : Params) (y : Addr) : Option ProgramCheck :=
  if inWindow P y ∧ wordAligned y then checkGet P (aliasReg P y) (aliasBit P y) .w1 else none

/-- The set/reset word goes to a set/reset register of a listed block (R52, R83). -/
def checkSetReset (P : Params) (reg : Addr) : Option ProgramCheck :=
  match locate P reg with
  | some (_, .bsrr) => none
  | _ => some .wf1

/-- The sequence that a line completes, checked: `pinlookup` (R53: WF6), `fget` of a word read (R48: WF1, R23, WF3),
an `ld32` of a `toalias` or of an alias word (R47: the same), `st32.we` of a `bitwr` (R49: WF1, WF2), of an `fset` (R50:
WF1, WF2, WF4, WF7) and of an `srenc` (R52: WF1). An `fset.e` of a listed field is checked where it stands (WF7). The
other bus steps belong to no sequence. -/
def checkLine (P : Params) (env : StaticNames) : Line → Option ProgramCheck
  | .request _ ctrl a d _ m =>
    match decode ctrl with
    | .ok .pinlookup => (handleOf P env a).check .wf6 (checkHandle P)
    | .ok (.fget w sh) =>
      match d with
      | .word n => (env.source n).check .wf1 fun reg => checkGet P reg sh w
      | _ => none
    | .ok (.fset _ true sh) => checkMask P (Operand.static P env a) sh (NarrowOperand.static env m)
    | _ => none
  | .ld _ _ addr =>
    match toaliasOf env addr with
    | some (b, a) => a.check .wf1 fun reg => checkGet P reg b .w1
    | none =>
      match Operand.static P env addr with
      | .known y => checkAliasRead P y
      | .earlier => none
      | .notStatic => none
  | .st _ _ _ => none
  | .stWe n =>
    match env.asked n with
    | .earlier => none
    | .notStatic => some .wf1
    | .known (some (.bitwr b)) => (env.addr n).check .wf1 fun reg => checkSet P reg b .w1
    | .known (some (.fset w e sh)) => (env.addr n).check .wf1 fun reg =>
        checkWideSet P w e reg sh ((env.mask n).check .wf7 (checkValid P reg sh))
    | .known (some (.srenc _)) => (env.addr n).check .wf1 (checkSetReset P)
    | .known _ => none

/-- What a line binds. -/
def StaticNames.after (P : Params) (env : StaticNames) : Line → StaticNames
  | .request dst ctrl a _ _ m =>
    { env with
      asked := bindName dst (.known (match decode ctrl with | .ok i => some i | .error _ => none)) env.asked
      addr := bindName dst (Operand.static P env a) env.addr
      mask := bindName dst (NarrowOperand.static env m) env.mask }
  | .ld dst _ addr => { env with source := bindName dst (Operand.static P env addr) env.source }
  | .st _ _ _ => env
  | .stWe _ => env

/-- What lines bind, one after the other. A sequence binds what its expansion does (R70), `$r` and `$t` included. -/
def StaticNames.afterLines (P : Params) (env : StaticNames) (ls : List Line) : StaticNames :=
  ls.foldl (fun e l => e.after P l) env

/-- After a `configure` the text does not say which of its steps bound `$r` and `$t` last: a failed one may end it
(R109). -/
def StaticNames.afterConfigure (env : StaticNames) : StaticNames :=
  { asked := bindName .r .notStatic (bindName .t .notStatic env.asked)
    addr := bindName .r .notStatic (bindName .t .notStatic env.addr)
    mask := bindName .r .notStatic (bindName .t .notStatic env.mask)
    source := bindName .r .notStatic (bindName .t .notStatic env.source) }

/-- What is known of a name that is bound, or not, before the part that is left. -/
def boundEarlier {α : Type} (bound : Bool) : Static α := if bound then .earlier else .notStatic

/-- The names an agent has bound already; one that is not bound is bound nowhere. -/
def boundNames (ag : Agent) : StaticNames :=
  { asked := fun n => boundEarlier (ag.response? n).isSome
    addr := fun n => boundEarlier (ag.response? n).isSome
    mask := fun n => boundEarlier (ag.response? n).isSome
    source := fun n => boundEarlier (ag.word? n).isSome }

/-- The lines left of the sequence in progress. -/
def Agent.linesLeft (ag : Agent) : List Line := match ag.running with | some run => run.lines | none => []

/-- What is known of the names where an agent's next item begins: after the lines left of its sequence in progress,
and after its `configure` in progress. -/
def namesOf (P : Params) (ag : Agent) : StaticNames :=
  let env := (boundNames ag).afterLines P ag.linesLeft
  match ag.conf with
  | none => env
  | some _ => env.afterConfigure

/-- The check an item fails. -/
def checkItem (P : Params) (env : StaticNames) : Item → Option ProgramCheck
  | .seq q => checkSeq P q
  | .configure c => checkSeqs P (configureSteps P c)
  | .line l => checkLine P env l

/-- The names after an item. -/
def StaticNames.afterItem (P : Params) (env : StaticNames) : Item → StaticNames
  | .seq q => env.afterLines P (expand P q)
  | .configure _ => env.afterConfigure
  | .line l => env.after P l

/-- The first check that fails in a list of items. -/
def checkItems (P : Params) : StaticNames → List Item → Option ProgramCheck
  | _, [] => none
  | env, i :: is => match checkItem P env i with
    | some c => some c
    | none => checkItems P (env.afterItem P i) is

/-- The check an agent's program fails: what is still to run, a `configure` in progress included. -/
def checkAgent (P : Params) (ag : Agent) : Option ProgramCheck :=
  match checkSeqs P (match ag.conf with | some c => c.steps | none => []) with
  | some c => some c
  | none => checkItems P (namesOf P ag) ag.code

/-- The first check that fails in a list of agents. -/
def checkAgents (P : Params) : List Agent → Option ProgramCheck
  | [] => none
  | ag :: ags => match checkAgent P ag with
    | some c => some c
    | none => checkAgents P ags

/-- The check the program fails, over all agents (R68): `none` says it is well-formed. Log entry 24. -/
def checkProgram (s : State) : Option ProgramCheck := checkAgents s.cfg s.agents

end Sys2Proof.Machine
end

