-- ==== Sys2Proof/Machine/Sequences.lean ====
section
/-! DEFINITION. What a line of an access sequence (spec/20_memory.md R47 to R53) leaves its agent, and the results
of the sequences. -/

namespace Sys2Proof.Machine

/-- The line is a bus step; a `st32.we` makes its event only where `WE = 1`. -/
def Line.isBus : Line → Bool
  | .request _ _ _ _ _ _ => false
  | .ld _ _ _ => true
  | .st _ _ _ => true
  | .stWe _ => true

/-- The result of a completed sequence, from its own `$r` and `$t`. Log entry 16. -/
def seqResult (ag : Agent) : AccessSeq → Option SeqResult
  | .readBit _ _ => (ag.word? .t).map fun t => .bit (t.getLsbD 0)
  | .readInput _ => (ag.word? .t).map fun t => .bit (t.getLsbD 0)
  | .readOutput _ => (ag.word? .t).map fun t => .bit (t.getLsbD 0)
  | .get _ _ _ => (ag.response? .r).map fun r => .value r.rv
  | .setBit _ _ _ => (ag.response? .r).map fun r => .success r.ok
  | .set _ _ _ _ _ _ => (ag.response? .r).map fun r => .success r.ok
  | .writeDirect _ _ => (ag.response? .r).map fun r => .success r.ok
  | .writeSetReset _ _ => (ag.response? .r).map fun r => .success r.ok
  | .pinOf _ => (ag.response? .r).map fun r => .pin r.y r.z

/-- The result is a failed set: `OK = 0`, or an ILLEGAL response. -/
def SeqResult.failed : SeqResult → Bool
  | .success ok => !ok
  | .illegal => true
  | .bit _ => false
  | .value _ => false
  | .pin _ _ => false
  | .configured _ => false

/-- Leave a result with the agent, its sequence ended. After a failed step of a `configure` the rest is
skipped or not: `stop` says which (R109, both readings admitted). -/
def Agent.finish (ag : Agent) (res : Option SeqResult) (stop : Bool) : Agent :=
  let failed := match res with | some x => SeqResult.failed x | none => false
  { ag with
    running := none
    results := ag.results ++ res.toList
    conf := match ag.conf with
      | none => none
      | some c => some { steps := if failed && stop then [] else c.steps, ok := c.ok && !failed } }

/-- End the sequence in progress of an agent with a result, drawing whether a failed `configure` stops. -/
def endSeq (id : AgentId) (res : Option SeqResult) (s : State) : State :=
  { s.mapAgent id fun ag => ag.finish res (Config.freeChoice s.draws) with draws := s.draws + 1 }

/-- After one line of a sequence has run: an ILLEGAL response ends the sequence with that outcome (section 5
of spec/20_memory.md), the last line ends it with its result, any other line leaves the rest. -/
def afterLine (id : AgentId) (q : AccessSeq) (l : Line) (rest : List Line) (s : State) : State :=
  if !Line.isBus l && s.out.ill then endSeq id (some .illegal) s
  else
    match rest with
    | [] => endSeq id (match s.agent? id with | some ag => seqResult ag q | none => none) s
    | l' :: ls => s.mapAgent id fun ag => { ag with running := some ⟨q, l' :: ls⟩ }

end Sys2Proof.Machine
end

