-- ==== Sys2Proof/Machine/Dispatch.lean ====
section
/-! DEFINITION. One arm per instruction (spec/30_encoding.md R58), each one call of its meaning. -/

namespace Sys2Proof.Machine

def exec (i : Instr) (s : State) : Host.Outcome State Fault Refusal :=
  match i with
  -- translator
  | .toalias b => Sys2Proof.Machine.execToalias b s
  | .fromalias => Sys2Proof.Machine.execFromalias s
  | .pinlookup => Sys2Proof.Machine.execPinlookup s
  -- field-packing datapath
  | .fget w sh => Sys2Proof.Machine.execFget w sh s
  | .fset w e sh => Sys2Proof.Machine.execFset w e sh s
  | .bitwr b => Sys2Proof.Machine.execBitwr b s
  | .srenc p => Sys2Proof.Machine.execSrenc p s

end Sys2Proof.Machine
end

