-- ==== Sys2Proof/Machine/Agents.lean ====
section
/-! DEFINITION. One turn of one agent (spec/20_memory.md R41 to R44): it presents one request, or makes one
bus event, or goes on to the next item of its program. -/

namespace Sys2Proof.Machine

/-- Present the request on the input ports: an ILLEGAL control word has the ILLEGAL response (R93), any other
is its instruction's. Log entry 18. -/
def present (s : State) : Host.Outcome State Fault Refusal :=
  match decode s.inp.ctrl with
  | .error _ => .next { s with out := Response.illegal }
  | .ok i => exec i s

/-- Name the response on the output ports, for the agent that asked (R69). -/
def nameResponse (id : AgentId) (dst : Name) (s : State) : State :=
  s.mapAgent id fun ag => ag.bindResponse dst s.out

/-- Run one line of an agent's program (R69). A line that reads a name that is not bound uses up a draw for what
the name denotes (log entry 12). -/
def runLine (id : AgentId) (ag : Agent) (l : Line) (s : State) : Host.Outcome State Fault Refusal :=
  match l with
  | .request dst ctrl a d v m =>
    match present { s.drawIf (Line.unbound ag l) with inp := requestOf s.cfg s.draws ag ctrl a d v m } with
    | .next t => .next (nameResponse id dst t)
    | .fault f => .fault f
    | .refused r => .refused r
  | .ld dst size addr =>
    match memRead (s.drawIf (Line.unbound ag l)) size (Operand.eval s.cfg s.draws ag addr) with
    | .error f => .fault f
    | .ok (w, t) => .next (t.mapAgent id fun ag => ag.bindWord dst w)
  | .st size addr data =>
    match memWrite (s.drawIf (Line.unbound ag l)) size (Operand.eval s.cfg s.draws ag addr)
        (Operand.eval s.cfg s.draws ag data) with
    | .error f => .fault f
    | .ok t => .next t
  | .stWe n =>
    if (ag.responseOf s.draws n).we then
      match memWrite (s.drawIf (Line.unbound ag l)) 4 (ag.responseOf s.draws n).y (ag.responseOf s.draws n).wd with
      | .error f => .fault f
      | .ok t => .next t
    else .next (s.drawIf (Line.unbound ag l))

/-- What a line that faults leaves: its agent stopped at the line, for good (R94, R96, R99), and nothing written.
A request was presented, and its output ports hold unspecified values (R78; log entry 26). -/
def faulted (id : AgentId) (ag : Agent) (l : Line) (f : Fault) (s : State) : State :=
  match l with
  | .request _ ctrl a d v m =>
    State.stop { s with inp := requestOf s.cfg s.draws ag ctrl a d v m, out := freeResponse s.draws 0
                        draws := s.draws + 1 } id f
  | .ld _ _ _ => (s.drawIf (Line.unbound ag l)).stop id f
  | .st _ _ _ => (s.drawIf (Line.unbound ag l)).stop id f
  | .stWe _ => (s.drawIf (Line.unbound ag l)).stop id f

/-- Take up an access sequence: its lines are run in the turns that follow. -/
def startSeq (P : Params) (q : AccessSeq) (ag : Agent) : Agent := { ag with running := some ⟨q, expand P q⟩ }

/-- One turn of an agent that exists: the next line of the sequence in progress; else the next step of the
`configure` in progress; else the next item of its program; else nothing. -/
def agentTurn (id : AgentId) (ag : Agent) (s : State) : Host.Outcome State Fault Refusal :=
  match ag.running with
  | some ⟨q, l :: ls⟩ =>
    match runLine id ag l s with
    | .next t => .next (afterLine id q l ls t)
    | .fault f => .next (faulted id ag l f s)
    | .refused r => .refused r
  | some ⟨_, []⟩ => .next (s.setAgent id { ag with running := none })
  | none =>
    match ag.conf with
    | some ⟨q :: qs, ok⟩ => .next (s.setAgent id (startSeq s.cfg q { ag with conf := some ⟨qs, ok⟩ }))
    | some ⟨[], ok⟩ =>
      .next (s.setAgent id { ag with conf := none, results := ag.results ++ [.configured ok] })
    | none =>
      match ag.code with
      | [] => .next s
      | .line l :: rest =>
        match runLine id ag l (s.setAgent id { ag with code := rest }) with
        | .next t => .next t
        | .fault f => .next (faulted id ag l f s)
        | .refused r => .refused r
      | .seq q :: rest => .next (s.setAgent id (startSeq s.cfg q { ag with code := rest }))
      | .configure c :: rest =>
        .next (s.setAgent id { ag with code := rest, conf := some ⟨configureSteps s.cfg c, true⟩ })

/-- One turn of the agent the schedule names (R43); an id no agent bears takes none, and an agent that has stopped
in a fault takes none ever again (R94, R99). -/
def turn (id : AgentId) (s : State) : Host.Outcome State Fault Refusal :=
  match s.agent? id with
  | none => .next s
  | some ag => if ag.stopped.isSome then .next s else agentTurn id ag s

/-- One step of the machine (log entries 7, 8, 19). An ill-formed program is refused before it takes a step (R68). The schedule's
head takes the next turn; when the schedule is empty no agent moves. -/
def machineStep (s : State) : Host.Outcome State Fault Refusal :=
  match checkProgram s with
  | some c => .refused (.illFormedProgram c)
  | none =>
    match s.sched with
    | [] => .next s
    | id :: rest => turn id { s with sched := rest }

/-- An address operand that meets the preconditions of an instruction: the first region word for `TOALIAS`
and `BITWR`, the first alias word for `FROMALIAS`, the alias of input-data bit 0 of the first GPIO block for
`PINLOOKUP`. Used to load a request whose own address operand does not (`loadRequest`). -/
def sampleAddress (P : Params) : Instr → Addr
  | .toalias _ => BitVec.ofNat 32 P.rb
  | .fromalias => BitVec.ofNat 32 P.ab
  | .pinlookup => aliasOf P (regAddr P (BitVec.ofNat 32 (P.gpioBases.headD P.rb)) .idr) 0
  | .fget _ _ => 0
  | .fset _ _ _ => 0
  | .bitwr _ => BitVec.ofNat 32 P.rb
  | .srenc _ => 0

/-- The line that presents a request, named `$0`, with literal operands. -/
def requestLine (ctrl : Half) (q : Request) : Line :=
  .request (.user 0) ctrl (.lit q.a) (.lit q.d) (.lit q.v) (.lit q.m)

/-- The operands that come with a loaded control word: those on the ports, but where they violate the
instruction's precondition, or R68's checks, an address operand that meets them (log entry 10). -/
def loadOperands (P : Params) (ctrl : Half) (q : Request) : Request :=
  match decode ctrl with
  | .error _ => { q with ctrl := ctrl }
  | .ok i =>
    match respond P i q, checkLine P (namesOf P {}) (requestLine ctrl q) with
    | .ok _, none => { q with ctrl := ctrl }
    | _, _ => { q with ctrl := ctrl, a := sampleAddress P i }

/-- Load one request as the foreground's whole program, afresh, and give it the next turn. -/
def loadRequest (s : State) (ctrl : Half) : State :=
  let q := loadOperands s.cfg ctrl s.inp
  { s with
    foreground :=
      { s.foreground with
        running := none
        conf := none
        stopped := none
        code := [.line (requestLine ctrl q)] }
    sched := .foreground :: s.sched }

end Sys2Proof.Machine
end

