-- ==== Sys2Proof/Machine/Step.lean ====
section
/-! DEFINITION. The step, and how an instruction is placed where the step takes its next one. -/

namespace Sys2Proof.Machine

/-- One step: one turn of the agent at the schedule's head (spec/20_memory.md R43). -/
def step (s : State) : Host.Outcome State Fault Refusal := machineStep s

/-- BBFP fetches nothing (R46): an agent presents its next request. The control word `w` is loaded as the
one remaining line of the foreground's program, and the foreground has the next turn. -/
def State.withFetchWord (s : State) (nbits w : Nat) : State :=
  loadRequest s (BitVec.ofNat 16 (w % 2 ^ nbits))

end Sys2Proof.Machine
end

