-- ==== Sys2Proof/Machine/Writes.lean ====
section
/-! DEFINITION. What an agent has still to write, read off its program: the register words it writes, the words it
sets by a multi-bit set, and the output pins it drives. The usage rules of spec/70_reset_and_hazards.md (R107, R111)
are about these. An address that the text does not give, `none`, may be any. Log entry 27. -/

namespace Sys2Proof.Machine

/-! ### Access sequences -/

/-- The register word a sequence writes (R49 to R52); for the set/reset sequence, the output-data word of
its block (R36). -/
def seqWord (P : Params) : AccessSeq → Option Addr
  | .readBit _ _ => none
  | .readInput _ => none
  | .readOutput _ => none
  | .get _ _ _ => none
  | .setBit reg _ _ => some reg
  | .set _ _ reg _ _ _ => some reg
  | .writeDirect h _ => some (regAddr P h.base .odr)
  | .writeSetReset h _ => some (regAddr P h.base .odr)
  | .pinOf _ => none

/-- The register word of a multi-bit set, the sequence of two events (R50). -/
def multiBitWord : AccessSeq → Option Addr
  | .set _ _ reg _ _ _ => some reg
  | .readBit _ _ => none
  | .readInput _ => none
  | .readOutput _ => none
  | .get _ _ _ => none
  | .setBit _ _ _ => none
  | .writeDirect _ _ => none
  | .writeSetReset _ _ => none
  | .pinOf _ => none

/-- The access sequences an agent has begun or will run. -/
def Agent.sequences (P : Params) (ag : Agent) : List AccessSeq :=
  (ag.running.toList.map (·.seq)) ++ (ag.conf.toList.flatMap (·.steps)) ++
    ag.code.flatMap fun
      | .seq q => [q]
      | .configure c => configureSteps P c
      | .line _ => []

/-! ### Bare lines

A store's address, and whether a conditional store is asked for, depend on the response a line names: it is bound
already, or by a line of the program before it. -/

/-- What is known of the store that a response asks for. -/
structure Writer where
  /-- `Y`, where it is known. -/
  y    : Option Addr
  /-- `WE` may be 1. -/
  we   : Bool
  /-- The pins whose set or reset bit `WD` may hold. -/
  pins : List Nat
  deriving DecidableEq, Repr

/-- What is known of the names. -/
abbrev Writers := Name → Writer

/-- The pins of which a set/reset word holds a bit (R36). -/
def pinsOf (w : Word) : List Nat := (List.range 16).filter fun p => w.getLsbD p || w.getLsbD (p + 16)

/-- A response that is there. -/
def Writer.ofResponse (x : Response) : Writer := ⟨some x.y, x.we, pinsOf x.wd⟩

/-- Nothing is known. -/
def Writer.unknown : Writer := ⟨none, true, List.range 16⟩

/-- The operation may answer `WE = 1` (R84). -/
def Instr.mayWrite : Instr → Bool
  | .toalias _ => false
  | .fromalias => false
  | .pinlookup => false
  | .fget _ _ => false
  | .fset _ _ _ => true
  | .bitwr _ => true
  | .srenc _ => true

/-- The response of a request whose `A` is known or not (R78: none where a precondition is violated). -/
def Writer.ofRequest (P : Params) (ctrl : Half) (a : Option Addr) : Writer :=
  match decode ctrl with
  | .error _ => .ofResponse .illegal
  | .ok i =>
    { y := a.bind fun a => match respond P i { a := a } with | .ok x => some x.y | .error _ => none
      we := Instr.mayWrite i
      pins := match i with | .srenc p => [p.toNat] | _ => List.range 16 }

/-- The names an agent has bound. A sequence or a `configure` in progress will bind `$r` again. -/
def boundWriters (ag : Agent) : Writers := fun n =>
  if n = .r ∧ (ag.running.isSome ∨ ag.conf.isSome) then .unknown
  else match ag.response? n with
    | some x => .ofResponse x
    | none => .unknown

/-- A 32-bit operand as an address, where the program's text gives it. -/
def Operand.address? (P : Params) (env : Writers) : Operand → Option Addr
  | .lit x => some x
  | .y n => (env n).y
  | .wd _ => none
  | .word _ => none
  | .narrow (.lit x) => some (zext32 x)
  | .narrow _ => none
  | .regOf n r => (env n).y.map fun y => y + BitVec.ofNat 32 (P.off r)

/-- The names after an item. A sequence binds `$r` (R47 to R53), to a response that is not followed. -/
def Writers.after (P : Params) (env : Writers) : Item → Writers
  | .line (.request dst ctrl a _ _ _) => bindName dst (.ofRequest P ctrl (Operand.address? P env a)) env
  | .line (.ld _ _ _) => env
  | .line (.st _ _ _) => env
  | .line (.stWe _) => env
  | .seq _ => bindName .r .unknown env
  | .configure _ => bindName .r .unknown env

/-- The address a line stores to, if it makes a store (R69). -/
def Line.stores (P : Params) (env : Writers) : Line → List (Option Addr)
  | .request _ _ _ _ _ _ => []
  | .ld _ _ _ => []
  | .st _ addr _ => [Operand.address? P env addr]
  | .stWe n => if (env n).we then [(env n).y] else []

/-- The register word a store to an address changes: that of an alias is the word it is an alias of (R34), that of a
set/reset register the output-data word of its block (R36). -/
def wordOf (P : Params) (y : Addr) : Addr :=
  if inWindow P y then aliasReg P y
  else
    match locate P y with
    | some (base, .bsrr) => regAddr P (BitVec.ofNat 32 base) .odr
    | _ => y

/-- A store to the address replaces a register word whole: it is neither an alias nor a set/reset register. -/
def replacesWord (P : Params) (y : Addr) : Bool := wordAligned y && wordOf P y == y

/-- The store is a multi-bit set's second event (R50), if it goes to a register word: it is asked for by a response,
or stores the `WD` of one. -/
def Line.storesResponse : Line → Bool
  | .request _ _ _ _ _ _ => false
  | .ld _ _ _ => false
  | .st _ _ (.wd _) => true
  | .st _ _ _ => false
  | .stWe _ => true

/-- The register words a line writes. -/
def Line.writes (P : Params) (env : Writers) (l : Line) : List (Option Addr) :=
  (Line.stores P env l).map fun o => o.map (wordOf P)

/-- The register word that a line sets as the last of a multi-bit set's lines (R50). -/
def Line.sets (P : Params) (env : Writers) (l : Line) : List (Option Addr) :=
  if Line.storesResponse l then (Line.stores P env l).filter fun o => o.all (replacesWord P) else []

/-- What the bare lines of a program do, by what each does where it stands. -/
def lineEffects {α : Type} (P : Params) (f : Writers → Line → List α) : Writers → List Item → List α
  | _, [] => []
  | env, .line l :: is => f env l ++ lineEffects P f (env.after P (.line l)) is
  | env, .seq q :: is => lineEffects P f (env.after P (.seq q)) is
  | env, .configure c :: is => lineEffects P f (env.after P (.configure c)) is

/-! ### Agents -/

/-- The register words an agent has still to write, a sequence it has begun included. -/
def Agent.writes (P : Params) (ag : Agent) : List (Option Addr) :=
  ((ag.sequences P).filterMap (seqWord P)).map some ++ lineEffects P (Line.writes P) (boundWriters ag) ag.code

/-- The register words that an agent has still to complete a multi-bit set of. -/
def Agent.sets (P : Params) (ag : Agent) : List (Option Addr) :=
  ((ag.sequences P).filterMap multiBitWord).map some ++ lineEffects P (Line.sets P) (boundWriters ag) ag.code

/-- The two may be one address. -/
abbrev mayCoincide (o o' : Option Addr) : Prop := o = none ∨ o' = none ∨ o = o'

/-- An address of one list may be one of the other. -/
def mayMeet (l l' : List (Option Addr)) : Bool := l.any fun o => l'.any fun o' => decide (mayCoincide o o')

/-! ### Output pins -/

/-- Output pins driven: the output-data word, the pins, and whether by the set/reset protocol. -/
structure Drive where
  word     : Option Addr
  pins     : List Nat
  setReset : Bool
  deriving DecidableEq, Repr

/-- The pins a store to an address drives, where its data, as a set/reset word, is for `pins`. -/
def storeDrives (P : Params) (pins : List Nat) : Option Addr → List Drive
  | none => [⟨none, List.range 16, false⟩]
  | some y =>
    if inWindow P y then
      match locate P (aliasReg P y) with
      | some (_, .odr) => [⟨some (aliasReg P y), [(aliasBit P y).toNat], false⟩]
      | _ => []
    else
      match locate P y with
      | some (base, .bsrr) => [⟨some (regAddr P (BitVec.ofNat 32 base) .odr), pins, true⟩]
      | some (_, .odr) => [⟨some y, List.range 16, false⟩]
      | _ => []

/-- The pins that a store of a line, as a set/reset word, may be for. -/
def Line.storePins (env : Writers) : Line → List Nat
  | .request _ _ _ _ _ _ => []
  | .ld _ _ _ => []
  | .st _ _ (.lit x) => pinsOf x
  | .st _ _ (.wd n) => (env n).pins
  | .st _ _ _ => List.range 16
  | .stWe n => (env n).pins

/-- The output pins a line drives. -/
def Line.drives (P : Params) (env : Writers) (l : Line) : List Drive :=
  (Line.stores P env l).flatMap (storeDrives P (Line.storePins env l))

/-- The output pins a sequence drives (R49, R51, R52). -/
def seqDrives (P : Params) : AccessSeq → List Drive
  | .writeDirect h _ => [⟨some (regAddr P h.base .odr), [h.pin.val], false⟩]
  | .writeSetReset h _ => [⟨some (regAddr P h.base .odr), [h.pin.val], true⟩]
  | .setBit reg b _ =>
    match locate P reg with
    | some (_, .odr) => [⟨some reg, [b.toNat], false⟩]
    | _ => []
  | .set _ _ _ _ _ _ => []
  | .readBit _ _ => []
  | .readInput _ => []
  | .readOutput _ => []
  | .get _ _ _ => []
  | .pinOf _ => []

/-- The output pins an agent has still to drive. -/
def Agent.drives (P : Params) (ag : Agent) : List Drive :=
  (ag.sequences P).flatMap (seqDrives P) ++ lineEffects P (Line.drives P) (boundWriters ag) ag.code

/-- Two drives have a pin in common. -/
abbrev Drive.shares (d d' : Drive) : Prop := mayCoincide d.word d'.word ∧ ∃ p ∈ d.pins, p ∈ d'.pins

end Sys2Proof.Machine
end

