-- ==== Sys2Proof/Safety.lean ====
section
/-! DEFINITION. What counts as a good state, in the terms claims use: the invariant, a completed program,
and the two usage rules a model may check statically (spec/70_reset_and_hazards.md R107, R111). -/

namespace Sys2Proof.Machine

/-- An agent with nothing left to do. -/
abbrev Agent.idle (ag : Agent) : Prop := ag.code = [] ∧ ag.running = none ∧ ag.conf = none

/-- Every agent's program has completed. A state in which an agent has stopped in a fault is never final (R94). -/
abbrev State.final (s : State) : Prop := ∀ ag ∈ s.agents, ag.idle ∧ ag.stopped = none

/-- What an agent holds inside a sequence, with `n` lines of it left: the names the rest reads are bound, and
the write to come, if it is asked for, goes where the sequence says (R47 to R52). -/
def Agent.holds (P : Params) (ag : Agent) (q : AccessSeq) (n : Nat) : Bool :=
  match q with
  | .readBit reg b => n != 1 || (ag.response? .r).any fun x => decide (x.y = aliasOf P reg b)
  | .readInput _ => true
  | .readOutput _ => true
  | .get _ _ _ => n != 1 || (ag.word? .t).isSome
  | .setBit reg b _ => n != 1 || (ag.response? .r).any fun x => !x.we || decide (x.y = aliasOf P reg b)
  | .set _ _ reg _ _ _ =>
    (n != 2 || (ag.word? .t).isSome) && (n != 1 || (ag.response? .r).any fun x => !x.we || decide (x.y = reg))
  | .writeDirect h _ =>
    n != 1 || (ag.response? .r).any fun x =>
      !x.we || decide (x.y = aliasOf P (regAddr P h.base .odr) (BitVec.ofNat 5 h.pin.val))
  | .writeSetReset h _ =>
    n != 1 || (ag.response? .r).any fun x =>
      !x.we || (decide (x.y = regAddr P h.base .bsrr) && !bothBits x.wd)
  | .pinOf _ => true

/-- The sequence in progress, if any: it is well-formed, it has lines left, they are the last lines of its
expansion (R70), and the agent holds what they need. -/
abbrev Agent.midSequence (P : Params) (ag : Agent) : Prop :=
  ∀ run ∈ ag.running, checkSeq P run.seq = none ∧ run.lines ≠ [] ∧ run.lines <:+ expand P run.seq ∧
    ag.holds P run.seq run.lines.length = true

/-- The invariant: the parameters meet R4's constraints, the image is canonical, the program is well-formed
(R68), and every agent is between sequences or inside one. -/
abbrev State.Inv (s : State) : Prop :=
  s.cfg.Valid ∧ Memory.wf s.img ∧ checkProgram s = none ∧ ∀ ag ∈ s.agents, ag.midSequence s.cfg

/-- The agent's program is access sequences alone: it holds no bare line. -/
abbrev Agent.sequencesOnly (ag : Agent) : Prop :=
  ∀ i ∈ ag.code, match i with
    | .seq _ => True
    | .configure _ => True
    | .line _ => False

/-! ### The usage rules -/

/-- The agents other than the one of an id. -/
def State.others (s : State) : AgentId → List Agent
  | .foreground => s.handlers ++ s.dmas
  | .handler n => s.foreground :: (s.handlers.eraseIdx n ++ s.dmas)
  | .dma n => s.foreground :: (s.handlers ++ s.dmas.eraseIdx n)

/-- The boot rule (R107; log entries 19 and 22), of a state in which the agent `id`, a handler or an engine, is enabled:
no multi-bit set of a register word that it writes is still to complete, whoever's set it is. Access sequences, the
steps of a `configure` and bare lines count alike; log entry 27 says how the words of bare lines are read off. -/
abbrev State.bootRule (s : State) (id : AgentId) : Prop :=
  ∀ x ∈ (s.agent? id).toList, ∀ y ∈ s.agents, mayMeet (y.sets s.cfg) (x.writes s.cfg) = false

/-- The rule on shared outputs (R111; log entry 22): a pin driven both by the interrupt handler `n` and by another agent
is driven by set/reset only. What counts as driving a pin is log entry 27. -/
abbrev State.sharedOutputRule (s : State) (n : Nat) : Prop :=
  ∀ x ∈ s.handlers[n]?.toList, ∀ y ∈ s.others (.handler n),
    ∀ d ∈ x.drives s.cfg, ∀ d' ∈ y.drives s.cfg, d.shares d' → d.setReset = true ∧ d'.setReset = true

end Sys2Proof.Machine
end

