-- ==== Sys2Proof/Certificates/Slice0/Obligations.lean ====
section
/-! DEFINITION. The statements about the model, from the numbered rules of spec/. Each is about every state,
whatever the parameters, the image and the free values are. The premise `RangesOk` is R4's constraints on the
parameters; `Valid` is these and what R21 presupposes of the register offsets (log entry 5); `State.Inv` holds
`Valid`. -/

open Sys2Proof Sys2Proof.Machine

/-! ### The seven operations -/

/-- R71, whole: the encoding `000bbbbbxxxx0000`, the two preconditions in their order, and the response. -/
def Obligations.ToaliasMapsBitToItsAlias : Prop :=
  ∀ (c : Half) (s : State), c.extractLsb' 0 4 = 0 → c.extractLsb' 13 3 = 0 →
    decode c = .ok (.toalias (c.extractLsb' 8 5)) ∧
    (¬ (s.cfg.rb ≤ s.inp.a.toNat ∧ s.inp.a.toNat < s.cfg.rb + s.cfg.rs) →
      exec (.toalias (c.extractLsb' 8 5)) s = .fault (.preconditionViolation .toalias .addrOutsideRegion)) ∧
    (s.cfg.rb ≤ s.inp.a.toNat → s.inp.a.toNat < s.cfg.rb + s.cfg.rs → s.inp.a.toNat % 4 ≠ 0 →
      exec (.toalias (c.extractLsb' 8 5)) s = .fault (.preconditionViolation .toalias .addrMisaligned)) ∧
    (s.cfg.rb ≤ s.inp.a.toNat → s.inp.a.toNat < s.cfg.rb + s.cfg.rs → s.inp.a.toNat % 4 = 0 →
      s.cfg.RangesOk →
      ∃ y : Addr, y.toNat = s.cfg.ab + (s.inp.a.toNat - s.cfg.rb) * 32 + (c.extractLsb' 8 5).toNat * 4 ∧
        y.toNat % 4 = 0 ∧ s.cfg.ab ≤ y.toNat ∧ y.toNat < s.cfg.ab + 32 * s.cfg.rs ∧
        exec (.toalias (c.extractLsb' 8 5)) s = .next { s with out := { y := y, ok := true } })

/-- R72, whole. -/
def Obligations.FromaliasRecoversRegisterAndBit : Prop :=
  ∀ (c : Half) (s : State), c.extractLsb' 0 4 = 1 → c.extractLsb' 13 3 = 0 →
    decode c = .ok .fromalias ∧
    (¬ (s.cfg.ab ≤ s.inp.a.toNat ∧ s.inp.a.toNat < s.cfg.ab + 32 * s.cfg.rs) →
      exec .fromalias s = .fault (.preconditionViolation .fromalias .aliasOutsideWindow)) ∧
    (s.cfg.ab ≤ s.inp.a.toNat → s.inp.a.toNat < s.cfg.ab + 32 * s.cfg.rs → s.inp.a.toNat % 4 ≠ 0 →
      exec .fromalias s = .fault (.preconditionViolation .fromalias .aliasMisaligned)) ∧
    (s.cfg.ab ≤ s.inp.a.toNat → s.inp.a.toNat < s.cfg.ab + 32 * s.cfg.rs → s.inp.a.toNat % 4 = 0 →
      s.cfg.RangesOk →
      ∃ (y : Addr) (z : BitVec 5), y.toNat = s.cfg.rb + (s.inp.a.toNat - s.cfg.ab) / 128 * 4 ∧
        z.toNat = (s.inp.a.toNat - s.cfg.ab) / 4 % 32 ∧
        y.toNat % 4 = 0 ∧ s.cfg.rb ≤ y.toNat ∧ y.toNat < s.cfg.rb + s.cfg.rs ∧
        exec .fromalias s = .next { s with out := { y := y, z := z, ok := true } })

/-- R73: the four preconditions in their order, and the response. The register is recovered as R72 does, and
masked down to the block size. -/
def Obligations.PinlookupRecoversBlockAndPin : Prop :=
  ∀ (c : Half) (s : State) (reg bit : Nat), c.extractLsb' 0 4 = 2 → c.extractLsb' 13 3 = 0 → s.cfg.RangesOk →
    reg = s.cfg.rb + (s.inp.a.toNat - s.cfg.ab) / 128 * 4 → bit = (s.inp.a.toNat - s.cfg.ab) / 4 % 32 →
    decode c = .ok .pinlookup ∧
    (¬ (s.cfg.ab ≤ s.inp.a.toNat ∧ s.inp.a.toNat < s.cfg.ab + 32 * s.cfg.rs) →
      exec .pinlookup s = .fault (.preconditionViolation .pinlookup .aliasOutsideWindow)) ∧
    (s.cfg.ab ≤ s.inp.a.toNat → s.inp.a.toNat < s.cfg.ab + 32 * s.cfg.rs →
      (s.inp.a.toNat % 4 ≠ 0 →
        exec .pinlookup s = .fault (.preconditionViolation .pinlookup .aliasMisaligned)) ∧
      (s.inp.a.toNat % 4 = 0 → reg % s.cfg.bs ≠ s.cfg.off .idr → reg % s.cfg.bs ≠ s.cfg.off .odr →
        exec .pinlookup s = .fault (.preconditionViolation .pinlookup .notDataArray)) ∧
      (s.inp.a.toNat % 4 = 0 → (reg % s.cfg.bs = s.cfg.off .idr ∨ reg % s.cfg.bs = s.cfg.off .odr) →
        16 ≤ bit → exec .pinlookup s = .fault (.preconditionViolation .pinlookup .pinOutOfRange)) ∧
      (s.inp.a.toNat % 4 = 0 → (reg % s.cfg.bs = s.cfg.off .idr ∨ reg % s.cfg.bs = s.cfg.off .odr) →
        bit < 16 → exec .pinlookup s = .next { s with
          out := { y := BitVec.ofNat 32 (reg - reg % s.cfg.bs), z := BitVec.ofNat 5 bit, ok := true } }))

/-- R80, whole: `RV` is the field shifted down and masked to its width, zero-extended. -/
def Obligations.FgetExtractsTheField : Prop :=
  ∀ (c : Half) (w : Width) (s : State), c.extractLsb' 0 4 = 3 → c.extractLsb' 13 3 = 0 →
    c.extractLsb' 4 3 = w.code →
    decode c = .ok (.fget w (c.extractLsb' 8 5)) ∧
    (32 < (c.extractLsb' 8 5).toNat + w.bits →
      exec (.fget w (c.extractLsb' 8 5)) s = .fault (.preconditionViolation .fget .fieldOutOfWord)) ∧
    ((c.extractLsb' 8 5).toNat + w.bits ≤ 32 →
      exec (.fget w (c.extractLsb' 8 5)) s = .next { s with out :=
        { rv := BitVec.ofNat 16 (s.inp.d.toNat / 2 ^ (c.extractLsb' 8 5).toNat % 2 ^ w.bits), ok := true } })

/-- R81, whole: a value that fits (and, with `E = 1`, is marked in `M`) replaces the field's bits and no
other; any other value is rejected with the word as it was. -/
def Obligations.FsetInsertsACheckedField : Prop :=
  ∀ (c : Half) (w : Width) (s : State), c.extractLsb' 0 4 = 4 → c.extractLsb' 13 3 = 0 →
    c.extractLsb' 4 3 = w.code → (c.getLsbD 7 = true → w.bits < 15) →
    decode c = .ok (.fset w (c.getLsbD 7) (c.extractLsb' 8 5)) ∧
    (32 < (c.extractLsb' 8 5).toNat + w.bits →
      exec (.fset w (c.getLsbD 7) (c.extractLsb' 8 5)) s =
        .fault (.preconditionViolation .fset .fieldOutOfWord)) ∧
    ((c.extractLsb' 8 5).toNat + w.bits ≤ 32 →
      (s.inp.v.toNat < 2 ^ w.bits → (c.getLsbD 7 = true → s.inp.m.getLsbD s.inp.v.toNat = true) →
        ∃ wd : Word,
          (∀ k, k < 32 → wd.getLsbD k =
            if (c.extractLsb' 8 5).toNat ≤ k ∧ k < (c.extractLsb' 8 5).toNat + w.bits
            then s.inp.v.getLsbD (k - (c.extractLsb' 8 5).toNat) else s.inp.d.getLsbD k) ∧
          exec (.fset w (c.getLsbD 7) (c.extractLsb' 8 5)) s =
            .next { s with out := { y := s.inp.a, wd := wd, ok := true, we := true } }) ∧
      (¬ (s.inp.v.toNat < 2 ^ w.bits ∧ (c.getLsbD 7 = true → s.inp.m.getLsbD s.inp.v.toNat = true)) →
        exec (.fset w (c.getLsbD 7) (c.extractLsb' 8 5)) s =
          .next { s with out := { y := s.inp.a, wd := s.inp.d } }))

/-- R82, whole. -/
def Obligations.BitwrAsksForOneAliasStore : Prop :=
  ∀ (c : Half) (s : State), c.extractLsb' 0 4 = 5 → c.extractLsb' 13 3 = 0 →
    decode c = .ok (.bitwr (c.extractLsb' 8 5)) ∧
    (¬ (s.cfg.rb ≤ s.inp.a.toNat ∧ s.inp.a.toNat < s.cfg.rb + s.cfg.rs) →
      exec (.bitwr (c.extractLsb' 8 5)) s = .fault (.preconditionViolation .bitwr .addrOutsideRegion)) ∧
    (s.cfg.rb ≤ s.inp.a.toNat → s.inp.a.toNat < s.cfg.rb + s.cfg.rs →
      (s.inp.a.toNat % 4 ≠ 0 →
        exec (.bitwr (c.extractLsb' 8 5)) s = .fault (.preconditionViolation .bitwr .addrMisaligned)) ∧
      (s.inp.a.toNat % 4 = 0 → s.cfg.RangesOk →
        ∃ y : Addr, y.toNat = s.cfg.ab + (s.inp.a.toNat - s.cfg.rb) * 32 + (c.extractLsb' 8 5).toNat * 4 ∧
          (s.inp.v.toNat ≤ 1 → exec (.bitwr (c.extractLsb' 8 5)) s = .next { s with
            out := { y := y, wd := BitVec.ofNat 32 s.inp.v.toNat, ok := true, we := true } }) ∧
          (1 < s.inp.v.toNat → exec (.bitwr (c.extractLsb' 8 5)) s = .next { s with out := { y := y } })))

/-- R83, whole: on success exactly one bit of `WD` is set, the set bit or the reset bit of the pin. -/
def Obligations.SrencEncodesOnePin : Prop :=
  ∀ (c : Half) (s : State), c.extractLsb' 0 4 = 6 → c.extractLsb' 13 3 = 0 →
    decode c = .ok (.srenc (c.extractLsb' 8 5)) ∧
    (16 ≤ (c.extractLsb' 8 5).toNat →
      exec (.srenc (c.extractLsb' 8 5)) s = .fault (.preconditionViolation .srenc .pinOutOfRange)) ∧
    ((c.extractLsb' 8 5).toNat < 16 →
      (s.inp.v.toNat = 1 → exec (.srenc (c.extractLsb' 8 5)) s = .next { s with
        out := { y := s.inp.a, wd := BitVec.ofNat 32 (2 ^ (c.extractLsb' 8 5).toNat), ok := true, we := true } }) ∧
      (s.inp.v.toNat = 0 → exec (.srenc (c.extractLsb' 8 5)) s = .next { s with
        out := { y := s.inp.a, wd := BitVec.ofNat 32 (2 ^ ((c.extractLsb' 8 5).toNat + 16)),
                 ok := true, we := true } }) ∧
      (2 ≤ s.inp.v.toNat → exec (.srenc (c.extractLsb' 8 5)) s = .next { s with out := { y := s.inp.a } }))

/-! ### Encoding -/

/-- Every well-formed instruction is what its control word decodes to. -/
def Obligations.DecodeInvertsEncode : Prop :=
  ∀ i : Instr, i.WellFormed → decode (encode i) = .ok i

/-- R63: ILLEGAL exactly on the four listed conditions, decided from `CTRL` alone, with R93's response. -/
def Obligations.IllegalExactlyWhenListed : Prop :=
  ∀ (P : Params) (q : Request),
    (bbfp P q = .illegal ↔ ∃ e, decode q.ctrl = .error e) ∧
    (∀ s : State, s.inp = q → (∃ e, decode q.ctrl = .error e) → present s = .next { s with
      out := { y := 0, z := 0, wd := 0, rv := 0, ok := false, we := false, ill := true } }) ∧
    ((∃ e, decode q.ctrl = .error e) ↔
      (q.ctrl.extractLsb' 13 3 ≠ 0 ∨
        7 ≤ (q.ctrl.extractLsb' 0 4).toNat ∨
        ((q.ctrl.extractLsb' 0 4 = 3 ∨ q.ctrl.extractLsb' 0 4 = 4) ∧ 5 ≤ (q.ctrl.extractLsb' 4 3).toNat) ∨
        (q.ctrl.extractLsb' 0 4 = 4 ∧ q.ctrl.getLsbD 7 = true ∧
          (q.ctrl.extractLsb' 4 3 = 3 ∨ q.ctrl.extractLsb' 4 3 = 4))))

/-- Which bits of the control word decoding depends on (R56, R64): all but those a pattern marks `x`. -/
def Obligations.DecodingDependsOnReadBitsAlone : Prop :=
  ∀ (c c' : Half) (i : Instr), decode c = .ok i →
    i.WellFormed ∧ (decode c' = .ok i ↔ c' &&& i.readMask = c &&& i.readMask)

/-- R64: no value of an operand an operation ignores changes its outcome. -/
def Obligations.IgnoredOperandsChangeNothing : Prop :=
  ∀ (P : Params) (q q' : Request) (i : Instr), decode q.ctrl = .ok i →
    q'.ctrl &&& i.readMask = q.ctrl &&& i.readMask →
    (match i with
      | .toalias _ => q'.a = q.a
      | .fromalias => q'.a = q.a
      | .pinlookup => q'.a = q.a
      | .fget _ _ => q'.d = q.d
      | .fset _ e _ => q'.a = q.a ∧ q'.d = q.d ∧ q'.v = q.v ∧ (e = true → q'.m = q.m)
      | .bitwr _ => q'.a = q.a ∧ q'.v = q.v
      | .srenc _ => q'.a = q.a ∧ q'.v = q.v) →
    bbfp P q' = bbfp P q

/-- Control words written out from R56's layout and R58's and R59's codes decode to what they stand for. -/
def Obligations.WrittenOutWordsDecode : Prop :=
  decode 0b0000010100000000 = .ok (.toalias 5) ∧
  decode 0b0000000000000001 = .ok .fromalias ∧
  decode 0b0000000000000010 = .ok .pinlookup ∧
  decode 0b0001111000010011 = .ok (.fget .w2 30) ∧
  decode 0b0000100010100100 = .ok (.fset .w4 true 8) ∧
  decode 0b0000010100000101 = .ok (.bitwr 5) ∧
  decode 0b0000111100000110 = .ok (.srenc 15) ∧
  decode 0b0000000000000111 = .error .reservedOp ∧
  decode 0b0010010100000000 = .error .reservedBits ∧
  decode 0b0000000001010011 = .error .reservedWidth ∧
  decode 0b0000000011000100 = .error .enumWidth

/-- R59: the width codes and their masks, read by `FGET` and `FSET` alone; the codes that name no width make
those two ILLEGAL; any other operation ignores the code. -/
def Obligations.WidthCodesNameTheFiveWidths : Prop :=
  ∀ (c : Half) (names : Width → Prop), c.extractLsb' 13 3 = 0 →
    (∀ w, names w ↔
      (c.extractLsb' 4 3 = 0 ∧ w.bits = 1 ∧ mask w = 0x1) ∨ (c.extractLsb' 4 3 = 1 ∧ w.bits = 2 ∧ mask w = 0x3) ∨
      (c.extractLsb' 4 3 = 2 ∧ w.bits = 4 ∧ mask w = 0xF) ∨ (c.extractLsb' 4 3 = 3 ∧ w.bits = 15 ∧ mask w = 0x7FFF) ∨
      (c.extractLsb' 4 3 = 4 ∧ w.bits = 16 ∧ mask w = 0xFFFF)) →
    (c.extractLsb' 0 4 = 3 →
      (∀ w, decode c = .ok (.fget w (c.extractLsb' 8 5)) ↔ names w) ∧
      (5 ≤ (c.extractLsb' 4 3).toNat → decode c = .error .reservedWidth)) ∧
    (c.extractLsb' 0 4 = 4 →
      (c.getLsbD 7 = false → ∀ w, decode c = .ok (.fset w false (c.extractLsb' 8 5)) ↔ names w) ∧
      (c.getLsbD 7 = true → ∀ w, decode c = .ok (.fset w true (c.extractLsb' 8 5)) ↔ names w ∧ w.bits < 15) ∧
      (5 ≤ (c.extractLsb' 4 3).toNat → decode c = .error .reservedWidth)) ∧
    (c.extractLsb' 0 4 ≠ 3 → c.extractLsb' 0 4 ≠ 4 →
      ∀ c' : Half, c' &&& 0xFF8F = c &&& 0xFF8F → decode c' = decode c)

/-! ### Requests as a whole -/

/-- The outcome of a request is a function of the configuration and the request alone: two states that agree
on them give the same response, or the same fault (R13). -/
def Obligations.RequestsSeeNoState : Prop :=
  ∀ (i : Instr) (s s' : State), s'.cfg = s.cfg → s'.inp = s.inp →
    (∃ r, exec i s = .next { s with out := r } ∧ exec i s' = .next { s' with out := r }) ∨
    (∃ f, exec i s = .fault f ∧ exec i s' = .fault f)

/-- The frame of all seven instructions: nothing but the output ports changes, and every byte of memory reads
as before. -/
def Obligations.RequestsChangeOnlyTheOutputPorts : Prop :=
  ∀ (i : Instr) (s t : State), exec i s = .next t →
    t.cfg = s.cfg ∧ t.inp = s.inp ∧ t.img = s.img ∧ t.pinIn = s.pinIn ∧ t.draws = s.draws ∧
    t.foreground = s.foreground ∧ t.handlers = s.handlers ∧ t.dmas = s.dmas ∧ t.sched = s.sched ∧
    ∀ a : Nat, Memory.get t.img a = Memory.get s.img a

/-- R17: an output port that an operation's rule does not set holds 0. -/
def Obligations.UnsetOutputPortsHoldZero : Prop :=
  ∀ (i : Instr) (s t : State), exec i s = .next t → t.out.ill = false ∧
    match i with
    | .toalias _ => t.out.z = 0 ∧ t.out.wd = 0 ∧ t.out.rv = 0 ∧ t.out.we = false
    | .fromalias => t.out.wd = 0 ∧ t.out.rv = 0 ∧ t.out.we = false
    | .pinlookup => t.out.wd = 0 ∧ t.out.rv = 0 ∧ t.out.we = false
    | .fget _ _ => t.out.y = 0 ∧ t.out.z = 0 ∧ t.out.wd = 0 ∧ t.out.we = false
    | .fset _ _ _ => t.out.z = 0 ∧ t.out.rv = 0
    | .bitwr _ => t.out.z = 0 ∧ t.out.rv = 0
    | .srenc _ => t.out.z = 0 ∧ t.out.rv = 0

/-- R94's table: a meaning stops only on a violated precondition of its own operation, and the name it gives
is raised by that operation, under the listed condition. -/
def Obligations.FaultsNameTheViolatedPrecondition : Prop :=
  ∀ (i : Instr) (s : State), s.cfg.RangesOk →
    (∀ r, exec i s ≠ .refused r) ∧
    (∀ f, exec i s = .fault f → ∃ name, f = .preconditionViolation i.op name ∧
      match name with
      | .addrOutsideRegion => (i.op = .toalias ∨ i.op = .bitwr) ∧
          (s.inp.a.toNat < s.cfg.rb ∨ s.cfg.rb + s.cfg.rs ≤ s.inp.a.toNat)
      | .addrMisaligned => (i.op = .toalias ∨ i.op = .bitwr) ∧ s.inp.a.toNat % 4 ≠ 0
      | .aliasOutsideWindow => (i.op = .fromalias ∨ i.op = .pinlookup) ∧
          (s.inp.a.toNat < s.cfg.ab ∨ s.cfg.ab + 32 * s.cfg.rs ≤ s.inp.a.toNat)
      | .aliasMisaligned => (i.op = .fromalias ∨ i.op = .pinlookup) ∧ s.inp.a.toNat % 4 ≠ 0
      | .notDataArray => i.op = .pinlookup ∧
          (aliasReg s.cfg s.inp.a).toNat % s.cfg.bs ≠ s.cfg.off .idr ∧
          (aliasReg s.cfg s.inp.a).toNat % s.cfg.bs ≠ s.cfg.off .odr
      | .pinOutOfRange =>
          (i.op = .pinlookup ∧ 16 ≤ (aliasBit s.cfg s.inp.a).toNat) ∨
          (∃ p : BitVec 5, i = .srenc p ∧ 16 ≤ p.toNat)
      | .fieldOutOfWord =>
          (∃ w sh, i = .fget w sh ∧ 32 < sh.toNat + w.bits) ∨
          (∃ w e sh, i = .fset w e sh ∧ 32 < sh.toNat + w.bits))

/-- The machine's meanings and the total function of R13 agree on every request. -/
def Obligations.MeaningsAgreeWithBbfp : Prop :=
  ∀ (s : State) (i : Instr), decode s.inp.ctrl = .ok i →
    (∀ r, bbfp s.cfg s.inp = .response r ↔ exec i s = .next { s with out := r }) ∧
    (∀ op name, bbfp s.cfg s.inp = .pre op name ↔ exec i s = .fault (.preconditionViolation op name))

/-! ### The step -/

/-- A step runs the decoded instruction: when the agent at the schedule's head has a request as its next
line, the step puts the request on the input ports, runs `exec` of what its control word decodes to, and names
the response for the agent, its program one line on and the schedule one turn on. Where `exec` faults, the agent
stops at its line in that fault, the output ports hold unspecified values (log entry 26), and all else is as it
was. A line that reads a name that is not bound uses up a draw (log entry 12). -/
def Obligations.StepRunsTheDecodedRequest : Prop :=
  ∀ (s u : State) (id : AgentId) (rest : List AgentId) (ag : Agent) (dst : Name) (ctrl : Half)
    (a d : Operand) (v m : NarrowOperand) (code : List Item) (i : Instr),
    checkProgram s = none → s.sched = id :: rest → s.agent? id = some ag → ag.stopped = none →
    ag.running = none → ag.conf = none → ag.code = .line (.request dst ctrl a d v m) :: code →
    decode ctrl = .ok i →
    u = { ({ s with sched := rest }).setAgent id { ag with code := code } with
          inp := requestOf s.cfg s.draws ag ctrl a d v m
          draws := if Line.unbound ag (.request dst ctrl a d v m) then s.draws + 1 else s.draws } →
    (∀ t, exec i u = .next t →
      step s = .next (t.setAgent id (({ ag with code := code } : Agent).bindResponse dst t.out))) ∧
    (∀ f, exec i u = .fault f →
      step s = .next { ({ s with sched := rest }).setAgent id { ag with stopped := some f } with
        inp := requestOf s.cfg s.draws ag ctrl a d v m, out := freeResponse s.draws 0, draws := s.draws + 1 }) ∧
    (∀ r, exec i u ≠ .refused r)

/-- R93: an ILLEGAL request has the ILLEGAL response, a defined value, and nothing is written. That the machine answers
with it and the agent goes on, where R93 also admits a refusal at decode, is the model's choice, log entry 18; that the
line's name is bound to the response is R69's. -/
def Obligations.IllegalRequestsWriteNothing : Prop :=
  ∀ (s : State) (id : AgentId) (rest : List AgentId) (ag : Agent) (dst : Name) (ctrl : Half)
    (a d : Operand) (v m : NarrowOperand) (code : List Item) (e : IllegalReason),
    checkProgram s = none → s.sched = id :: rest → s.agent? id = some ag → ag.stopped = none →
    ag.running = none → ag.conf = none → ag.code = .line (.request dst ctrl a d v m) :: code →
    decode ctrl = .error e →
    ∃ t new, step s = .next t ∧ t.img = s.img ∧
      t.out = { y := 0, z := 0, wd := 0, rv := 0, ok := false, we := false, ill := true } ∧
      t.agent? id = some new ∧ new.stopped = none ∧ new.response? dst = some t.out

/-- R68, check by check: a program whose first access sequence fails WF1 to WF7, or asks a placeholder field's value
(R23), is refused under that name before it takes a step; and a program that holds a sequence that is refused on its
own, anywhere, is refused. Which name a get of a placeholder has, that a handle of an unlisted block fails WF1 and
that one of no output-data bit does, is log entry 17; that the check is made at each step of what is left is log
entry 24; that an enumerated field is one that `valid` lists is log entry 14. -/
def Obligations.IllFormedProgramsAreRefused : Prop :=
  (∀ (s : State) (q : AccessSeq) (code : List Item) (row : Nat → FieldRow → Addr → BitVec 5 → Width → Prop)
    (gets sets : Addr → BitVec 5 → Width → Prop) (slot : Reg → Addr → Prop) (refused : ProgramCheck → Prop),
    s.cfg.Valid → s.foreground.conf = none → s.foreground.code = .seq q :: code →
    (∀ base f reg sh w, row base f reg sh w ↔ base ∈ s.cfg.gpioBases ∧ f ∈ layout ∧ f.width = w ∧
      reg = BitVec.ofNat 32 (base + s.cfg.off f.reg) ∧ ∃ i < f.count, sh.toNat = f.first + f.stride * i) →
    (∀ reg sh w, gets reg sh w ↔ q = .get w reg sh ∨ (w = .w1 ∧ q = .readBit reg sh)) →
    (∀ reg sh w, sets reg sh w ↔ (∃ e v m, q = .set w e reg sh v m) ∨ (w = .w1 ∧ ∃ v, q = .setBit reg sh v)) →
    (∀ r h, slot r h ↔ ∃ base ∈ s.cfg.gpioBases, ∃ p < 16,
      h.toNat = s.cfg.ab + (base + s.cfg.off r - s.cfg.rb) * 32 + p * 4) →
    (∀ c, refused c ↔ step s = .refused (.illFormedProgram c)) →
    (∀ reg sh w, gets reg sh w ∨ sets reg sh w → (∀ base f, ¬ row base f reg sh w) → refused .wf1) ∧
    (∀ reg sh w base f, sets reg sh w → row base f reg sh w → (f.access = .readOnly ∨ f.access = .none) →
      refused .wf2) ∧
    (∀ reg sh w base f, gets reg sh w → row base f reg sh w → f.access = .writeOnly → refused .wf3) ∧
    (∀ reg sh w base f, gets reg sh w → row base f reg sh w → f.access = .none → refused .placeholderTarget) ∧
    (∀ reg sh e v m base f, q = .set .w1 e reg sh v m → row base f reg sh .w1 →
      (f.access = .readWrite ∨ f.access = .writeOnly) → refused .wf4) ∧
    (∀ h v, q = .writeDirect h v ∨ q = .writeSetReset h v →
      (h.base.toNat ∉ s.cfg.gpioBases → refused .wf1) ∧
      (h.base.toNat ∈ s.cfg.gpioBases → (h.role = .input ∨ h.role = .alternateInput) → refused .wf5)) ∧
    (∀ h, q = .readInput h → ¬ slot .idr h → refused .wf5) ∧
    (∀ h, q = .readOutput h → ¬ slot .odr h → refused .wf1) ∧
    (∀ h, q = .pinOf h → ¬ slot .idr h → ¬ slot .odr h → refused .wf6) ∧
    (∀ w reg sh v m base f, q = .set w true reg sh v m → w ≠ .w1 → row base f reg sh w →
      (f.access = .readWrite ∨ f.access = .writeOnly) → s.cfg.valid.lookup (f.reg, sh.toNat) ≠ some m →
      refused .wf7)) ∧
  (∀ (s : State) (ag : Agent) (q : AccessSeq) (c : ProgramCheck), ag ∈ s.agents →
    (.seq q ∈ ag.code ∨ (∃ cf, .configure cf ∈ ag.code ∧ q ∈ configureSteps s.cfg cf) ∨
      ∃ cf, ag.conf = some cf ∧ q ∈ cf.steps) →
    step { State.resetOf s.cfg with foreground := { code := [.seq q] } } = .refused (.illFormedProgram c) →
    ∃ c', step s = .refused (.illFormedProgram c'))

/-- R68's checks on a program that stands there as bare lines (log entry 11): the sequences are read off the lines.
`PINLOOKUP` of a handle not made by `TOALIAS` from IDR or ODR of a listed block and a pin below 16, be it that `TOALIAS`
has another address, one that violates its precondition included, or that another request names it (WF6), an `FSET` with
`E = 1` and another `M` than the field's valid set (WF7), an alias word read and a word read and then `FGET` of a
write-only, a placeholder or no field (WF3, R23, WF1; log entry 17), and a word written for `BITWR` or `FSET` to a
read-only or placeholder field (WF2), or by `FSET` to a width-1 field (WF4): each is refused before the program takes a
step (at each step, log entry 24). -/
def Obligations.IllFormedLinesAreRefused : Prop :=
  ∀ (s : State) (code : List Item) (x y : Name) (c c' : Half) (reg : Addr) (sh : BitVec 5) (w : Width)
    (d d' a' : Operand) (v v' m' : NarrowOperand) (m : Half)
    (row : Nat → FieldRow → Prop) (refused : ProgramCheck → Prop),
    s.cfg.Valid → s.foreground.conf = none →
    (∀ base f, row base f ↔ base ∈ s.cfg.gpioBases ∧ f ∈ layout ∧ f.width = w ∧
      reg = BitVec.ofNat 32 (base + s.cfg.off f.reg) ∧ ∃ i < f.count, sh.toNat = f.first + f.stride * i) →
    (∀ k, refused k ↔ step s = .refused (.illFormedProgram k)) →
    (∀ b, s.foreground.code =
        .line (.request x c (.lit reg) d v (.lit m)) :: .line (.request y c' (.y x) d' v' m') :: code →
      (decode c = .ok (.toalias b) ∨ decode c = .ok .fromalias ∨ decode c = .ok (.bitwr b) ∨
        decode c = .ok (.srenc b)) → decode c' = .ok .pinlookup →
      (decode c = .ok (.toalias b) → b.toNat < 16 → ∀ base ∈ s.cfg.gpioBases,
        reg ≠ BitVec.ofNat 32 (base + s.cfg.off .idr) ∧ reg ≠ BitVec.ofNat 32 (base + s.cfg.off .odr)) →
      refused .wf6) ∧
    (∀ base f, s.foreground.code = .line (.request x c (.lit reg) d v (.lit m)) :: code →
      decode c = .ok (.fset w true sh) → row base f → s.cfg.valid.lookup (f.reg, sh.toNat) ≠ some m →
      refused .wf7) ∧
    (s.foreground.code = .line (.ld x 4 (.lit reg)) :: .line (.request y c a' (.word x) v' m') :: code →
      decode c = .ok (.fget w sh) →
      (∀ base f, row base f → f.access = .writeOnly → refused .wf3) ∧
      (∀ base f, row base f → f.access = .none → refused .placeholderTarget) ∧
      ((∀ base f, ¬ row base f) → (∃ k, refused k) ∧
        (¬ (s.cfg.ab ≤ reg.toNat ∧ reg.toNat < s.cfg.ab + 32 * s.cfg.rs) → refused .wf1))) ∧
    (∀ n b, s.foreground.code = .line (.ld x 4 (.lit reg)) :: code →
      s.cfg.ab ≤ reg.toNat → reg.toNat < s.cfg.ab + 32 * s.cfg.rs → reg.toNat % 4 = 0 →
      n = s.cfg.rb + (reg.toNat - s.cfg.ab) / 128 * 4 → b = (reg.toNat - s.cfg.ab) / 4 % 32 →
      ((∀ base ∈ s.cfg.gpioBases, ∀ f ∈ layout, ¬ (f.width = .w1 ∧ n = base + s.cfg.off f.reg ∧
        ∃ i < f.count, b = f.first + f.stride * i)) → refused .wf1) ∧
      (∀ base ∈ s.cfg.gpioBases, ∀ f ∈ layout, f.width = .w1 → n = base + s.cfg.off f.reg →
        (∃ i < f.count, b = f.first + f.stride * i) → f.access = .writeOnly → refused .wf3)) ∧
    (s.foreground.code = .line (.request x c (.lit reg) d v (.lit m)) :: .line (.stWe x) :: code →
      ((decode c = .ok (.bitwr sh) ∧ w = .w1) ∨ decode c = .ok (.fset w false sh)) →
      ((∀ base f, ¬ row base f) → refused .wf1) ∧
      (∀ base f, row base f → (f.access = .readOnly ∨ f.access = .none) → refused .wf2) ∧
      (∀ base f, decode c = .ok (.fset .w1 false sh) → row base f → w = .w1 →
        (f.access = .readWrite ∨ f.access = .writeOnly) → refused .wf4))

/-- R68's checks follow the names that an access sequence binds, its expansion's `$r` and `$t` (R70), into the bare lines
after it (log entry 11): `PINLOOKUP` of the alias that reading a bit formed, of a bit of no data array (WF6), and `FGET` of
the word that a get read, of another field of its register that is none (WF1) or a placeholder (R23; log entry 17), are
refused before the program takes a step (at each step, log entry 24). -/
def Obligations.NamesOfSequencesAreChecked : Prop :=
  ∀ (s : State) (code : List Item) (y : Name) (c : Half) (reg : Addr) (sh sh' : BitVec 5) (w w' : Width)
    (a d : Operand) (v m : NarrowOperand) (row : Nat → FieldRow → BitVec 5 → Width → Prop)
    (refused : ProgramCheck → Prop),
    s.cfg.Valid → s.foreground.conf = none →
    (∀ base f sh w, row base f sh w ↔ base ∈ s.cfg.gpioBases ∧ f ∈ layout ∧ f.width = w ∧
      reg = BitVec.ofNat 32 (base + s.cfg.off f.reg) ∧ ∃ i < f.count, sh.toNat = f.first + f.stride * i) →
    (∀ k, refused k ↔ step s = .refused (.illFormedProgram k)) →
    ∀ base f, row base f sh w → (f.access = .readOnly ∨ f.access = .readWrite) →
      (s.foreground.code = .seq (.readBit reg sh) :: .line (.request y c (.y .r) d v m) :: code → w = .w1 →
        decode c = .ok .pinlookup → f.reg ≠ .idr → f.reg ≠ .odr → refused .wf6) ∧
      (s.foreground.code = .seq (.get w reg sh) :: .line (.request y c a (.word .t) v m) :: code →
        decode c = .ok (.fget w' sh') →
        ((∀ base f, ¬ row base f sh' w') → refused .wf1) ∧
        (∀ base f, row base f sh' w' → f.access = .none → refused .placeholderTarget))

/-- R94, R99: a fault is its agent's. The step of an agent whose next line faults stops that agent, at the line, in
that fault; nothing is written, every other agent is as it was, and the state is not final. An agent that has stopped
never changes again, whatever step is taken; its turns do nothing; and the machine goes on. That the fault is kept in the
agent, so that no step answers a fault, is the model's choice, log entry 7; that there is a next step also where the
schedule is empty or names no agent is log entry 8. -/
def Obligations.FaultStopsItsAgentForGood : Prop :=
  (∀ (s : State) (id : AgentId) (rest : List AgentId) (ag : Agent) (l : Line) (f : Fault),
    checkProgram s = none → s.sched = id :: rest → s.agent? id = some ag → ag.stopped = none →
    ((∃ q ls, ag.running = some ⟨q, l :: ls⟩) ∨
      (ag.running = none ∧ ag.conf = none ∧ ∃ code, ag.code = .line l :: code)) →
    runLine id ag l s = .fault f →
    ∃ t, step s = .next t ∧ t.agent? id = some { ag with stopped := some f } ∧ t.cfg = s.cfg ∧ t.img = s.img ∧
      t.pinIn = s.pinIn ∧ t.sched = rest ∧ (∀ id', id' ≠ id → t.agent? id' = s.agent? id') ∧ ¬ t.final) ∧
  (∀ (s t : State) (id : AgentId) (ag : Agent), s.agent? id = some ag → ag.stopped ≠ none → step s = .next t →
    t.agent? id = some ag ∧ (∀ rest, s.sched = id :: rest → t = { s with sched := rest })) ∧
  (∀ s : State, checkProgram s = none → ∃ t, step s = .next t) ∧
  (∀ (s : State) (f : Fault), step s ≠ .fault f)

/-- R18: no step changes a parameter. -/
def Obligations.NoStepChangesTheConfiguration : Prop :=
  ∀ s t : State, step s = .next t → t.cfg = s.cfg

/-- Only the agent the schedule names moves, and it is the environment's choice (R42, R43): the others' programs,
names and results are unchanged. -/
def Obligations.OnlyTheScheduledAgentMoves : Prop :=
  ∀ (s t : State) (id : AgentId) (rest : List AgentId), s.sched = id :: rest → step s = .next t →
    t.sched = rest ∧ ∀ id', id' ≠ id → t.agent? id' = s.agent? id'

/-! ### Laws of the translator -/

/-- R74: forward then reverse is the identity. -/
def Obligations.ReverseAfterForwardIsIdentity : Prop :=
  ∀ (s : State) (b : BitVec 5), s.cfg.RangesOk → s.cfg.rb ≤ s.inp.a.toNat →
    s.inp.a.toNat < s.cfg.rb + s.cfg.rs → s.inp.a.toNat % 4 = 0 →
    ∃ t u, exec (.toalias b) s = .next t ∧
      exec .fromalias { t with inp := { t.inp with a := t.out.y } } = .next u ∧
      u.out.y = s.inp.a ∧ u.out.z = b

/-- R75: reverse then forward is the identity, so the two maps are inverse bijections. -/
def Obligations.ForwardAfterReverseIsIdentity : Prop :=
  ∀ (s : State), s.cfg.RangesOk → s.cfg.ab ≤ s.inp.a.toNat →
    s.inp.a.toNat < s.cfg.ab + 32 * s.cfg.rs → s.inp.a.toNat % 4 = 0 →
    ∃ t u, exec .fromalias s = .next t ∧
      exec (.toalias t.out.z) { t with inp := { t.inp with a := t.out.y } } = .next u ∧
      u.out.y = s.inp.a ∧
      s.cfg.rb ≤ t.out.y.toNat ∧ t.out.y.toNat < s.cfg.rb + s.cfg.rs ∧ t.out.y.toNat % 4 = 0

/-- R76: distinct bits have distinct aliases. -/
def Obligations.DistinctBitsHaveDistinctAliases : Prop :=
  ∀ (s1 s2 t1 t2 : State) (b1 b2 : BitVec 5), s1.cfg.RangesOk → s2.cfg = s1.cfg →
    exec (.toalias b1) s1 = .next t1 → exec (.toalias b2) s2 = .next t2 →
    (s1.inp.a, b1) ≠ (s2.inp.a, b2) → t1.out.y ≠ t2.out.y

/-- R77: the reverse lookup inverts the handle, for any block of the region, listed or not. -/
def Obligations.ReverseLookupInvertsTheHandle : Prop :=
  ∀ (s : State) (base : Nat) (r : Reg) (p : BitVec 5), s.cfg.Valid →
    base % s.cfg.bs = 0 → s.cfg.rb ≤ base → base + s.cfg.bs ≤ s.cfg.rb + s.cfg.rs →
    (r = .idr ∨ r = .odr) → p.toNat < 16 → s.inp.a = BitVec.ofNat 32 (base + s.cfg.off r) →
    ∃ t u, exec (.toalias p) s = .next t ∧
      exec .pinlookup { t with inp := { t.inp with a := t.out.y } } = .next u ∧
      u.out.y = BitVec.ofNat 32 base ∧ u.out.z = p

/-! ### Laws of the datapath -/

/-- R85: a set of a legal value succeeds, and the get of the written word returns it. -/
def Obligations.FieldRoundTrip : Prop :=
  ∀ (s : State) (w : Width) (e : Bool) (sh : BitVec 5), sh.toNat + w.bits ≤ 32 →
    s.inp.v.toNat ≤ 2 ^ w.bits - 1 → (e = false ∨ s.inp.m.getLsbD s.inp.v.toNat = true) →
    ∃ t u, exec (.fset w e sh) s = .next t ∧ t.out.ok = true ∧
      exec (.fget w sh) { t with inp := { t.inp with d := t.out.wd } } = .next u ∧ u.out.rv = s.inp.v

/-- R86: in every `FSET` response the bits outside the field are those of the word that was read. -/
def Obligations.SiblingFieldsArePreserved : Prop :=
  ∀ (s t : State) (w : Width) (e : Bool) (sh : BitVec 5), exec (.fset w e sh) s = .next t →
    t.out.wd &&& ~~~(BitVec.ofNat 32 (2 ^ w.bits - 1) <<< sh.toNat) =
      s.inp.d &&& ~~~(BitVec.ofNat 32 (2 ^ w.bits - 1) <<< sh.toNat)

/-- R87: a rejected value asks for no write, and the conditional write of the access sequences makes none. -/
def Obligations.RejectionChangesNothing : Prop :=
  (∀ (s t : State) (w : Width) (e : Bool) (sh : BitVec 5), exec (.fset w e sh) s = .next t → t.out.ok = false →
    t.out.we = false ∧ t.out.wd = s.inp.d) ∧
  (∀ (s t : State) (b : BitVec 5), exec (.bitwr b) s = .next t → t.out.ok = false → t.out.we = false) ∧
  (∀ (s t : State) (p : BitVec 5), exec (.srenc p) s = .next t → t.out.ok = false → t.out.we = false) ∧
  (∀ (s : State) (id : AgentId) (ag : Agent) (n : Name) (r : Response), ag.response? n = some r →
    r.we = false → runLine id ag (.stWe n) s = .next s)

/-- R84: with `E = 1` a value that fits is legal only if its bit of `M` is 1; bits of `M` above `mask(w)` are
never read; with `E = 0` every value that fits is legal and `M` is ignored. -/
def Obligations.EnumerationCheckReadsTheMarkedCode : Prop :=
  ∀ (s : State) (w : Width) (sh : BitVec 5) (m' : Half), sh.toNat + w.bits ≤ 32 →
    (∃ t, exec (.fset w true sh) s = .next t ∧
      (t.out.ok = true ↔ s.inp.v.toNat < 2 ^ w.bits ∧ s.inp.m.getLsbD s.inp.v.toNat = true)) ∧
    (∃ t, exec (.fset w false sh) s = .next t ∧ (t.out.ok = true ↔ s.inp.v.toNat < 2 ^ w.bits)) ∧
    ((∀ k, k < 2 ^ w.bits → m'.getLsbD k = s.inp.m.getLsbD k) →
      ∃ r, exec (.fset w true sh) s = .next { s with out := r } ∧
        exec (.fset w true sh) { s with inp := { s.inp with m := m' } } =
          .next { { s with inp := { s.inp with m := m' } } with out := r }) ∧
    (∃ r, exec (.fset w false sh) s = .next { s with out := r } ∧
      exec (.fset w false sh) { s with inp := { s.inp with m := m' } } =
        .next { { s with inp := { s.inp with m := m' } } with out := r })

/-! ### The bus -/

/-- R30: words are little-endian, read and written. -/
def Obligations.WordsAreLittleEndian : Prop :=
  ∀ (m : List Host.Cell) (a : Addr) (w : Word), Memory.wf m → ∀ b, b < 32 →
    (Memory.word m a).getLsbD b = (Memory.get m (a.toNat + b / 8)).getLsbD (b % 8) ∧
    (Memory.get (Memory.setWord m a w) (a.toNat + b / 8)).getLsbD (b % 8) = w.getLsbD b

/-- A word write keeps the image canonical, reads back, and leaves every byte outside its four alone; and
canonical images that read alike are equal data. -/
def Obligations.WordWritesReadBack : Prop :=
  ∀ (m n : List Host.Cell) (a : Addr) (w : Word), Memory.wf m → Memory.wf n →
    Memory.wf (Memory.setWord m a w) ∧ Memory.word (Memory.setWord m a w) a = w ∧
    (∀ x, x < a.toNat ∨ a.toNat + 4 ≤ x → Memory.get (Memory.setWord m a w) x = Memory.get m x) ∧
    ((∀ x, Memory.get m x = Memory.get n x) → m = n)

/-- R32: a read of a register word returns the image but for the placeholder bits, which are drawn; a write to
a read-write register stores the data but for the placeholder bits, which it ignores. Each is one event: no
read changes the image, no write changes another word. -/
def Obligations.RegisterWordsReadAndWrite : Prop :=
  ∀ (s : State) (base : Nat) (r : Reg) (v : Word), s.cfg.Valid → Memory.wf s.img →
    base ∈ s.cfg.gpioBases → r ≠ .idr → r ≠ .bsrr →
    (∃ w t, memRead s 4 (BitVec.ofNat 32 (base + s.cfg.off r)) = .ok (w, t) ∧
      t = { s with draws := s.draws + 1 } ∧
      ∀ b, b < 32 → w.getLsbD b =
        if (placeholderMask r).getLsbD b then (Config.freeWord s.draws).getLsbD b
        else (Memory.word s.img (BitVec.ofNat 32 (base + s.cfg.off r))).getLsbD b) ∧
    (r ≠ .lckr → ∃ m, memWrite s 4 (BitVec.ofNat 32 (base + s.cfg.off r)) v = .ok { s with img := m } ∧
      (∀ b, b < 32 → (placeholderMask r).getLsbD b = false →
        (Memory.word m (BitVec.ofNat 32 (base + s.cfg.off r))).getLsbD b = v.getLsbD b) ∧
      (∀ v', v' &&& ~~~placeholderMask r = v &&& ~~~placeholderMask r →
        memWrite s 4 (BitVec.ofNat 32 (base + s.cfg.off r)) v' = .ok { s with img := m }) ∧
      ∀ x, x < base + s.cfg.off r ∨ base + s.cfg.off r + 4 ≤ x → Memory.get m x = Memory.get s.img x)

/-- R33: an alias read returns the one bit, zero-extended, of the word a read of its register would return at
this point, and is as much an event as that read: of every aligned word of a listed block but BSRR. That a word in
which R21 places no register is read at all is the model's reading, log entry 6. -/
def Obligations.AliasReadReturnsOneBit : Prop :=
  ∀ (s : State) (base o : Nat) (b : BitVec 5), s.cfg.Valid →
    base ∈ s.cfg.gpioBases → o % 4 = 0 → o < s.cfg.bs → o ≠ s.cfg.off .bsrr →
    ∃ w t, memRead s 4 (BitVec.ofNat 32 (base + o)) = .ok (w, t) ∧
      memRead s 4 (BitVec.ofNat 32 (s.cfg.ab + (base + o - s.cfg.rb) * 32 + b.toNat * 4)) =
        .ok (if w.getLsbD b.toNat then 1 else 0, t)

/-- R34: an alias write stores bit 0 of its data in the one bit; every other bit of the word and every other
byte is unchanged: of every aligned word of a listed block but those R35 admits no write to. R34 makes no exception of
the words in which R21 places no register. -/
def Obligations.AliasWriteChangesOneBit : Prop :=
  ∀ (s : State) (base o : Nat) (b : BitVec 5) (v : Word), s.cfg.Valid → Memory.wf s.img →
    base ∈ s.cfg.gpioBases → o % 4 = 0 → o < s.cfg.bs →
    o ≠ s.cfg.off .idr → o ≠ s.cfg.off .bsrr → o ≠ s.cfg.off .lckr →
    (∀ r, o = s.cfg.off r → (placeholderMask r).getLsbD b.toNat = false) →
    ∃ m, memWrite s 4 (BitVec.ofNat 32 (s.cfg.ab + (base + o - s.cfg.rb) * 32 + b.toNat * 4)) v =
        .ok { s with img := m } ∧
      (∀ k, k < 32 → (Memory.word m (BitVec.ofNat 32 (base + o))).getLsbD k =
        if k = b.toNat then v.getLsbD 0 else (Memory.word s.img (BitVec.ofNat 32 (base + o))).getLsbD k) ∧
      ∀ x, x < base + o ∨ base + o + 4 ≤ x → Memory.get m x = Memory.get s.img x

/-- R31, R35, R39, R40: the accesses that have no step, each under its own name. -/
def Obligations.UnadmittedAccessesAreStuck : Prop :=
  ∀ (s : State) (n : Nat) (addr : Addr) (v : Word), s.cfg.Valid →
    (n ≠ 4 → memRead s n addr = .error (.stuck .accessWidth) ∧ memWrite s n addr v = .error (.stuck .accessWidth)) ∧
    (addr.toNat % 4 ≠ 0 →
      memRead s 4 addr = .error (.stuck .misaligned) ∧ memWrite s 4 addr v = .error (.stuck .misaligned)) ∧
    (∀ (base : Nat) (b : BitVec 5) (y : Reg → Addr), base ∈ s.cfg.gpioBases →
      (∀ r, y r = BitVec.ofNat 32 (s.cfg.ab + (base + s.cfg.off r - s.cfg.rb) * 32 + b.toNat * 4)) →
      memRead s 4 (y .bsrr) = .error (.stuck .aliasOfBsrr) ∧
      memWrite s 4 (y .bsrr) v = .error (.stuck .aliasOfBsrr) ∧
      memWrite s 4 (y .idr) v = .error (.stuck .aliasWriteIdr) ∧
      memWrite s 4 (y .lckr) v = .error (.stuck .aliasWriteLckr) ∧
      (16 ≤ b.toNat → memWrite s 4 (y .odr) v = .error (.stuck .aliasWritePlaceholder) ∧
        memWrite s 4 (y .otyper) v = .error (.stuck .aliasWritePlaceholder)) ∧
      memWrite s 4 (BitVec.ofNat 32 (base + s.cfg.off .idr)) v = .error (.stuck .idrWrite) ∧
      memWrite s 4 (BitVec.ofNat 32 (base + s.cfg.off .lckr)) v = .error (.stuck .lckrWrite)) ∧
    (addr.toNat % 4 = 0 → ¬ (s.cfg.ab ≤ addr.toNat ∧ addr.toNat < s.cfg.ab + 32 * s.cfg.rs) →
      (∀ base ∈ s.cfg.gpioBases, addr.toNat < base ∨ base + s.cfg.bs ≤ addr.toNat) →
      memRead s 4 addr = .error (.stuck .outsideModel) ∧ memWrite s 4 addr v = .error (.stuck .outsideModel)) ∧
    (addr.toNat % 4 = 0 → s.cfg.ab ≤ addr.toNat → addr.toNat < s.cfg.ab + 32 * s.cfg.rs →
      (∀ base ∈ s.cfg.gpioBases, s.cfg.rb + (addr.toNat - s.cfg.ab) / 128 * 4 < base ∨
        base + s.cfg.bs ≤ s.cfg.rb + (addr.toNat - s.cfg.ab) / 128 * 4) →
      memRead s 4 addr = .error (.stuck .aliasOutsideBlocks) ∧
      memWrite s 4 addr v = .error (.stuck .aliasOutsideBlocks))

/-- R36, R37: a BSRR write drives the output-data word of its block, pin by pin; with both bits of one pin it
faults. -/
def Obligations.SetResetWriteDrivesThePins : Prop :=
  ∀ (s : State) (base : Nat) (v : Word), s.cfg.Valid → Memory.wf s.img → base ∈ s.cfg.gpioBases →
    ((∃ i, i < 16 ∧ v.getLsbD i = true ∧ v.getLsbD (16 + i) = true) →
      memWrite s 4 (BitVec.ofNat 32 (base + s.cfg.off .bsrr)) v = .error .bsrrBothBits) ∧
    ((∀ i, i < 16 → ¬ (v.getLsbD i = true ∧ v.getLsbD (16 + i) = true)) →
      ∃ m, memWrite s 4 (BitVec.ofNat 32 (base + s.cfg.off .bsrr)) v = .ok { s with img := m } ∧
        (∀ k, k < 32 → (Memory.word m (BitVec.ofNat 32 (base + s.cfg.off .odr))).getLsbD k =
          if k < 16 ∧ v.getLsbD k = true then true
          else if k < 16 ∧ v.getLsbD (16 + k) = true then false
          else (Memory.word s.img (BitVec.ofNat 32 (base + s.cfg.off .odr))).getLsbD k) ∧
        ∀ x, x < base + s.cfg.off .odr ∨ base + s.cfg.off .odr + 4 ≤ x → Memory.get m x = Memory.get s.img x)

/-- R38, R39: a read of BSRR or IDR is a fresh draw; an IDR read's low half is the pin levels of its block; a
write to IDR has no step. The statement holds whatever is drawn. -/
def Obligations.WriteOnlyAndInputReadsAreDrawn : Prop :=
  ∀ (s : State) (base : Nat), s.cfg.Valid → base ∈ s.cfg.gpioBases →
    memRead s 4 (BitVec.ofNat 32 (base + s.cfg.off .bsrr)) =
      .ok (Config.freeWord s.draws, { s with draws := s.draws + 1 }) ∧
    ∃ t, memRead s 4 (BitVec.ofNat 32 (base + s.cfg.off .idr)) = .ok (Config.freeWord s.draws, t) ∧
      t.pinIn.lookup base = some ((Config.freeWord s.draws).extractLsb' 0 16) ∧
      t = { s with draws := s.draws + 1, pinIn := t.pinIn } ∧
      ∀ v, memWrite s 4 (BitVec.ofNat 32 (base + s.cfg.off .idr)) v = .error (.stuck .idrWrite)

/-! ### Concurrency and set/reset -/

/-- R88: for a value of 0 or 1 the alias write and the write of the `FSET` word leave the same image. -/
def Obligations.WidthOnePathsAgree : Prop :=
  ∀ (s t u : State) (base : Nat) (r : Reg) (b : BitVec 5) (v : Half), s.cfg.Valid → Memory.wf s.img →
    base ∈ s.cfg.gpioBases → r ≠ .idr → r ≠ .bsrr → r ≠ .lckr → (placeholderMask r).getLsbD b.toNat = false →
    v.toNat ≤ 1 → s.inp.v = v → s.inp.a = BitVec.ofNat 32 (base + s.cfg.off r) →
    s.inp.d = Memory.word s.img s.inp.a →
    exec (.bitwr b) s = .next t → exec (.fset .w1 false b) s = .next u →
    ∃ m, memWrite s 4 t.out.y t.out.wd = .ok { s with img := m } ∧
      memWrite s 4 u.out.y u.out.wd = .ok { s with img := m }

/-- R89: no `SRENC` word has both bits of a pin; the set word then the reset word of one pin, written to BSRR,
leave that output 0 and every other bit of the output-data word, and every other byte, unchanged. -/
def Obligations.SetThenResetLeavesThePinLow : Prop :=
  (∀ (s t : State) (p : BitVec 5), exec (.srenc p) s = .next t →
    ∀ i, i < 16 → ¬ (t.out.wd.getLsbD i = true ∧ t.out.wd.getLsbD (16 + i) = true)) ∧
  ∀ (s t1 t2 : State) (base : Nat) (p : BitVec 5), s.cfg.Valid → Memory.wf s.img → base ∈ s.cfg.gpioBases →
    s.inp.a = BitVec.ofNat 32 (base + s.cfg.off .bsrr) →
    exec (.srenc p) { s with inp := { s.inp with v := 1 } } = .next t1 →
    exec (.srenc p) { s with inp := { s.inp with v := 0 } } = .next t2 →
    ∃ m1 m2, memWrite s 4 t1.out.y t1.out.wd = .ok { s with img := m1 } ∧
      memWrite { s with img := m1 } 4 t2.out.y t2.out.wd = .ok { s with img := m2 } ∧
      (∀ k, k < 32 → (Memory.word m2 (BitVec.ofNat 32 (base + s.cfg.off .odr))).getLsbD k =
        if k = p.toNat then false
        else (Memory.word s.img (BitVec.ofNat 32 (base + s.cfg.off .odr))).getLsbD k) ∧
      ∀ x, x < base + s.cfg.off .odr ∨ base + s.cfg.off .odr + 4 ≤ x → Memory.get m2 x = Memory.get s.img x

/-- R90: writers of different pins of one register word commute: each through `BITWR` and an alias write, in any
register that may be written, or each through `SRENC` and a BSRR write. Whichever event comes first, the images are
equal, each pin holds its writer's value, and no other bit has changed. -/
def Obligations.SingleBitWritersCommute : Prop :=
  ∀ (s : State) (base : Nat) (v v' : Half), s.cfg.Valid → Memory.wf s.img → base ∈ s.cfg.gpioBases →
    v.toNat ≤ 1 → v'.toNat ≤ 1 →
    (∀ (r : Reg) (b b' : BitVec 5) (t t' : State), r ≠ .idr → r ≠ .bsrr → r ≠ .lckr → b ≠ b' →
      (placeholderMask r).getLsbD b.toNat = false → (placeholderMask r).getLsbD b'.toNat = false →
      exec (.bitwr b) { s with inp := { s.inp with a := BitVec.ofNat 32 (base + s.cfg.off r), v := v } } = .next t →
      exec (.bitwr b') { s with inp := { s.inp with a := BitVec.ofNat 32 (base + s.cfg.off r), v := v' } } =
        .next t' →
      ∃ m1 m2 m3, memWrite s 4 t.out.y t.out.wd = .ok { s with img := m1 } ∧
        memWrite s 4 t'.out.y t'.out.wd = .ok { s with img := m2 } ∧
        memWrite { s with img := m1 } 4 t'.out.y t'.out.wd = .ok { s with img := m3 } ∧
        memWrite { s with img := m2 } 4 t.out.y t.out.wd = .ok { s with img := m3 } ∧
        ∀ k, k < 32 → (Memory.word m3 (BitVec.ofNat 32 (base + s.cfg.off r))).getLsbD k =
          if k = b.toNat then v.getLsbD 0 else if k = b'.toNat then v'.getLsbD 0
          else (Memory.word s.img (BitVec.ofNat 32 (base + s.cfg.off r))).getLsbD k) ∧
    (∀ (p p' : BitVec 5) (t t' : State), p ≠ p' →
      exec (.srenc p) { s with inp := { s.inp with a := BitVec.ofNat 32 (base + s.cfg.off .bsrr), v := v } } =
        .next t →
      exec (.srenc p') { s with inp := { s.inp with a := BitVec.ofNat 32 (base + s.cfg.off .bsrr), v := v' } } =
        .next t' →
      ∃ m1 m2 m3, memWrite s 4 t.out.y t.out.wd = .ok { s with img := m1 } ∧
        memWrite s 4 t'.out.y t'.out.wd = .ok { s with img := m2 } ∧
        memWrite { s with img := m1 } 4 t'.out.y t'.out.wd = .ok { s with img := m3 } ∧
        memWrite { s with img := m2 } 4 t.out.y t.out.wd = .ok { s with img := m3 } ∧
        ∀ k, k < 32 → (Memory.word m3 (BitVec.ofNat 32 (base + s.cfg.off .odr))).getLsbD k =
          if k = p.toNat then v.getLsbD 0 else if k = p'.toNat then v'.getLsbD 0
          else (Memory.word s.img (BitVec.ofNat 32 (base + s.cfg.off .odr))).getLsbD k)

/-- R110: the second event of a multi-bit set writes the word the response holds, whatever stands in the image
by then: a change another agent made in between is lost, in every bit. -/
def Obligations.SecondEventOverwritesTheWord : Prop :=
  ∀ (s : State) (id : AgentId) (rest : List AgentId) (ag : Agent) (w : Width) (e : Bool) (reg : Addr)
    (sh : BitVec 5) (v m : Half) (x : Response),
    s.Inv → s.sched = id :: rest → s.agent? id = some ag → ag.stopped = none →
    ag.running = some ⟨.set w e reg sh v m, [.stWe .r]⟩ → ag.response? .r = some x → x.we = true →
    ∃ t, step s = .next t ∧ Memory.word t.img reg = x.wd ∧
      ∀ a, a < reg.toNat ∨ reg.toNat + 4 ≤ a → Memory.get t.img a = Memory.get s.img a

/-- R107: every step keeps the boot rule of a handler or an engine; and while it holds, no step of that agent changes a
register word that any agent has still to complete a multi-bit set of, so the word that agent holds is not made stale.
An address that a program's text does not give may be any (`none`). That being enabled is no state of the model is log
entry 19; that the rule is a condition on programs and not a check of the step is log entry 22; how the words that bare
lines set and write are read off is log entry 27. -/
def Obligations.BootRuleProtectsTheWordsBeingSet : Prop :=
  ∀ (s t : State) (id : AgentId), s.Inv → s.bootRule id → step s = .next t →
    t.bootRule id ∧
    ∀ (rest : List AgentId) (y : Agent) (o : Option Addr) (a : Addr),
      s.sched = id :: rest → y ∈ s.agents → o ∈ y.sets s.cfg → (o = none ∨ o = some a) → a.toNat % 4 = 0 →
      Memory.word t.img a = Memory.word s.img a

/-! ### Access sequences -/

/-- R47: reading one bit through its alias takes its bit from the word a read of the register would return: the bit
of the image, or, of an input-data bit, the level drawn at that read (R39), which the block's pins then stand at. -/
def Obligations.ReadBitSequenceReturnsTheBit : Prop :=
  ∀ (s : State) (id : AgentId) (rest : List AgentId) (ag : Agent) (base : Nat) (r : Reg) (b : BitVec 5)
    (code : List Item),
    s.Inv → s.sched = id :: id :: id :: rest → s.agent? id = some ag → ag.stopped = none →
    ag.running = none → ag.conf = none →
    ag.code = .seq (.readBit (BitVec.ofNat 32 (base + s.cfg.off r)) b) :: code → base ∈ s.cfg.gpioBases →
    ∃ t new, Host.Core.run core 3 s = .next t ∧ t.img = s.img ∧ t.sched = rest ∧ t.agent? id = some new ∧
      new.code = code ∧ new.running = none ∧
      (r ≠ .idr → t.pinIn = s.pinIn ∧ new.results = ag.results ++
        [.bit ((Memory.word s.img (BitVec.ofNat 32 (base + s.cfg.off r))).getLsbD b.toNat)]) ∧
      (r = .idr → t.pinIn.lookup base = some ((Config.freeWord s.draws).extractLsb' 0 16) ∧
        new.results = ag.results ++ [.bit ((Config.freeWord s.draws).getLsbD b.toNat)])

/-- R48: a field is got by one word read and one `FGET`: the result is the field of the word in the image, or, of
input data, the field of the word drawn at that read (R39), whose low half the block's pins then stand at. -/
def Obligations.GetSequenceReturnsTheField : Prop :=
  ∀ (s : State) (id : AgentId) (rest : List AgentId) (ag : Agent) (base : Nat) (r : Reg) (w : Width)
    (sh : BitVec 5) (code : List Item),
    s.Inv → s.sched = id :: id :: id :: rest → s.agent? id = some ag → ag.stopped = none →
    ag.running = none → ag.conf = none →
    ag.code = .seq (.get w (BitVec.ofNat 32 (base + s.cfg.off r)) sh) :: code → base ∈ s.cfg.gpioBases →
    ∃ t new, Host.Core.run core 3 s = .next t ∧ t.img = s.img ∧ t.sched = rest ∧ t.agent? id = some new ∧
      new.code = code ∧ new.running = none ∧
      (r ≠ .idr → t.pinIn = s.pinIn ∧ new.results = ag.results ++ [.value (BitVec.ofNat 16
        ((Memory.word s.img (BitVec.ofNat 32 (base + s.cfg.off r))).toNat / 2 ^ sh.toNat % 2 ^ w.bits))]) ∧
      (r = .idr → t.pinIn.lookup base = some ((Config.freeWord s.draws).extractLsb' 0 16) ∧
        new.results = ag.results ++
          [.value (BitVec.ofNat 16 ((Config.freeWord s.draws).toNat / 2 ^ sh.toNat % 2 ^ w.bits))])

/-- R49: setting a width-1 field changes the image in the last of its steps alone, and there that bit alone; the
result is whether the value is 0 or 1. -/
def Obligations.SetBitSequenceWritesOnce : Prop :=
  ∀ (s : State) (id : AgentId) (rest : List AgentId) (ag : Agent) (base : Nat) (r : Reg) (b : BitVec 5) (v : Half)
    (code : List Item),
    s.Inv → s.sched = id :: id :: id :: rest → s.agent? id = some ag → ag.stopped = none →
    ag.running = none → ag.conf = none →
    ag.code = .seq (.setBit (BitVec.ofNat 32 (base + s.cfg.off r)) b v) :: code →
    base ∈ s.cfg.gpioBases → r ≠ .bsrr → r ≠ .lckr →
    ∃ t1 t2 t new, step s = .next t1 ∧ step t1 = .next t2 ∧ step t2 = .next t ∧
      t1.img = s.img ∧ t2.img = s.img ∧ t.sched = rest ∧ t.agent? id = some new ∧
      new.code = code ∧ new.running = none ∧
      (v.toNat ≤ 1 → new.results = ag.results ++ [.success true] ∧
        (∀ k, k < 32 → (Memory.word t.img (BitVec.ofNat 32 (base + s.cfg.off r))).getLsbD k =
          if k = b.toNat then v.getLsbD 0
          else (Memory.word s.img (BitVec.ofNat 32 (base + s.cfg.off r))).getLsbD k) ∧
        ∀ x, x < base + s.cfg.off r ∨ base + s.cfg.off r + 4 ≤ x → Memory.get t.img x = Memory.get s.img x) ∧
      (1 < v.toNat → new.results = ag.results ++ [.success false] ∧ t.img = s.img)

/-- R50: a multi-bit set that no other agent's turn falls into replaces its field in the register word and
nothing else, or reports failure and writes nothing. -/
def Obligations.UninterruptedSetReplacesItsField : Prop :=
  ∀ (s : State) (id : AgentId) (rest : List AgentId) (ag : Agent) (w : Width) (e : Bool) (reg : Addr)
    (sh : BitVec 5) (v m : Half) (code : List Item),
    s.Inv → s.sched = id :: id :: id :: id :: rest → s.agent? id = some ag → ag.stopped = none →
    ag.running = none → ag.conf = none → ag.code = .seq (.set w e reg sh v m) :: code →
    ∃ t new, Host.Core.run core 4 s = .next t ∧ t.sched = rest ∧ t.agent? id = some new ∧
      new.code = code ∧ new.running = none ∧
      (v.toNat < 2 ^ w.bits ∧ (e = true → m.getLsbD v.toNat = true) →
        new.results = ag.results ++ [.success true] ∧
        (∀ k, k < 32 → (Memory.word t.img reg).getLsbD k =
          if sh.toNat ≤ k ∧ k < sh.toNat + w.bits then v.getLsbD (k - sh.toNat)
          else (Memory.word s.img reg).getLsbD k) ∧
        ∀ x, x < reg.toNat ∨ reg.toNat + 4 ≤ x → Memory.get t.img x = Memory.get s.img x) ∧
      (¬ (v.toNat < 2 ^ w.bits ∧ (e = true → m.getLsbD v.toNat = true)) →
        new.results = ag.results ++ [.success false] ∧ t.img = s.img)

/-- R51, R52: `write_output`, by the alias of the output-data bit or by the set/reset protocol, drives its own
output and no other bit; a value other than 0 and 1 writes nothing. That the sequence leaves its agent the response's
`OK` as a result is the model's choice, log entry 16. -/
def Obligations.OutputSequencesDriveTheirPin : Prop :=
  ∀ (s : State) (id : AgentId) (rest : List AgentId) (ag : Agent) (h : PinHandle) (v : Half) (q : AccessSeq)
    (code : List Item),
    s.Inv → s.sched = id :: id :: id :: rest → s.agent? id = some ag → ag.stopped = none →
    ag.running = none → ag.conf = none →
    ag.code = .seq q :: code → (q = .writeDirect h v ∨ q = .writeSetReset h v) →
    ∃ t new, Host.Core.run core 3 s = .next t ∧ t.sched = rest ∧ t.agent? id = some new ∧
      new.code = code ∧ new.running = none ∧
      (v.toNat ≤ 1 → new.results = ag.results ++ [.success true] ∧
        (∀ k, k < 32 → (Memory.word t.img (h.base + BitVec.ofNat 32 (s.cfg.off .odr))).getLsbD k =
          if k = h.pin.val then decide (v.toNat = 1)
          else (Memory.word s.img (h.base + BitVec.ofNat 32 (s.cfg.off .odr))).getLsbD k) ∧
        ∀ x, x < h.base.toNat + s.cfg.off .odr ∨ h.base.toNat + s.cfg.off .odr + 4 ≤ x →
          Memory.get t.img x = Memory.get s.img x) ∧
      (1 < v.toNat → new.results = ag.results ++ [.success false] ∧ t.img = s.img)

/-- R53: a handle, the alias of a bit of a data array, is answered with its block and pin; `read_output` through it
returns the latched output, `read_input` the level drawn at that event, which stays the pin's last drawn level. -/
def Obligations.HandleSequencesReachTheirPin : Prop :=
  ∀ (s : State) (id : AgentId) (rest : List AgentId) (ag : Agent) (base : Nat) (r : Reg) (p : BitVec 5)
    (h : Addr) (code : List Item),
    s.Inv → s.sched = id :: id :: rest → s.agent? id = some ag → ag.stopped = none →
    ag.running = none → ag.conf = none →
    base ∈ s.cfg.gpioBases → p.toNat < 16 →
    h = BitVec.ofNat 32 (s.cfg.ab + (base + s.cfg.off r - s.cfg.rb) * 32 + p.toNat * 4) →
    ((r = .idr ∨ r = .odr) → ag.code = .seq (.pinOf h) :: code →
      ∃ t new, Host.Core.run core 2 s = .next t ∧ t.img = s.img ∧ t.agent? id = some new ∧ new.code = code ∧
        new.running = none ∧ new.results = ag.results ++ [.pin (BitVec.ofNat 32 base) p]) ∧
    (r = .odr → ag.code = .seq (.readOutput h) :: code →
      ∃ t new, Host.Core.run core 2 s = .next t ∧ t.img = s.img ∧ t.agent? id = some new ∧ new.code = code ∧
        new.running = none ∧ new.results = ag.results ++
          [.bit ((Memory.word s.img (BitVec.ofNat 32 (base + s.cfg.off .odr))).getLsbD p.toNat)]) ∧
    (r = .idr → ag.code = .seq (.readInput h) :: code →
      ∃ t new, Host.Core.run core 2 s = .next t ∧ t.img = s.img ∧ t.agent? id = some new ∧ new.code = code ∧
        new.running = none ∧ new.results = ag.results ++ [.bit ((Config.freeWord s.draws).getLsbD p.toNat)] ∧
        t.pinIn.lookup base = some ((Config.freeWord s.draws).extractLsb' 0 16))

/-- R108: the order of the steps of `configure`, with the register and shift each sets. R108 leaves to `VALID(field)`
whether step 5 and the enumeration check apply: that step 5 stands where an alternate-function code is given, listed or
not, and that no step carries the check where nothing is listed, is the model's choice, log entry 14. -/
def Obligations.ConfigureStepsInOrder : Prop :=
  ∀ (P : Params) (c : PinConfig) (af : Half), c.alternate = some af → P.valid = [] →
    configureSteps P c =
      [ .setBit (c.base + BitVec.ofNat 32 (P.off .otyper)) (BitVec.ofNat 5 c.pin.val) c.outputType,
        .set .w2 false (c.base + BitVec.ofNat 32 (P.off .moder)) (BitVec.ofNat 5 (2 * c.pin.val)) c.mode 0,
        .set .w2 false (c.base + BitVec.ofNat 32 (P.off .ospeedr)) (BitVec.ofNat 5 (2 * c.pin.val)) c.speed 0,
        .set .w2 false (c.base + BitVec.ofNat 32 (P.off .pupdr)) (BitVec.ofNat 5 (2 * c.pin.val)) c.pull 0,
        .set .w4 false (c.base + BitVec.ofNat 32 (P.off (if c.pin.val < 8 then .afrl else .afrh)))
          (BitVec.ofNat 5 (4 * (c.pin.val % 8))) af 0 ]

/-- R109: the step that runs the last line of a `configure`'s `set` with `OK = 0` writes nothing and rolls nothing
back; what is left of `configure` is kept or dropped, a free choice (log entry 13); from then on no step of any agent
makes the `configure` forget that it failed, and what it reports at its end is failure. -/
def Obligations.ConfigureIsNotTransactional : Prop :=
  (∀ (s : State) (id : AgentId) (rest : List AgentId) (ag : Agent) (q : AccessSeq) (x : Response)
    (steps : List AccessSeq) (ok : Bool),
    s.Inv → s.sched = id :: rest → s.agent? id = some ag → ag.stopped = none →
    ag.conf = some ⟨steps, ok⟩ → ag.running = some ⟨q, [.stWe .r]⟩ → ag.response? .r = some x →
    x.ok = false → x.we = false →
    ((∃ w e reg sh v m, q = .set w e reg sh v m) ∨ ∃ reg b v, q = .setBit reg b v) →
    ∃ t new, step s = .next t ∧ t.img = s.img ∧ t.agent? id = some new ∧ new.running = none ∧
      new.results = ag.results ++ [.success false] ∧
      new.conf = some ⟨if Config.freeChoice s.draws then [] else steps, false⟩) ∧
  (∀ (s t : State) (id : AgentId) (ag : Agent) (steps : List AccessSeq),
    s.agent? id = some ag → ag.conf = some ⟨steps, false⟩ → step s = .next t →
    ∃ new, t.agent? id = some new ∧
      ((∃ steps', new.conf = some ⟨steps', false⟩) ∨
        (new.conf = none ∧ new.results = ag.results ++ [.configured false] ∧ t.img = s.img))) ∧
  (∀ (s : State) (id : AgentId) (rest : List AgentId) (ag : Agent) (ok : Bool),
    checkProgram s = none → s.sched = id :: rest → s.agent? id = some ag → ag.stopped = none →
    ag.running = none → ag.conf = some ⟨[], ok⟩ →
    ∃ t new, step s = .next t ∧ t.img = s.img ∧ t.agent? id = some new ∧ new.conf = none ∧
      new.code = ag.code ∧ new.results = ag.results ++ [.configured ok])

/-! ### Invariants -/

/-- The invariant holds at reset, with R4's default parameters and with any others that meet its
constraints (log entry 5's included), whatever canonical reset image they give; and no agent has anything to run
then. That no agent has a program at reset is the model's choice, log entry 1; that an unlisted byte is 0 is log entry
2's, and the second clause does not rest on it. -/
def Obligations.ResetMeetsTheInvariant : Prop :=
  State.reset.Inv ∧ ∀ P : Params, P.Valid → Memory.wf P.regReset → (State.resetOf P).Inv ∧ (State.resetOf P).final

/-- R105: after reset a register word reads as its `REG_RESET`. -/
def Obligations.ResetImageIsTheParameter : Prop :=
  ∀ (P : Params) (base : Nat) (r : Reg), P.Valid → base ∈ P.gpioBases → r ≠ .idr → r ≠ .bsrr →
    ∃ w t, memRead (State.resetOf P) 4 (BitVec.ofNat 32 (base + P.off r)) = .ok (w, t) ∧
      ∀ b, b < 32 → (placeholderMask r).getLsbD b = false →
        w.getLsbD b = (Memory.word P.regReset (BitVec.ofNat 32 (base + P.off r))).getLsbD b

/-- Every step keeps the invariant: the parameters stay valid, the image canonical, the program well-formed,
and each agent inside the expansion of its sequence, holding what the rest of it needs. -/
def Obligations.StepsKeepTheInvariant : Prop :=
  ∀ s t : State, s.Inv → step s = .next t → t.Inv

/-- No step changes what nothing may write: the IDR, BSRR and LCKR words (R35, R36, R39, R40), placeholder bits (R32)
and every byte outside the blocks (R54). That a word write keeps the placeholder bits of the image is log entry 23.
A byte of a block that lies in no register may be written by a bare line (log entry 6): the steps of an agent that
runs access sequences change none. -/
def Obligations.NoStepChangesUnwritableState : Prop :=
  ∀ s t : State, s.Inv → step s = .next t →
    (∀ base ∈ s.cfg.gpioBases, ∀ r : Reg,
      Memory.word t.img (BitVec.ofNat 32 (base + s.cfg.off r)) &&& placeholderMask r =
        Memory.word s.img (BitVec.ofNat 32 (base + s.cfg.off r)) &&& placeholderMask r ∧
      ((r = .idr ∨ r = .bsrr ∨ r = .lckr) →
        Memory.word t.img (BitVec.ofNat 32 (base + s.cfg.off r)) =
          Memory.word s.img (BitVec.ofNat 32 (base + s.cfg.off r)))) ∧
    (∀ x : Nat, (∀ base ∈ s.cfg.gpioBases, x < base ∨ base + s.cfg.bs ≤ x) →
      Memory.get t.img x = Memory.get s.img x) ∧
    (∀ (id : AgentId) (rest : List AgentId) (ag : Agent) (x : Nat), s.sched = id :: rest →
      s.agent? id = some ag → ag.sequencesOnly →
      (∀ base ∈ s.cfg.gpioBases, ∀ r : Reg, x < base + s.cfg.off r ∨ base + s.cfg.off r + 4 ≤ x) →
      Memory.get t.img x = Memory.get s.img x)

/-- PF4's contract, of the whole machine: a well-formed program of access sequences is never refused and goes on, and
no agent ever stops in a violated precondition or sets both bits of a pin: an agent stops only where it is the
scheduled one and at the conditional write of a set of a lock bit (R35(c)) or of a set/reset bit (R35(a)) by alias,
which the bus admits no write to. -/
def Obligations.WellFormedProgramsMeetEveryPrecondition : Prop :=
  ∀ s : State, s.Inv → (∀ ag ∈ s.agents, ag.sequencesOnly) →
    ∃ t, step s = .next t ∧ t.Inv ∧ (∀ ag ∈ t.agents, ag.sequencesOnly) ∧
      ∀ (id : AgentId) (old new : Agent), s.agent? id = some old → t.agent? id = some new →
        new.stopped ≠ old.stopped →
        s.sched.head? = some id ∧ ∃ (base : Nat) (r : Reg) (b : BitVec 5) (v : Half) (x : Response),
          base ∈ s.cfg.gpioBases ∧ (r = .lckr ∨ r = .bsrr) ∧
          old.running = some ⟨.setBit (BitVec.ofNat 32 (base + s.cfg.off r)) b v, [.stWe .r]⟩ ∧
          old.response? .r = some x ∧ x.we = true ∧
          new.stopped = some (.stuck (if r = .lckr then .aliasWriteLckr else .aliasOfBsrr))
end

