-- ==== Sys2Proof/Laws/Memory.lean ====
section
/-! SUPPORT. The laws of the image: canonical form, read after write, words and bytes. -/

namespace Sys2Proof.Machine

theorem Memory.get_nil (a : Nat) : Memory.get [] a = unlistedByte := rfl

/-- An address below every listed one reads as unlisted. -/
theorem Memory.get_of_lt {m : List Host.Cell} {a : Nat} (h : ∀ c ∈ m, a < c.1) :
    Memory.get m a = unlistedByte := by
  induction m with
  | nil => rfl
  | cons c m ih =>
    obtain ⟨b, w⟩ := c
    have hb : a < b := h (b, w) (by simp)
    simp only [Memory.get, if_neg (Nat.ne_of_lt hb)]
    exact ih fun c hc => h c (by simp [hc])

theorem Memory.get_cons (a : Nat) (v : Byte) {m : List Host.Cell} (h : ∀ c ∈ m, a < c.1) (x : Nat) :
    Memory.get (Memory.cons a v m) x = if x = a then v else Memory.get m x := by
  unfold Memory.cons
  split
  · rename_i hv
    split
    · subst hv; rename_i hx; subst hx; exact Memory.get_of_lt h
    · rfl
  · rfl

theorem Memory.cons_wf {a : Nat} {v : Byte} {m : List Host.Cell} (hm : Memory.wf m)
    (h : ∀ c ∈ m, a < c.1) : Memory.wf (Memory.cons a v m) := by
  unfold Memory.cons
  split
  · exact hm
  · rename_i hv
    refine ⟨List.pairwise_cons.2 ⟨h, hm.1⟩, fun c hc => ?_⟩
    rcases List.mem_cons.1 hc with rfl | hc
    · exact hv
    · exact hm.2 c hc

theorem Memory.wf_tail {c : Host.Cell} {m : List Host.Cell} (h : Memory.wf (c :: m)) : Memory.wf m :=
  ⟨(List.pairwise_cons.1 h.1).2, fun x hx => h.2 x (by simp [hx])⟩

theorem Memory.wf_head {c : Host.Cell} {m : List Host.Cell} (h : Memory.wf (c :: m)) :
    ∀ x ∈ m, c.1 < x.1 := (List.pairwise_cons.1 h.1).1

/-- Every address listed after a write was listed before, or is the one written. -/
theorem Memory.mem_set {m : List Host.Cell} {a : Nat} {v : Byte} {c : Host.Cell}
    (h : c ∈ Memory.set m a v) : c.1 = a ∨ c ∈ m := by
  induction m with
  | nil => simp only [Memory.set, Memory.cons] at h; split at h <;> simp_all
  | cons d m ih =>
    obtain ⟨b, w⟩ := d
    simp only [Memory.set, Memory.cons] at h
    split at h
    · split at h
      · exact .inr h
      · rcases List.mem_cons.1 h with rfl | h
        · exact .inl rfl
        · exact .inr h
    · split at h
      · split at h
        · exact .inr (by simp [h])
        · rcases List.mem_cons.1 h with rfl | h
          · exact .inl rfl
          · exact .inr (by simp [h])
      · rcases List.mem_cons.1 h with rfl | h
        · exact .inr (by simp)
        · rcases ih h with h | h
          · exact .inl h
          · exact .inr (by simp [h])

/-- A write keeps the canonical form. -/
theorem Memory.set_wf {m : List Host.Cell} (h : Memory.wf m) (a : Nat) (v : Byte) :
    Memory.wf (Memory.set m a v) := by
  induction m with
  | nil => exact Memory.cons_wf h (by simp)
  | cons d m ih =>
    obtain ⟨b, w⟩ := d
    have hb := Memory.wf_head h
    simp only [Memory.set]
    split
    · rename_i hab
      refine Memory.cons_wf h fun c hc => ?_
      rcases List.mem_cons.1 hc with rfl | hc
      · exact hab
      · exact Nat.lt_trans hab (hb c hc)
    · split
      · rename_i hab
        subst hab
        exact Memory.cons_wf (Memory.wf_tail h) hb
      · rename_i h1 h2
        have ih := ih (Memory.wf_tail h)
        refine ⟨List.pairwise_cons.2 ⟨fun c hc => ?_, ih.1⟩, fun c hc => ?_⟩
        · rcases Memory.mem_set hc with hc | hc
          · rw [hc]; show b < a; omega
          · exact hb c hc
        · rcases List.mem_cons.1 hc with rfl | hc
          · exact h.2 _ (by simp)
          · exact ih.2 c hc

/-- Read after write, one byte. -/
theorem Memory.get_set {m : List Host.Cell} (h : Memory.wf m) (a : Nat) (v : Byte) (x : Nat) :
    Memory.get (Memory.set m a v) x = if x = a then v else Memory.get m x := by
  induction m with
  | nil => exact Memory.get_cons a v (by simp) x
  | cons d m ih =>
    obtain ⟨b, w⟩ := d
    have hb := Memory.wf_head h
    simp only [Memory.set]
    split
    · rename_i hab
      refine Memory.get_cons a v (fun c hc => ?_) x
      rcases List.mem_cons.1 hc with rfl | hc
      · exact hab
      · exact Nat.lt_trans hab (hb c hc)
    · split
      · rename_i hab
        subst hab
        rw [Memory.get_cons a v hb x]
        split
        · rfl
        · rename_i hx; simp [Memory.get, hx]
      · rename_i h1 h2
        simp only [Memory.get, ih (Memory.wf_tail h)]
        by_cases hx : x = b
        · subst hx; simp [Ne.symm h2]
        · simp [hx]

/-- Canonical images that read alike are equal. -/
theorem Memory.ext {m n : List Host.Cell} (hm : Memory.wf m) (hn : Memory.wf n)
    (h : ∀ x, Memory.get m x = Memory.get n x) : m = n := by
  induction m generalizing n with
  | nil =>
    cases n with
    | nil => rfl
    | cons d n =>
      have := h d.1
      obtain ⟨b, w⟩ := d
      simp only [Memory.get] at this
      exact absurd this.symm (hn.2 (b, w) (by simp))
  | cons c m ih =>
    obtain ⟨a, v⟩ := c
    cases n with
    | nil =>
      have := h a
      simp only [Memory.get] at this
      exact absurd this (hm.2 (a, v) (by simp))
    | cons d n =>
      obtain ⟨b, w⟩ := d
      have hab : a = b := by
        rcases Nat.lt_trichotomy a b with hlt | heq | hgt
        · have h1 : Memory.get ((b, w) :: n) a = unlistedByte := Memory.get_of_lt fun c hc => by
            rcases List.mem_cons.1 hc with rfl | hc
            · exact hlt
            · exact Nat.lt_trans hlt (Memory.wf_head hn c hc)
          have h2 := h a
          rw [h1] at h2
          simp only [Memory.get] at h2
          exact absurd h2 (hm.2 (a, v) (by simp))
        · exact heq
        · have h1 : Memory.get ((a, v) :: m) b = unlistedByte := Memory.get_of_lt fun c hc => by
            rcases List.mem_cons.1 hc with rfl | hc
            · exact hgt
            · exact Nat.lt_trans hgt (Memory.wf_head hm c hc)
          have h2 := h b
          rw [h1] at h2
          simp only [Memory.get] at h2
          exact absurd h2.symm (hn.2 (b, w) (by simp))
      subst hab
      have hvw : v = w := by simpa [Memory.get] using h a
      subst hvw
      have : m = n := ih (Memory.wf_tail hm) (Memory.wf_tail hn) fun x => by
        by_cases hx : x = a
        · subst hx
          rw [Memory.get_of_lt (Memory.wf_head hm), Memory.get_of_lt (Memory.wf_head hn)]
        · simpa [Memory.get, hx] using h x
      rw [this]

/-! ### Words -/

theorem Memory.setWord_wf {m : List Host.Cell} (h : Memory.wf m) (a : Addr) (w : Word) :
    Memory.wf (Memory.setWord m a w) :=
  Memory.set_wf (Memory.set_wf (Memory.set_wf (Memory.set_wf h _ _) _ _) _ _) _ _

/-- Every byte after a word write: the four bytes at the address, little-endian, and no other. -/
theorem Memory.get_setWord {m : List Host.Cell} (h : Memory.wf m) (a : Addr) (w : Word) (x : Nat) :
    Memory.get (Memory.setWord m a w) x =
      if x = a.toNat + 3 then w.extractLsb' 24 8
      else if x = a.toNat + 2 then w.extractLsb' 16 8
      else if x = a.toNat + 1 then w.extractLsb' 8 8
      else if x = a.toNat then w.extractLsb' 0 8
      else Memory.get m x := by
  unfold Memory.setWord
  rw [Memory.get_set (Memory.set_wf (Memory.set_wf (Memory.set_wf h _ _) _ _) _ _),
    Memory.get_set (Memory.set_wf (Memory.set_wf h _ _) _ _), Memory.get_set (Memory.set_wf h _ _),
    Memory.get_set h]

theorem Memory.get_setWord_outside {m : List Host.Cell} (h : Memory.wf m) (a : Addr) (w : Word) {x : Nat}
    (hx : x < a.toNat ∨ a.toNat + 4 ≤ x) : Memory.get (Memory.setWord m a w) x = Memory.get m x := by
  rw [Memory.get_setWord h, if_neg (by omega), if_neg (by omega), if_neg (by omega), if_neg (by omega)]

/-- Bit `b` of a word is bit `b mod 8` of the byte at `A + floor(b/8)` (R30). -/
theorem Memory.word_getLsbD (m : List Host.Cell) (a : Addr) {b : Nat} (hb : b < 32) :
    (Memory.word m a).getLsbD b = (Memory.get m (a.toNat + b / 8)).getLsbD (b % 8) := by
  have h : b < 8 ∨ (8 ≤ b ∧ b < 16) ∨ (16 ≤ b ∧ b < 24) ∨ (24 ≤ b ∧ b < 32) := by omega
  simp only [Memory.word, BitVec.getLsbD_append]
  rcases h with h | h | h | h
  · have e1 : b / 8 = 0 := by omega
    have e2 : b % 8 = b := by omega
    simp [h, e1, e2]
  · have e1 : b / 8 = 1 := by omega
    have e2 : b % 8 = b - 8 := by omega
    have n1 : ¬ b < 8 := by omega
    have n2 : b - 8 < 8 := by omega
    simp [n1, n2, e1, e2]
  · have e1 : b / 8 = 2 := by omega
    have e2 : b % 8 = b - 16 := by omega
    have n1 : ¬ b < 8 := by omega
    have n2 : ¬ b - 8 < 8 := by omega
    have n3 : b - 16 < 8 := by omega
    have e3 : b - 8 - 8 = b - 16 := by omega
    simp [n1, n2, n3, e1, e2, e3]
  · have e1 : b / 8 = 3 := by omega
    have e2 : b % 8 = b - 24 := by omega
    have n1 : ¬ b < 8 := by omega
    have n2 : ¬ b - 8 < 8 := by omega
    have n3 : ¬ b - 8 - 8 < 8 := by omega
    have e3 : b - 8 - 8 - 8 = b - 24 := by omega
    simp [n1, n2, n3, e1, e2, e3]

/-- Read after write, one word. -/
theorem Memory.word_setWord_same {m : List Host.Cell} (h : Memory.wf m) (a : Addr) (w : Word) :
    Memory.word (Memory.setWord m a w) a = w := by
  refine BitVec.eq_of_getLsbD_eq fun b hb => ?_
  rw [Memory.word_getLsbD _ _ hb, Memory.get_setWord h]
  have h4 : b / 8 = 0 ∨ b / 8 = 1 ∨ b / 8 = 2 ∨ b / 8 = 3 := by omega
  have hm : b % 8 < 8 := by omega
  rcases h4 with e | e | e | e <;> simp [e, hm] <;> congr 1 <;> omega

/-- Words at distinct aligned addresses do not meet. -/
theorem Memory.word_setWord_other {m : List Host.Cell} (h : Memory.wf m) {a a' : Addr} (w : Word)
    (ha : a.toNat % 4 = 0) (ha' : a'.toNat % 4 = 0) (hne : a ≠ a') :
    Memory.word (Memory.setWord m a w) a' = Memory.word m a' := by
  have hn : a.toNat ≠ a'.toNat := fun e => hne (BitVec.eq_of_toNat_eq e)
  unfold Memory.word
  rw [Memory.get_setWord_outside h, Memory.get_setWord_outside h, Memory.get_setWord_outside h,
    Memory.get_setWord_outside h] <;> omega

/-- Writing back the word that stands there changes nothing. -/
theorem Memory.setWord_word {m : List Host.Cell} (h : Memory.wf m) (a : Addr) :
    Memory.setWord m a (Memory.word m a) = m := by
  refine Memory.ext (Memory.setWord_wf h a _) h fun x => ?_
  rw [Memory.get_setWord h]
  have key : ∀ k, k < 4 → (Memory.word m a).extractLsb' (8 * k) 8 = Memory.get m (a.toNat + k) := by
    intro k hk
    refine BitVec.eq_of_getLsbD_eq fun b hb => ?_
    rw [BitVec.getLsbD_extractLsb', Memory.word_getLsbD _ _ (by omega)]
    have e1 : (8 * k + b) / 8 = k := by omega
    have e2 : (8 * k + b) % 8 = b := by omega
    simp [e1, e2, hb]
  have k0 := key 0 (by omega)
  have k1 := key 1 (by omega)
  have k2 := key 2 (by omega)
  have k3 := key 3 (by omega)
  simp only [Nat.mul_zero, Nat.reduceMul, Nat.add_zero] at k0 k1 k2 k3
  split
  · rename_i e; rw [e, k3]
  · split
    · rename_i e; rw [e, k2]
    · split
      · rename_i e; rw [e, k1]
      · split
        · rename_i e; rw [e, k0]
        · rfl

/-- Two writes of one word: the last one stands. -/
theorem Memory.setWord_setWord_same {m : List Host.Cell} (h : Memory.wf m) (a : Addr) (v w : Word) :
    Memory.setWord (Memory.setWord m a v) a w = Memory.setWord m a w := by
  refine Memory.ext (Memory.setWord_wf (Memory.setWord_wf h a v) a w) (Memory.setWord_wf h a w) fun x => ?_
  rw [Memory.get_setWord (Memory.setWord_wf h a v), Memory.get_setWord h, Memory.get_setWord h]
  repeat' split
  all_goals rfl

end Sys2Proof.Machine
end

