-- ==== Sys2Proof/Laws/State.lean ====
section
/-! SUPPORT. One lemma per field for each named update of the state. -/

namespace Sys2Proof.Machine

/-! ### `setAgent` -/

@[simp] theorem State.setAgent_cfg (s : State) (id ag) : (s.setAgent id ag).cfg = s.cfg := by cases id <;> rfl
@[simp] theorem State.setAgent_inp (s : State) (id ag) : (s.setAgent id ag).inp = s.inp := by cases id <;> rfl
@[simp] theorem State.setAgent_out (s : State) (id ag) : (s.setAgent id ag).out = s.out := by cases id <;> rfl
@[simp] theorem State.setAgent_img (s : State) (id ag) : (s.setAgent id ag).img = s.img := by cases id <;> rfl
@[simp] theorem State.setAgent_pinIn (s : State) (id ag) : (s.setAgent id ag).pinIn = s.pinIn := by cases id <;> rfl
@[simp] theorem State.setAgent_draws (s : State) (id ag) : (s.setAgent id ag).draws = s.draws := by cases id <;> rfl
@[simp] theorem State.setAgent_sched (s : State) (id ag) : (s.setAgent id ag).sched = s.sched := by cases id <;> rfl

@[simp] theorem State.agent?_foreground (s : State) : s.agent? .foreground = some s.foreground := rfl
@[simp] theorem State.setAgent_foreground (s : State) (ag) :
    s.setAgent .foreground ag = { s with foreground := ag } := rfl

/-- An agent that exists is the one that was set. -/
theorem State.agent?_setAgent_same {s : State} {id : AgentId} {old : Agent} (h : s.agent? id = some old)
    (ag : Agent) : (s.setAgent id ag).agent? id = some ag := by
  cases id with
  | foreground => rfl
  | handler n =>
    have hn : n < s.handlers.length := (List.getElem?_eq_some_iff.1 h).1
    simp [State.agent?, State.setAgent, hn]
  | dma n =>
    have hn : n < s.dmas.length := (List.getElem?_eq_some_iff.1 h).1
    simp [State.agent?, State.setAgent, hn]

/-- The other agents are unchanged. -/
theorem State.agent?_setAgent_other {s : State} {id id' : AgentId} (h : id ≠ id') (ag : Agent) :
    (s.setAgent id ag).agent? id' = s.agent? id' := by
  cases id <;> cases id' <;> simp_all [State.agent?, State.setAgent]

/-- Setting an agent of a state to what it is changes nothing. -/
theorem State.setAgent_self {s : State} {id : AgentId} {ag : Agent} (h : s.agent? id = some ag) :
    s.setAgent id ag = s := by
  cases id with
  | foreground => simp only [State.agent?, Option.some.injEq] at h; subst h; rfl
  | handler n =>
    obtain ⟨hn, he⟩ := List.getElem?_eq_some_iff.1 h
    subst he; simp [State.setAgent, List.set_getElem_self]
  | dma n =>
    obtain ⟨hn, he⟩ := List.getElem?_eq_some_iff.1 h
    subst he; simp [State.setAgent, List.set_getElem_self]

/-! ### `mapAgent` -/

theorem State.mapAgent_of_some {s : State} {id : AgentId} {ag : Agent} (h : s.agent? id = some ag)
    (f : Agent → Agent) : s.mapAgent id f = s.setAgent id (f ag) := by
  simp only [State.mapAgent, h]

@[simp] theorem State.mapAgent_cfg (s : State) (id f) : (s.mapAgent id f).cfg = s.cfg := by
  unfold State.mapAgent; split <;> simp
@[simp] theorem State.mapAgent_inp (s : State) (id f) : (s.mapAgent id f).inp = s.inp := by
  unfold State.mapAgent; split <;> simp
@[simp] theorem State.mapAgent_out (s : State) (id f) : (s.mapAgent id f).out = s.out := by
  unfold State.mapAgent; split <;> simp
@[simp] theorem State.mapAgent_img (s : State) (id f) : (s.mapAgent id f).img = s.img := by
  unfold State.mapAgent; split <;> simp
@[simp] theorem State.mapAgent_pinIn (s : State) (id f) : (s.mapAgent id f).pinIn = s.pinIn := by
  unfold State.mapAgent; split <;> simp
@[simp] theorem State.mapAgent_draws (s : State) (id f) : (s.mapAgent id f).draws = s.draws := by
  unfold State.mapAgent; split <;> simp
@[simp] theorem State.mapAgent_sched (s : State) (id f) : (s.mapAgent id f).sched = s.sched := by
  unfold State.mapAgent; split <;> simp

theorem State.agent?_mapAgent_same {s : State} {id : AgentId} {ag : Agent} (h : s.agent? id = some ag)
    (f : Agent → Agent) : (s.mapAgent id f).agent? id = some (f ag) := by
  rw [State.mapAgent_of_some h, State.agent?_setAgent_same h]

theorem State.agent?_mapAgent_other {s : State} {id id' : AgentId} (h : id ≠ id') (f : Agent → Agent) :
    (s.mapAgent id f).agent? id' = s.agent? id' := by
  unfold State.mapAgent; split
  · exact State.agent?_setAgent_other h _
  · rfl

@[simp] theorem State.mapAgent_foreground (s : State) (f : Agent → Agent) :
    s.mapAgent .foreground f = { s with foreground := f s.foreground } := rfl

/-- Only the agents' records are looked at by `agent?`. -/
theorem State.agent?_congr {s t : State} (hf : t.foreground = s.foreground) (hh : t.handlers = s.handlers)
    (hd : t.dmas = s.dmas) (id : AgentId) : t.agent? id = s.agent? id := by
  cases id <;> simp [State.agent?, hf, hh, hd]

/-! ### `stop`, `drawIf` -/

@[simp] theorem State.stop_cfg (s : State) (id f) : (s.stop id f).cfg = s.cfg := by simp [State.stop]
@[simp] theorem State.stop_inp (s : State) (id f) : (s.stop id f).inp = s.inp := by simp [State.stop]
@[simp] theorem State.stop_out (s : State) (id f) : (s.stop id f).out = s.out := by simp [State.stop]
@[simp] theorem State.stop_img (s : State) (id f) : (s.stop id f).img = s.img := by simp [State.stop]
@[simp] theorem State.stop_pinIn (s : State) (id f) : (s.stop id f).pinIn = s.pinIn := by simp [State.stop]
@[simp] theorem State.stop_draws (s : State) (id f) : (s.stop id f).draws = s.draws := by simp [State.stop]
@[simp] theorem State.stop_sched (s : State) (id f) : (s.stop id f).sched = s.sched := by simp [State.stop]

@[simp] theorem State.drawIf_false (s : State) : s.drawIf false = s := rfl
@[simp] theorem State.drawIf_cfg (s : State) (b) : (s.drawIf b).cfg = s.cfg := by cases b <;> rfl
@[simp] theorem State.drawIf_inp (s : State) (b) : (s.drawIf b).inp = s.inp := by cases b <;> rfl
@[simp] theorem State.drawIf_out (s : State) (b) : (s.drawIf b).out = s.out := by cases b <;> rfl
@[simp] theorem State.drawIf_img (s : State) (b) : (s.drawIf b).img = s.img := by cases b <;> rfl
@[simp] theorem State.drawIf_pinIn (s : State) (b) : (s.drawIf b).pinIn = s.pinIn := by cases b <;> rfl
@[simp] theorem State.drawIf_sched (s : State) (b) : (s.drawIf b).sched = s.sched := by cases b <;> rfl
@[simp] theorem State.drawIf_agent? (s : State) (b id) : (s.drawIf b).agent? id = s.agent? id := by
  cases b
  · rfl
  · exact State.agent?_congr rfl rfl rfl id

/-! ### `faulted`: everything a line that faults leaves -/

@[simp] theorem faulted_cfg (id ag l f) (s : State) : (faulted id ag l f s).cfg = s.cfg := by
  cases l <;> simp [faulted]
@[simp] theorem faulted_img (id ag l f) (s : State) : (faulted id ag l f s).img = s.img := by
  cases l <;> simp [faulted]
@[simp] theorem faulted_pinIn (id ag l f) (s : State) : (faulted id ag l f s).pinIn = s.pinIn := by
  cases l <;> simp [faulted]
@[simp] theorem faulted_sched (id ag l f) (s : State) : (faulted id ag l f s).sched = s.sched := by
  cases l <;> simp [faulted]

theorem State.agent?_stop_same {s : State} {id : AgentId} {ag : Agent} (h : s.agent? id = some ag) (f : Fault) :
    (s.stop id f).agent? id = some { ag with stopped := some f } := State.agent?_mapAgent_same h _

theorem faulted_agent?_same {s : State} {id : AgentId} {old : Agent} (h : s.agent? id = some old) (ag l f) :
    (faulted id ag l f s).agent? id = some { old with stopped := some f } := by
  cases l
  · refine State.agent?_stop_same (ag := old) ?_ f
    rw [← h]; exact State.agent?_congr rfl rfl rfl id
  all_goals exact State.agent?_stop_same ((State.drawIf_agent? ..).trans h) f

theorem faulted_agent?_other {s : State} {id id' : AgentId} (h : id ≠ id') (ag l f) :
    (faulted id ag l f s).agent? id' = s.agent? id' := by
  cases l
  · refine (State.agent?_mapAgent_other h _).trans ?_
    exact State.agent?_congr rfl rfl rfl id'
  all_goals exact (State.agent?_mapAgent_other h _).trans (State.drawIf_agent? ..)

/-! ### Names -/

theorem Agent.responseOf_of_some {ag : Agent} {n : Name} {r : Response} (h : ag.response? n = some r) (d : Nat) :
    ag.responseOf d n = r := by simp [Agent.responseOf, h]

theorem Agent.wordOf_of_some {ag : Agent} {n : Name} {w : Word} (h : ag.word? n = some w) (d : Nat) :
    ag.wordOf d n = w := by simp [Agent.wordOf, h]

@[simp] theorem Agent.response?_bindResponse_same (ag : Agent) (n : Name) (r : Response) :
    (ag.bindResponse n r).response? n = some r := by
  simp [Agent.response?, Agent.bindResponse, bindKey]

@[simp] theorem Agent.word?_bindWord_same (ag : Agent) (n : Name) (w : Word) :
    (ag.bindWord n w).word? n = some w := by
  simp [Agent.word?, Agent.bindWord, bindKey]

@[simp] theorem Agent.word?_bindResponse (ag : Agent) (k n : Name) (r : Response) :
    (ag.bindResponse k r).word? n = ag.word? n := rfl

@[simp] theorem Agent.response?_bindWord (ag : Agent) (k n : Name) (w : Word) :
    (ag.bindWord k w).response? n = ag.response? n := rfl

/-! ### `afterRead` -/

@[simp] theorem afterRead_cfg (s : State) (b r) : (afterRead s b r).cfg = s.cfg := rfl
@[simp] theorem afterRead_inp (s : State) (b r) : (afterRead s b r).inp = s.inp := rfl
@[simp] theorem afterRead_out (s : State) (b r) : (afterRead s b r).out = s.out := rfl
@[simp] theorem afterRead_img (s : State) (b r) : (afterRead s b r).img = s.img := rfl
@[simp] theorem afterRead_draws (s : State) (b r) : (afterRead s b r).draws = s.draws + 1 := rfl
@[simp] theorem afterRead_foreground (s : State) (b r) : (afterRead s b r).foreground = s.foreground := rfl
@[simp] theorem afterRead_handlers (s : State) (b r) : (afterRead s b r).handlers = s.handlers := rfl
@[simp] theorem afterRead_dmas (s : State) (b r) : (afterRead s b r).dmas = s.dmas := rfl
@[simp] theorem afterRead_sched (s : State) (b r) : (afterRead s b r).sched = s.sched := rfl
@[simp] theorem afterRead_agent? (s : State) (b r id) : (afterRead s b r).agent? id = s.agent? id := by
  cases id <;> rfl

/-! ### `endSeq`, `afterLine`, `nameResponse` -/

@[simp] theorem endSeq_cfg (id res) (s : State) : (endSeq id res s).cfg = s.cfg := by simp [endSeq]
@[simp] theorem endSeq_inp (id res) (s : State) : (endSeq id res s).inp = s.inp := by simp [endSeq]
@[simp] theorem endSeq_out (id res) (s : State) : (endSeq id res s).out = s.out := by simp [endSeq]
@[simp] theorem endSeq_img (id res) (s : State) : (endSeq id res s).img = s.img := by simp [endSeq]
@[simp] theorem endSeq_pinIn (id res) (s : State) : (endSeq id res s).pinIn = s.pinIn := by simp [endSeq]
@[simp] theorem endSeq_draws (id res) (s : State) : (endSeq id res s).draws = s.draws + 1 := rfl
@[simp] theorem endSeq_sched (id res) (s : State) : (endSeq id res s).sched = s.sched := by simp [endSeq]

theorem endSeq_agent?_same {s : State} {id : AgentId} {ag : Agent} (h : s.agent? id = some ag)
    (res : Option SeqResult) :
    (endSeq id res s).agent? id = some (ag.finish res (Config.freeChoice s.draws)) := by
  have := State.agent?_mapAgent_same h fun ag => ag.finish res (Config.freeChoice s.draws)
  exact (State.agent?_congr rfl rfl rfl id).trans this

theorem endSeq_agent?_other {s : State} {id id' : AgentId} (h : id ≠ id') (res : Option SeqResult) :
    (endSeq id res s).agent? id' = s.agent? id' :=
  (State.agent?_congr rfl rfl rfl id').trans (State.agent?_mapAgent_other h _)

@[simp] theorem afterLine_cfg (id q l rest) (s : State) : (afterLine id q l rest s).cfg = s.cfg := by
  unfold afterLine; repeat' split
  all_goals simp
@[simp] theorem afterLine_inp (id q l rest) (s : State) : (afterLine id q l rest s).inp = s.inp := by
  unfold afterLine; repeat' split
  all_goals simp
@[simp] theorem afterLine_out (id q l rest) (s : State) : (afterLine id q l rest s).out = s.out := by
  unfold afterLine; repeat' split
  all_goals simp
@[simp] theorem afterLine_img (id q l rest) (s : State) : (afterLine id q l rest s).img = s.img := by
  unfold afterLine; repeat' split
  all_goals simp
@[simp] theorem afterLine_pinIn (id q l rest) (s : State) : (afterLine id q l rest s).pinIn = s.pinIn := by
  unfold afterLine; repeat' split
  all_goals simp
@[simp] theorem afterLine_sched (id q l rest) (s : State) : (afterLine id q l rest s).sched = s.sched := by
  unfold afterLine; repeat' split
  all_goals simp

theorem afterLine_agent?_other {s : State} {id id' : AgentId} (h : id ≠ id') (q l rest) :
    (afterLine id q l rest s).agent? id' = s.agent? id' := by
  unfold afterLine
  split
  · exact endSeq_agent?_other h _
  · split
    · exact endSeq_agent?_other h _
    · exact State.agent?_mapAgent_other h _

@[simp] theorem nameResponse_cfg (id n) (s : State) : (nameResponse id n s).cfg = s.cfg := by simp [nameResponse]
@[simp] theorem nameResponse_inp (id n) (s : State) : (nameResponse id n s).inp = s.inp := by simp [nameResponse]
@[simp] theorem nameResponse_out (id n) (s : State) : (nameResponse id n s).out = s.out := by simp [nameResponse]
@[simp] theorem nameResponse_img (id n) (s : State) : (nameResponse id n s).img = s.img := by simp [nameResponse]
@[simp] theorem nameResponse_pinIn (id n) (s : State) : (nameResponse id n s).pinIn = s.pinIn := by simp [nameResponse]
@[simp] theorem nameResponse_draws (id n) (s : State) : (nameResponse id n s).draws = s.draws := by simp [nameResponse]
@[simp] theorem nameResponse_sched (id n) (s : State) : (nameResponse id n s).sched = s.sched := by simp [nameResponse]

/-! ### `withFetchWord`, `resetOf` -/

@[simp] theorem State.withFetchWord_cfg (s : State) (n w) : (s.withFetchWord n w).cfg = s.cfg := rfl
@[simp] theorem State.withFetchWord_img (s : State) (n w) : (s.withFetchWord n w).img = s.img := rfl
@[simp] theorem State.withFetchWord_sched (s : State) (n w) :
    (s.withFetchWord n w).sched = .foreground :: s.sched := rfl
@[simp] theorem State.withFetchWord_handlers (s : State) (n w) : (s.withFetchWord n w).handlers = s.handlers := rfl
@[simp] theorem State.withFetchWord_dmas (s : State) (n w) : (s.withFetchWord n w).dmas = s.dmas := rfl

@[simp] theorem State.resetOf_cfg (P : Params) : (State.resetOf P).cfg = P := rfl
@[simp] theorem State.resetOf_img (P : Params) : (State.resetOf P).img = P.regReset := rfl

end Sys2Proof.Machine
end

