-- ==== Sys2Proof/Laws/Request.lean ====
section
/-! SUPPORT. What a request can do: `exec`, `present` and `bbfp` give the same outcomes, and a meaning
changes the output ports alone. -/

namespace Sys2Proof.Machine

/-- Every meaning is `answer` over the operation's response. -/
theorem exec_eq_answer (i : Instr) (s : State) : exec i s = answer i.op (respond s.cfg i s.inp) s := by
  cases i <;> rfl

/-- `answer` goes on exactly where there is a response, and then changes the output ports alone. -/
theorem answer_eq_next_iff {op : Op} {x : Except Precondition Response} {s t : State} :
    answer op x s = .next t ↔ ∃ r, x = .ok r ∧ t = { s with out := r } := by
  cases x with
  | ok r => simp [answer, eq_comm]
  | error c => simp [answer, raisePre]

/-- A meaning goes on exactly where the operation has a response, and then changes the output ports alone. -/
theorem exec_eq_next_iff {i : Instr} {s t : State} :
    exec i s = .next t ↔ ∃ r, respond s.cfg i s.inp = .ok r ∧ t = { s with out := r } := by
  rw [exec_eq_answer, answer_eq_next_iff]

/-- A meaning faults exactly where a precondition is violated. -/
theorem exec_eq_fault_iff {i : Instr} {s : State} {f : Fault} :
    exec i s = .fault f ↔ ∃ c, respond s.cfg i s.inp = .error c ∧ f = .preconditionViolation i.op c := by
  rw [exec_eq_answer]
  cases respond s.cfg i s.inp with
  | ok r => simp [answer]
  | error c => simp [answer, raisePre, eq_comm]

/-- No meaning refuses. -/
theorem exec_ne_refused (i : Instr) (s : State) (r : Refusal) : exec i s ≠ .refused r := by
  rw [exec_eq_answer]
  cases respond s.cfg i s.inp <;> simp [answer, raisePre]

/-- Presenting a request is `bbfp` put on the output ports (R9, R13). -/
theorem present_eq_bbfp (s : State) :
    present s = match bbfp s.cfg s.inp with
      | .response r => .next { s with out := r }
      | .illegal => .next { s with out := Response.illegal }
      | .pre op name => .fault (.preconditionViolation op name) := by
  unfold present bbfp
  cases decode s.inp.ctrl with
  | error e => rfl
  | ok i =>
    simp only [exec_eq_answer]
    cases respond s.cfg i s.inp <;> rfl

/-- A request changes the output ports alone. -/
theorem present_next {s t : State} (h : present s = .next t) : ∃ r, t = { s with out := r } := by
  unfold present at h
  split at h
  · exact ⟨_, by simpa using h.symm⟩
  · obtain ⟨r, -, rfl⟩ := exec_eq_next_iff.1 h
    exact ⟨r, rfl⟩

/-- The control-word port is not read by an operation once it is decoded. -/
theorem respond_ctrl (P : Params) (i : Instr) (q : Request) (c : Half) :
    respond P i { q with ctrl := c } = respond P i q := by
  cases i <;> rfl

end Sys2Proof.Machine
end

