-- ==== Sys2Proof/Laws/Platform.lean ====
section
/-! SUPPORT. What the constraints on the parameters give: blocks, registers and aliases are where the
formulas say, without wrapping. -/

namespace Sys2Proof.Machine

variable {P : Params}

theorem Params.bs_pos (h : P.RangesOk) : 0 < P.bs := by
  have := h.2.2.2.2.2.2.2.2.1
  omega

theorem Params.mod_bs (h : P.RangesOk) : ∃ k, P.bs = 2 ^ k := ⟨_, h.2.2.2.2.2.2.2.1⟩

/-- The block size is a multiple of the word size. -/
theorem Params.bs_mod_four (h : P.RangesOk) : P.bs % 4 = 0 := by
  obtain ⟨k, hk⟩ := Params.mod_bs h
  have hge : 4 ≤ P.bs := by have := h.2.2.2.2.2.2.2.2.1; omega
  match k, hk with
  | 0, hk => rw [hk] at hge; omega
  | 1, hk => rw [hk] at hge; omega
  | k + 2, hk => rw [hk, Nat.pow_add]; omega

theorem Reg.mem_all (r : Reg) : r ∈ Reg.all := by cases r <;> decide

theorem Params.off_aligned (h : P.Valid) (r : Reg) : P.off r % 4 = 0 := (h.2.1 r (Reg.mem_all r)).1

theorem Params.off_lt (h : P.Valid) (r : Reg) : P.off r + 4 ≤ P.bs := (h.2.1 r (Reg.mem_all r)).2

/-- Distinct registers have distinct offsets. -/
theorem Params.off_inj (h : P.Valid) {r r' : Reg} (e : P.off r = P.off r') : r = r' :=
  List.inj_on_of_nodup_map h.2.2 (Reg.mem_all r) (Reg.mem_all r') e

/-- A listed base is a multiple of the block size, and its block lies in the region. -/
theorem Params.base_spec (h : P.RangesOk) {base : Nat} (hb : base ∈ P.gpioBases) :
    base % P.bs = 0 ∧ P.rb ≤ base ∧ base + P.bs ≤ P.rb + P.rs := h.2.2.2.2.2.2.2.2.2 base hb

theorem Params.region_le (h : P.RangesOk) : P.rb + P.rs ≤ 2 ^ 32 := h.2.2.2.1
theorem Params.window_le (h : P.RangesOk) : P.ab + 32 * P.rs ≤ 2 ^ 32 := h.2.2.2.2.2.1

theorem blockOf_some {a : Addr} {base : Nat} (h : blockOf P a = some base) :
    base ∈ P.gpioBases ∧ base ≤ a.toNat ∧ a.toNat < base + P.bs := by
  have h1 := List.find?_some h
  simp only [Bool.and_eq_true, decide_eq_true_eq] at h1
  exact ⟨List.mem_of_find?_eq_some h, h1⟩

/-- An address in a listed block lies in no other. -/
theorem blockOf_eq (h : P.RangesOk) {a : Addr} {base : Nat} (hb : base ∈ P.gpioBases) (h1 : base ≤ a.toNat)
    (h2 : a.toNat < base + P.bs) : blockOf P a = some base := by
  cases hf : blockOf P a with
  | none =>
    have := List.find?_eq_none.1 hf base hb
    simp [h1, h2] at this
  | some b' =>
    obtain ⟨hb', h1', h2'⟩ := blockOf_some hf
    have m1 := (Params.base_spec h hb).1
    have m2 := (Params.base_spec h hb').1
    have hp := Params.bs_pos h
    have e1 : a.toNat / P.bs = base / P.bs := by
      obtain ⟨k, rfl⟩ := Nat.dvd_of_mod_eq_zero m1
      rw [Nat.mul_div_cancel_left _ hp]
      exact Nat.div_eq_of_lt_le (by rw [Nat.mul_comm]; exact h1) (by rw [Nat.succ_mul, Nat.mul_comm]; exact h2)
    have e2 : a.toNat / P.bs = b' / P.bs := by
      obtain ⟨k, rfl⟩ := Nat.dvd_of_mod_eq_zero m2
      rw [Nat.mul_div_cancel_left _ hp]
      exact Nat.div_eq_of_lt_le (by rw [Nat.mul_comm]; exact h1') (by rw [Nat.succ_mul, Nat.mul_comm]; exact h2')
    have d1 := Nat.div_add_mod base P.bs
    have d2 := Nat.div_add_mod b' P.bs
    rw [← e1, m1] at d1
    rw [← e2, m2] at d2
    rw [← d1, ← d2]

theorem regAt_off (h : P.Valid) (r : Reg) : regAt P (P.off r) = some r := by
  cases hf : regAt P (P.off r) with
  | none => exact absurd (List.find?_eq_none.1 hf r (Reg.mem_all r)) (by simp)
  | some r' =>
    have h1 := List.find?_some hf
    simp only [decide_eq_true_eq] at h1
    rw [Params.off_inj h h1]

theorem regAt_some {o : Nat} {r : Reg} (hf : regAt P o = some r) : P.off r = o := by
  have h1 := List.find?_some hf
  simpa using h1

/-- The address of a register of a listed block does not wrap. -/
theorem regAddr_toNat (h : P.Valid) {base : Nat} (hb : base ∈ P.gpioBases) (r : Reg) :
    (regAddr P (BitVec.ofNat 32 base) r).toNat = base + P.off r := by
  have h1 := Params.base_spec h.1 hb
  have h2 := Params.off_lt h r
  have h3 := Params.region_le h.1
  simp only [regAddr, BitVec.toNat_add, BitVec.toNat_ofNat]
  omega

theorem regAddr_aligned (h : P.Valid) {base : Nat} (hb : base ∈ P.gpioBases) (r : Reg) :
    (regAddr P (BitVec.ofNat 32 base) r).toNat % 4 = 0 := by
  rw [regAddr_toNat h hb]
  have h1 := (Params.base_spec h.1 hb).1
  have h2 := Params.off_aligned h r
  have h3 := Params.bs_mod_four h.1
  obtain ⟨k, rfl⟩ := Nat.dvd_of_mod_eq_zero h1
  obtain ⟨j, hj⟩ := Nat.dvd_of_mod_eq_zero h3
  have : P.bs * k % 4 = 0 := by rw [hj, Nat.mul_assoc]; omega
  omega

theorem locate_regAddr (h : P.Valid) {base : Nat} (hb : base ∈ P.gpioBases) (r : Reg) :
    blockOf P (regAddr P (BitVec.ofNat 32 base) r) = some base ∧
    regAt P ((regAddr P (BitVec.ofNat 32 base) r).toNat - base) = some r := by
  have e := regAddr_toNat h hb r
  have l := Params.off_lt h r
  refine ⟨blockOf_eq h.1 hb (by omega) (by omega), ?_⟩
  rw [e, Nat.add_sub_cancel_left, regAt_off h]

/-- An aligned offset of a listed block: its address does not wrap, and lies in that block. -/
theorem block_offset (h : P.RangesOk) {base o : Nat} (hb : base ∈ P.gpioBases) (h4 : o % 4 = 0) (ho : o < P.bs) :
    (BitVec.ofNat 32 (base + o)).toNat = base + o ∧ blockOf P (BitVec.ofNat 32 (base + o)) = some base ∧
      (BitVec.ofNat 32 (base + o)).toNat % 4 = 0 := by
  obtain ⟨m, l1, l2⟩ := Params.base_spec h hb
  have hl := Params.region_le h
  have e : (BitVec.ofNat 32 (base + o)).toNat = base + o := by simp only [BitVec.toNat_ofNat]; omega
  refine ⟨e, blockOf_eq h hb (by omega) (by omega), ?_⟩
  rw [e]
  have h3 := Params.bs_mod_four h
  obtain ⟨k, rfl⟩ := Nat.dvd_of_mod_eq_zero m
  obtain ⟨j, hj⟩ := Nat.dvd_of_mod_eq_zero h3
  have : P.bs * k % 4 = 0 := by rw [hj, Nat.mul_assoc]; omega
  omega

/-- A word of a block is at the address of its register. -/
theorem eq_regAddr (h : P.Valid) {a : Addr} {base : Nat} {r : Reg} (hb : blockOf P a = some base)
    (hr : regAt P (a.toNat - base) = some r) : a = regAddr P (BitVec.ofNat 32 base) r := by
  obtain ⟨hm, h1, h2⟩ := blockOf_some hb
  have e := regAt_some hr
  refine BitVec.eq_of_toNat_eq ?_
  rw [regAddr_toNat h hm]
  omega

/-! ### Aliases -/

theorem aliasOf_toNat (h : P.RangesOk) {a : Addr} (ha : inRegion P a) (b : BitVec 5) :
    a.toNat % 4 = 0 → (aliasOf P a b).toNat = P.ab + (a.toNat - P.rb) * 32 + b.toNat * 4 := by
  intro h4
  have h1 := Params.window_le h
  have hb := b.isLt
  have hm1 := h.1
  have hm2 := h.2.1
  obtain ⟨l1, l2⟩ := ha
  simp only [aliasOf, BitVec.toNat_ofNat, Config.bbMult, Config.bbStride]
  omega

theorem aliasOf_inWindow (h : P.RangesOk) {a : Addr} (ha : inRegion P a) (h4 : a.toNat % 4 = 0) (b : BitVec 5) :
    inWindow P (aliasOf P a b) := by
  have e := aliasOf_toNat h ha b h4
  have hb := b.isLt
  have hm1 := h.1
  have hm2 := h.2.1
  obtain ⟨l1, l2⟩ := ha
  constructor <;> omega

theorem aliasOf_aligned (h : P.RangesOk) {a : Addr} (ha : inRegion P a) (h4 : a.toNat % 4 = 0) (b : BitVec 5) :
    (aliasOf P a b).toNat % 4 = 0 := by
  have e := aliasOf_toNat h ha b h4
  have hm := h.2.2.2.2.1
  omega

/-- Reverse after forward: the register word. -/
theorem aliasReg_aliasOf (h : P.RangesOk) {a : Addr} (ha : inRegion P a) (h4 : a.toNat % 4 = 0) (b : BitVec 5) :
    aliasReg P (aliasOf P a b) = a := by
  have e := aliasOf_toNat h ha b h4
  have hb := b.isLt
  have hm1 := h.1
  have hl := Params.region_le h
  obtain ⟨l1, l2⟩ := ha
  refine BitVec.eq_of_toNat_eq ?_
  simp only [aliasReg, e, BitVec.toNat_ofNat]
  omega

/-- Reverse after forward: the bit. -/
theorem aliasBit_aliasOf (h : P.RangesOk) {a : Addr} (ha : inRegion P a) (h4 : a.toNat % 4 = 0) (b : BitVec 5) :
    aliasBit P (aliasOf P a b) = b := by
  have e := aliasOf_toNat h ha b h4
  have hb := b.isLt
  have hm1 := h.1
  obtain ⟨l1, l2⟩ := ha
  refine BitVec.eq_of_toNat_eq ?_
  simp only [aliasBit, e, BitVec.toNat_ofNat]
  omega

theorem aliasReg_toNat (h : P.RangesOk) {y : Addr} (hy : inWindow P y) :
    (aliasReg P y).toNat = P.rb + (y.toNat - P.ab) / 128 * 4 := by
  have hl := Params.region_le h
  have hm2 := h.2.1
  obtain ⟨l1, l2⟩ := hy
  simp only [aliasReg, BitVec.toNat_ofNat]
  omega

theorem aliasReg_aligned (h : P.RangesOk) {y : Addr} (hy : inWindow P y) : (aliasReg P y).toNat % 4 = 0 := by
  have e := aliasReg_toNat h hy
  have hm := h.1
  omega

theorem aliasReg_inRegion (h : P.RangesOk) {y : Addr} (hy : inWindow P y) : inRegion P (aliasReg P y) := by
  have e := aliasReg_toNat h hy
  have hm2 := h.2.1
  obtain ⟨l1, l2⟩ := hy
  constructor <;> omega

theorem aliasBit_toNat (y : Addr) : (aliasBit P y).toNat = (y.toNat - P.ab) / 4 % 32 := by
  simp only [aliasBit, BitVec.toNat_ofNat]
  omega

/-- The address of a register, as a number. -/
theorem ofNat_regAddr (P : Params) (base : Nat) (r : Reg) :
    BitVec.ofNat 32 (base + P.off r) = regAddr P (BitVec.ofNat 32 base) r := by
  simp [regAddr, BitVec.ofNat_add]

/-- The alias of a bit of a register, as a number. -/
theorem ofNat_aliasOf (h : P.Valid) {base : Nat} (hb : base ∈ P.gpioBases) (r : Reg) (b : BitVec 5) :
    BitVec.ofNat 32 (P.ab + (base + P.off r - P.rb) * 32 + b.toNat * 4) =
      aliasOf P (regAddr P (BitVec.ofNat 32 base) r) b := by
  simp only [aliasOf, regAddr_toNat h hb]

/-- Forward after reverse. -/
theorem aliasOf_aliasReg (h : P.RangesOk) {y : Addr} (hy : inWindow P y) (h4 : y.toNat % 4 = 0) :
    aliasOf P (aliasReg P y) (aliasBit P y) = y := by
  have e := aliasOf_toNat h (aliasReg_inRegion h hy) (aliasBit P y) (aliasReg_aligned h hy)
  rw [aliasReg_toNat h hy, aliasBit_toNat] at e
  have hm := h.2.2.2.2.1
  obtain ⟨l1, l2⟩ := hy
  refine BitVec.eq_of_toNat_eq ?_
  omega

/-- Masking an address down to the block size (R73). -/
theorem blockBase_toNat (h : P.RangesOk) (a : Addr) : (blockBase P a).toNat = a.toNat - a.toNat % P.bs := by
  obtain ⟨k, hk⟩ := Params.mod_bs h
  have e : blockBase P a = (a >>> k) <<< k := by
    refine BitVec.eq_of_getLsbD_eq fun i hi => ?_
    simp only [blockBase, hk, BitVec.getLsbD_and, BitVec.getLsbD_not, BitVec.getLsbD_ofNat,
      BitVec.getLsbD_shiftLeft, BitVec.getLsbD_ushiftRight, Nat.testBit_two_pow_sub_one, hi, decide_true,
      Bool.true_and]
    by_cases hik : i < k
    · simp [hik]
    · simp [hik, Nat.add_sub_cancel' (Nat.le_of_not_lt hik)]
  have hd := Nat.div_add_mod a.toNat (2 ^ k)
  rw [e, hk]
  simp only [BitVec.toNat_shiftLeft, BitVec.toNat_ushiftRight, Nat.shiftLeft_eq, Nat.shiftRight_eq_div_pow]
  rw [Nat.mul_comm, Nat.mod_eq_of_lt (by have := a.isLt; omega)]
  omega

end Sys2Proof.Machine
end

