-- ==== Sys2Proof/Laws/Bus.lean ====
section
/-! SUPPORT. What a bus access can do, said once: a read leaves the image as it is, a write changes at most
one word, of a register that may be written, and leaves that word's placeholder bits. -/

namespace Sys2Proof.Machine

/-! ### Reads -/

theorem mixDrawn_getLsbD (x free m : Word) (b : Nat) :
    (mixDrawn x free m).getLsbD b = if m.getLsbD b then free.getLsbD b else x.getLsbD b := by
  unfold mixDrawn
  split
  · rename_i h; simp [h]
  · simp only [BitVec.getLsbD_or, BitVec.getLsbD_and, BitVec.getLsbD_not]
    by_cases hb : b < 32
    · simp only [hb, decide_true, Bool.true_and]
      cases m.getLsbD b <;> simp
    · simp [BitVec.getLsbD_of_ge x b (by omega), BitVec.getLsbD_of_ge free b (by omega)]

/-- An alias read's bit is the bit of the word a read of the register returns at that point (R33). -/
theorem regWord_getLsbD (s : State) (r : Option Reg) (a : Addr) (b : BitVec 5) :
    (regWord s r a).getLsbD b.toNat = regBit s r a b := mixDrawn_getLsbD ..

/-- A read changes nothing but the draws and the last drawn pin levels (R32). -/
theorem memRead_ok {s t : State} {n : Nat} {addr : Addr} {w : Word} (h : memRead s n addr = .ok (w, t)) :
    ∃ base r, t = afterRead s base r := by
  unfold memRead at h
  split at h
  · cases h
  · simp only [Except.ok.injEq, Prod.mk.injEq] at h; exact ⟨_, _, h.2.symm⟩
  · split at h
    · cases h
    · simp only [Except.ok.injEq, Prod.mk.injEq] at h; exact ⟨_, _, h.2.symm⟩

/-! ### Writes -/

theorem target_reg {P : Params} {n : Nat} {addr a : Addr} {base : Nat} {r : Option Reg}
    (h : target P n addr = .ok (.reg base r a)) :
    n = 4 ∧ wordAligned addr ∧ ¬ inWindow P addr ∧ a = addr ∧ blockOf P a = some base ∧
      r = regAt P (a.toNat - base) := by
  unfold target at h
  by_cases h1 : n ≠ Config.wordBytes
  · rw [if_pos h1] at h; cases h
  by_cases h2 : ¬ wordAligned addr
  · rw [if_neg h1, if_pos h2] at h; cases h
  rw [if_neg h1, if_neg h2] at h
  by_cases h3 : inWindow P addr
  · rw [if_pos h3] at h; split at h <;> simp at h
  rw [if_neg h3] at h
  split at h
  · cases h
  · rename_i hb
    simp only [Except.ok.injEq, Target.reg.injEq] at h
    obtain ⟨rfl, rfl, rfl⟩ := h
    exact ⟨not_not.1 h1, not_not.1 h2, h3, rfl, hb, rfl⟩

theorem target_bit {P : Params} {n : Nat} {addr a : Addr} {base : Nat} {r : Option Reg} {b : BitVec 5}
    (h : target P n addr = .ok (.bit base r a b)) :
    n = 4 ∧ wordAligned addr ∧ inWindow P addr ∧ a = aliasReg P addr ∧ b = aliasBit P addr ∧
      blockOf P a = some base ∧ r = regAt P (a.toNat - base) := by
  unfold target at h
  by_cases h1 : n ≠ Config.wordBytes
  · rw [if_pos h1] at h; cases h
  by_cases h2 : ¬ wordAligned addr
  · rw [if_neg h1, if_pos h2] at h; cases h
  rw [if_neg h1, if_neg h2] at h
  by_cases h3 : inWindow P addr
  · rw [if_pos h3] at h
    split at h
    · cases h
    · rename_i hb
      simp only [Except.ok.injEq, Target.bit.injEq] at h
      obtain ⟨rfl, rfl, rfl, rfl⟩ := h
      exact ⟨not_not.1 h1, not_not.1 h2, h3, rfl, rfl, hb, rfl⟩
  · rw [if_neg h3] at h; split at h <;> simp at h

theorem storedWord_placeholder (r : Reg) (old v : Word) :
    storedWord r old v &&& placeholderMask r = old &&& placeholderMask r := by
  unfold storedWord
  refine BitVec.eq_of_getLsbD_eq fun i hi => ?_
  simp only [BitVec.getLsbD_or, BitVec.getLsbD_and, BitVec.getLsbD_not, hi, decide_true, Bool.true_and]
  cases (placeholderMask r).getLsbD i <;> simp

/-- The output-data word after a BSRR write, bit by bit (R36). -/
theorem setReset_getLsbD {odr w : Word} {i : Nat} (hi : i < 32) :
    (setReset odr w).getLsbD i =
      if i < 16 then (if w.getLsbD (16 + i) then false else if w.getLsbD i then true else odr.getLsbD i)
      else odr.getLsbD i := by
  have hF : (0xFFFF#32).getLsbD i = decide (i < 16) := by
    have : ∀ j : Fin 32, (0xFFFF#32).getLsbD j.val = decide (j.val < 16) := by decide
    exact this ⟨i, hi⟩
  simp only [setReset, BitVec.getLsbD_and, BitVec.getLsbD_or, BitVec.getLsbD_not, BitVec.getLsbD_ushiftRight,
    hF, hi, decide_true, Bool.true_and]
  by_cases h16 : i < 16
  · cases w.getLsbD (16 + i) <;> cases w.getLsbD i <;> simp [h16]
  · have : w.getLsbD (16 + i) = false := BitVec.getLsbD_of_ge _ _ (by omega)
    simp [h16, this]

/-- One bit, shifted: only that bit is set. -/
theorem one_shift_getLsbD {n i : Nat} (hi : i < 32) :
    (1#32 <<< n).getLsbD i = decide (i = n) := by
  simp only [BitVec.getLsbD_shiftLeft, BitVec.getLsbD_one, hi, decide_true, Bool.true_and]
  by_cases hlt : i < n
  · simp [hlt]; omega
  · simp [hlt]; omega

/-- The output-data word after an `SRENC` word for pin `p` is written to BSRR: that pin alone is changed
(R36, R83). -/
theorem setReset_one_shift {odr : Word} {p : Nat} (hp : p < 16) (x : Bool) {k : Nat} (hk : k < 32) :
    (setReset odr (1#32 <<< (if x then p else p + 16))).getLsbD k = if k = p then x else odr.getLsbD k := by
  rw [setReset_getLsbD hk]
  by_cases h16 : k < 16
  · rw [if_pos h16, one_shift_getLsbD (by omega), one_shift_getLsbD (by omega)]
    cases x
    · by_cases e : k = p
      · subst e; simp [Nat.add_comm]
      · simp [e, show ¬ 16 + k = p + 16 by omega, show ¬ k = p + 16 by omega]
    · by_cases e : k = p
      · subst e; simp
      · simp [e, show ¬ 16 + k = p by omega]
  · rw [if_neg h16, if_neg (by omega)]

theorem setReset_placeholder (odr w : Word) :
    setReset odr w &&& placeholderMask .odr = odr &&& placeholderMask .odr := by
  refine BitVec.eq_of_getLsbD_eq fun i hi => ?_
  have hF : (placeholderMask .odr).getLsbD i = decide (16 ≤ i) := by
    have : ∀ j : Fin 32, (placeholderMask .odr).getLsbD j.val = decide (16 ≤ j.val) := by decide
    exact this ⟨i, hi⟩
  simp only [BitVec.getLsbD_and, setReset_getLsbD hi, hF]
  by_cases h16 : i < 16
  · simp [show ¬ 16 ≤ i by omega]
  · simp [h16]

theorem putBit_getLsbD (x : Word) (b : BitVec 5) (v : Bool) (i : Nat) :
    (putBit x b v).getLsbD i = if i = b.toNat then v else x.getLsbD i := by
  have hb : b.toNat < 32 := b.isLt
  by_cases hi : i < 32
  · have h1 : (1#32 <<< b.toNat).getLsbD i = decide (i = b.toNat) := by
      simp only [BitVec.getLsbD_shiftLeft, BitVec.getLsbD_one, hi, decide_true, Bool.true_and]
      by_cases hlt : i < b.toNat
      · simp [hlt]; omega
      · simp [hlt]; omega
    unfold putBit
    cases v
    · simp only [Bool.false_eq_true, if_false, BitVec.getLsbD_and, BitVec.getLsbD_not, h1, hi, decide_true,
        Bool.true_and]
      by_cases e : i = b.toNat <;> simp [e]
    · simp only [if_true, BitVec.getLsbD_or, h1]
      by_cases e : i = b.toNat <;> simp [e]
  · rw [BitVec.getLsbD_of_ge _ i (by omega), BitVec.getLsbD_of_ge x i (by omega), if_neg (by omega)]

/-- The bit keeps what stands in the placeholder bits, where the alias write is admitted. -/
theorem putBit_placeholder {r : Reg} {b : BitVec 5} (h : bitWriteRefused (some r) b = none) (x : Word) (v : Bool) :
    r ≠ .idr ∧ r ≠ .bsrr ∧ r ≠ .lckr ∧ putBit x b v &&& placeholderMask r = x &&& placeholderMask r := by
  have key : ∀ m : Word, m.getLsbD b.toNat = false → putBit x b v &&& m = x &&& m := by
    intro m hm
    refine BitVec.eq_of_getLsbD_eq fun i hi => ?_
    rw [BitVec.getLsbD_and, BitVec.getLsbD_and, putBit_getLsbD]
    by_cases e : i = b.toNat
    · subst e; simp [hm]
    · simp [e]
  cases r <;> simp_all [bitWriteRefused]

/-- The word a write may change: that of a register R21 lets be written, its placeholder bits kept; or a word of a
block where R21 places no register. -/
inductive WordWritten (P : Params) (m : List Host.Cell) (base : Nat) (a : Addr) (w : Word) : Prop where
  | register (r : Reg) (hidr : r ≠ .idr) (hbsrr : r ≠ .bsrr) (hlckr : r ≠ .lckr)
      (ha : a = regAddr P (BitVec.ofNat 32 base) r)
      (hw : w &&& placeholderMask r = Memory.word m a &&& placeholderMask r)
  | spare (hb : blockOf P a = some base) (h4 : a.toNat % 4 = 0) (hr : regAt P (a.toNat - base) = none)

/-- What a direct write does. -/
theorem writeReg_ok {s t : State} (hv : s.cfg.Valid) {base : Nat} {r : Option Reg} {a : Addr} {v : Word}
    (hb : blockOf s.cfg a = some base) (h4 : a.toNat % 4 = 0) (hr : r = regAt s.cfg (a.toNat - base))
    (h : writeReg s base r a v = .ok t) :
    ∃ a' w, base ∈ s.cfg.gpioBases ∧ t = { s with img := Memory.setWord s.img a' w } ∧
      WordWritten s.cfg s.img base a' w := by
  have hm := (blockOf_some hb).1
  unfold writeReg at h
  split at h
  any_goals cases h
  · exact ⟨a, v, hm, rfl, .spare hb h4 hr.symm⟩
  · split at h
    · cases h
    · exact ⟨_, _, hm, by simpa using h.symm,
        .register .odr (by decide) (by decide) (by decide) rfl (setReset_placeholder ..)⟩
  · rename_i r' h1 h2 h3
    exact ⟨a, _, hm, rfl, .register r' (fun e => h1 (by rw [e])) (fun e => h3 (by rw [e])) (fun e => h2 (by rw [e]))
      (eq_regAddr hv hb hr.symm) (storedWord_placeholder ..)⟩

/-- Some pin has both its bits in the word, bit by bit (R37). -/
theorem bothBits_iff (w : Word) :
    bothBits w = true ↔ ∃ i, i < 16 ∧ w.getLsbD i = true ∧ w.getLsbD (16 + i) = true := by
  have hF : ∀ i, i < 32 → (0xFFFF#32).getLsbD i = decide (i < 16) := by
    have : ∀ j : Fin 32, (0xFFFF#32).getLsbD j.val = decide (j.val < 16) := by decide
    intro i hi; exact this ⟨i, hi⟩
  have hbit : ∀ i, i < 32 → ((w &&& (w >>> 16)) &&& 0xFFFF#32).getLsbD i =
      (w.getLsbD i && w.getLsbD (16 + i) && decide (i < 16)) := by
    intro i hi
    simp only [BitVec.getLsbD_and, BitVec.getLsbD_ushiftRight, hF i hi]
  unfold bothBits
  rw [decide_eq_true_iff]
  constructor
  · intro hne
    by_contra hn
    apply hne
    refine BitVec.eq_of_getLsbD_eq fun i hi => ?_
    rw [hbit i hi]
    by_cases h16 : i < 16
    · have := mt (fun hh => ⟨i, h16, hh⟩) hn
      simp only [h16, decide_true, Bool.and_true]
      cases h1 : w.getLsbD i <;> cases h2 : w.getLsbD (16 + i) <;> simp_all
    · simp [h16]
  · rintro ⟨i, hi, h1, h2⟩ he
    have := hbit i (by omega)
    rw [he] at this
    simp [h1, h2, hi] at this

/-- What a bus write does, over all its forms: direct, set/reset, and by alias. -/
theorem memWrite_ok {s t : State} (hv : s.cfg.Valid) {n : Nat} {addr : Addr} {v : Word}
    (h : memWrite s n addr v = .ok t) :
    ∃ base a w, base ∈ s.cfg.gpioBases ∧ t = { s with img := Memory.setWord s.img a w } ∧
      WordWritten s.cfg s.img base a w := by
  unfold memWrite at h
  split at h
  · cases h
  · rename_i ht
    obtain ⟨-, h4, -, rfl, hb, hr⟩ := target_reg ht
    exact ⟨_, writeReg_ok hv hb h4 hr h⟩
  · rename_i base r a b ht
    obtain ⟨-, -, hy, rfl, -, hb, hr⟩ := target_bit ht
    unfold writeBit at h
    split at h
    · cases h
    · rename_i hn
      refine ⟨_, _, putBit (Memory.word s.img _) b (v.getLsbD 0), (blockOf_some hb).1, (Except.ok.inj h).symm, ?_⟩
      cases r with
      | none => exact .spare hb (aliasReg_aligned hv.1 hy) hr.symm
      | some r =>
        obtain ⟨h1, h2, h3, h4⟩ := putBit_placeholder hn (Memory.word s.img (aliasReg s.cfg addr)) (v.getLsbD 0)
        exact .register r h1 h2 h3 (eq_regAddr hv hb hr.symm) h4

/-- A write never changes anything but the image. -/
theorem memWrite_frame {s t : State} {n : Nat} {addr : Addr} {v : Word} (h : memWrite s n addr v = .ok t) :
    ∃ m, t = { s with img := m } := by
  unfold memWrite writeReg writeBit at h
  repeat' split at h
  all_goals first | exact ⟨_, (Except.ok.inj h).symm⟩ | cases h

/-- Which accesses have no step is a matter of the parameters alone. -/
theorem memRead_error {s s' : State} (hc : s'.cfg = s.cfg) {n : Nat} {a : Addr} {f : Fault}
    (h : memRead s n a = .error f) : memRead s' n a = .error f := by
  unfold memRead at h ⊢
  rw [hc]
  cases ht : target s.cfg n a with
  | error e => rw [ht] at h; exact h
  | ok x =>
    rw [ht] at h
    cases x with
    | reg base r a => cases h
    | bit base r a b =>
      dsimp only at h ⊢
      split at h
      · rename_i hr; rw [if_pos hr]; exact h
      · cases h

theorem memWrite_error {s s' : State} (hc : s'.cfg = s.cfg) {n : Nat} {a : Addr} {v : Word} {f : Fault}
    (h : memWrite s n a v = .error f) : memWrite s' n a v = .error f := by
  unfold memWrite at h ⊢
  rw [hc]
  cases ht : target s.cfg n a with
  | error e => rw [ht] at h; exact h
  | ok x =>
    rw [ht] at h
    cases x with
    | reg base r a =>
      dsimp only at h ⊢
      unfold writeReg at h ⊢
      split at h <;> first | exact h | cases h | skip
      split at h
      · rename_i hb; rw [if_pos hb]; exact h
      · cases h
    | bit base r a b =>
      dsimp only at h ⊢
      unfold writeBit at h ⊢
      split at h
      · exact h
      · cases h

end Sys2Proof.Machine
end

