-- ==== Sys2Proof/Laws/Checks.lean ====
section
/-! SUPPORT. The static checks: what a well-formed list is made of, and that what is left of a program whose lines
passed the checks passes them, although less is then known of its names. -/

namespace Sys2Proof.Machine

/-! ### Lists -/

theorem checkItems_cons {P : Params} {env : StaticNames} {i : Item} {is : List Item} :
    checkItems P env (i :: is) = none ↔ checkItem P env i = none ∧ checkItems P (env.afterItem P i) is = none := by
  simp only [checkItems]; split
  · rename_i c hc; simp [hc]
  · rename_i hc; simp [hc]

/-- An item of a list that passes passes, with some names before it. -/
theorem checkItems_mem {P : Params} {is : List Item} : ∀ {env : StaticNames}, checkItems P env is = none →
    ∀ {i}, i ∈ is → ∃ env', checkItem P env' i = none := by
  induction is with
  | nil => intro _ _ i hi; cases hi
  | cons x is ih =>
    intro env h i hi
    obtain ⟨h1, h2⟩ := checkItems_cons.1 h
    rcases List.mem_cons.1 hi with rfl | hi
    · exact ⟨env, h1⟩
    · exact ih h2 hi

theorem checkSeqs_cons {P : Params} {q : AccessSeq} {qs : List AccessSeq} :
    checkSeqs P (q :: qs) = none ↔ checkSeq P q = none ∧ checkSeqs P qs = none := by
  simp only [checkSeqs]; split
  · rename_i c hc; simp [hc]
  · rename_i hc; simp [hc]

theorem checkAgents_eq_none {P : Params} {l : List Agent} :
    checkAgents P l = none ↔ ∀ ag ∈ l, checkAgent P ag = none := by
  induction l with
  | nil => simp [checkAgents]
  | cons a l ih =>
    simp only [checkAgents, List.mem_cons, forall_eq_or_imp]
    split
    · rename_i c hc; simp [hc]
    · rename_i hc; simp [hc, ih]

/-- The steps of a `configure` in progress. -/
def Agent.confSteps (ag : Agent) : List AccessSeq := match ag.conf with | some c => c.steps | none => []

theorem checkAgent_eq (P : Params) (ag : Agent) : checkAgent P ag = match checkSeqs P ag.confSteps with
    | some c => some c
    | none => checkItems P (namesOf P ag) ag.code := rfl

theorem checkAgent_eq_none {P : Params} {ag : Agent} :
    checkAgent P ag = none ↔ checkSeqs P ag.confSteps = none ∧ checkItems P (namesOf P ag) ag.code = none := by
  rw [checkAgent_eq]; split
  · rename_i c hc; simp [hc]
  · rename_i hc; simp [hc]

/-- A set by `FSET` that passes: its row, its width, and its valid set where `E = 1`. -/
theorem checkWideSet_eq_none {P : Params} {w : Width} {e : Bool} {reg : Addr} {sh : BitVec 5}
    {v : Option ProgramCheck} :
    checkWideSet P w e reg sh v = none ↔ checkSet P reg sh w = none ∧ w ≠ .w1 ∧ (e = true → v = none) := by
  unfold checkWideSet
  split
  · rename_i c hc; simp [hc]
  · rename_i hc
    by_cases h1 : w = .w1
    · simp [h1]
    · cases e <;> simp [h1, hc]

/-! ### What is known of the names -/

/-- No more is known of the first than of the second, and nothing else. -/
def Static.Le {α : Type} (a b : Static α) : Prop := a = .earlier ∨ a = b

theorem Static.Le.rfl' {α : Type} (a : Static α) : Static.Le a a := .inr rfl
theorem Static.Le.earlier {α : Type} (a : Static α) : Static.Le .earlier a := .inl rfl

theorem Static.Le.map {α β : Type} {a b : Static α} (h : a.Le b) (f : α → β) : (a.map f).Le (b.map f) := by
  obtain rfl | rfl := h
  · exact .inl rfl
  · exact .inr rfl

theorem Static.Le.bind {α β : Type} {a b : Static α} (h : a.Le b) {f g : α → Static β} (hf : ∀ x, (f x).Le (g x)) :
    (a.bind f).Le (b.bind g) := by
  obtain rfl | rfl := h
  · exact .inl rfl
  · cases a with
    | known x => exact hf x
    | _ => exact .inr rfl

theorem Static.Le.lost {α β : Type} {a b : Static α} (h : a.Le b) : (a.lost : Static β).Le b.lost := by
  obtain rfl | rfl := h
  · exact .inl rfl
  · exact .inr rfl

theorem Static.Le.check {α : Type} {a b : Static α} (h : a.Le b) {c : ProgramCheck}
    {f g : α → Option ProgramCheck} (hfg : ∀ x, g x = none → f x = none) (hb : b.check c g = none) :
    a.check c f = none := by
  obtain rfl | rfl := h
  · rfl
  · cases a with
    | known x => exact hfg x hb
    | earlier => rfl
    | notStatic => cases hb

/-- No more is known of any name. -/
structure StaticNames.Le (e e' : StaticNames) : Prop where
  asked  : ∀ n, (e.asked n).Le (e'.asked n)
  addr   : ∀ n, (e.addr n).Le (e'.addr n)
  mask   : ∀ n, (e.mask n).Le (e'.mask n)
  source : ∀ n, (e.source n).Le (e'.source n)

theorem StaticNames.Le.rfl' (e : StaticNames) : StaticNames.Le e e :=
  ⟨fun _ => .rfl' _, fun _ => .rfl' _, fun _ => .rfl' _, fun _ => .rfl' _⟩

variable {P : Params} {e e' : StaticNames}

theorem StaticNames.Le.y (h : e.Le e') (n : Name) : (e.y P n).Le (e'.y P n) :=
  (h.asked n).bind fun _ => (h.addr n).bind fun _ => .rfl' _

theorem NarrowOperand.static_le (h : e.Le e') (o : NarrowOperand) :
    (NarrowOperand.static e o).Le (NarrowOperand.static e' o) := by
  cases o <;> first | exact .rfl' _ | exact (h.asked _).lost | exact (h.source _).lost

theorem Operand.static_le (h : e.Le e') (o : Operand) : (Operand.static P e o).Le (Operand.static P e' o) := by
  cases o with
  | lit x => exact .rfl' _
  | y n => exact h.y n
  | wd n => exact (h.asked n).lost
  | word n => exact (h.source n).lost
  | narrow o => exact (NarrowOperand.static_le h o).map _
  | regOf n r => exact (h.y n).map _

theorem handleOf_le (h : e.Le e') (o : Operand) : (handleOf P e o).Le (handleOf P e' o) := by
  cases o with
  | lit x => exact .rfl' _
  | y n =>
    refine (h.asked n).bind fun i => ?_
    cases i with
    | none => exact .rfl' _
    | some i => cases i <;> first | exact .rfl' _ | exact (h.addr n).bind fun _ => .rfl' _
  | wd n => exact (h.asked n).lost
  | word n => exact (h.source n).lost
  | narrow o => exact (NarrowOperand.static_le h o).map _
  | regOf n r => exact (h.asked n).lost

/-- Less known, an operand is the `Y` of the same `TOALIAS`, or the text does not say any more what it is. -/
theorem toaliasOf_le (h : e.Le e') (o : Operand) :
    (toaliasOf e o = none ∧ (toaliasOf e' o = none ∨ Operand.static P e o = .earlier)) ∨
    ∃ b a a', toaliasOf e o = some (b, a) ∧ toaliasOf e' o = some (b, a') ∧ a.Le a' := by
  cases o with
  | y n =>
    have h2 := h.addr n
    obtain h1 | h1 := h.asked n
    · exact .inl ⟨by simp [toaliasOf, h1], .inr (by simp [Operand.static, StaticNames.y, h1, Static.bind])⟩
    · simp only [toaliasOf, h1]
      split
      · exact .inr ⟨_, _, _, rfl, rfl, h2⟩
      · exact .inl ⟨rfl, .inl rfl⟩
  | _ => exact .inl ⟨rfl, .inl rfl⟩

/-- A line passes its check where less is known of the names. -/
theorem checkLine_le (h : e.Le e') {l : Line} (hc : checkLine P e' l = none) : checkLine P e l = none := by
  cases l with
  | request dst ctrl a d v m =>
    simp only [checkLine] at hc ⊢
    have ha := Operand.static_le (P := P) h a
    have hm := NarrowOperand.static_le h m
    generalize decode ctrl = x at hc ⊢
    cases x with
    | error _ => rfl
    | ok i =>
      cases i with
      | pinlookup => exact (handleOf_le h a).check (fun _ h => h) hc
      | fget w sh =>
        cases d with
        | word n => exact (h.source n).check (fun _ h => h) hc
        | _ => rfl
      | fset w b sh =>
        cases b
        · rfl
        · simp only [checkMask] at hc ⊢
          obtain ha | ha := ha
          · rw [ha]
          · rw [ha]
            revert hc
            cases Operand.static P e' a with
            | known reg =>
              dsimp only
              cases locate P reg with
              | none => exact fun _ => rfl
              | some _ => exact fun hc => hm.check (fun _ h => h) hc
            | _ => exact fun _ => rfl
      | _ => rfl
  | ld dst n addr =>
    simp only [checkLine] at hc ⊢
    obtain ⟨h1, h2⟩ | ⟨b, a, a', h1, h2, ha⟩ := toaliasOf_le (P := P) h addr
    · rw [h1]
      obtain h2 | h2 := h2
      · rw [h2] at hc
        obtain h3 | h3 := Operand.static_le (P := P) h addr
        · simp only [h3]
        · simp only [h3]; exact hc
      · simp only [h2]
    · rw [h1]
      rw [h2] at hc
      exact ha.check (fun _ h => h) hc
  | st _ _ _ => rfl
  | stWe k =>
    have h1 := h.asked k
    have h2 := h.addr k
    have h3 := h.mask k
    simp only [checkLine] at hc ⊢
    obtain h1 | h1 := h1
    · rw [h1]
    · rw [h1]
      revert hc
      cases e'.asked k with
      | earlier => exact fun _ => rfl
      | notStatic => exact fun h => by cases h
      | known i =>
        cases i with
        | none => exact fun _ => rfl
        | some i =>
          cases i with
          | bitwr b => exact fun hc => h2.check (fun _ h => h) hc
          | srenc p => exact fun hc => h2.check (fun _ h => h) hc
          | fset w b sh =>
            refine fun hc => h2.check (fun reg hr => ?_) hc
            rw [checkWideSet_eq_none] at hr ⊢
            exact ⟨hr.1, hr.2.1, fun hb => h3.check (fun _ h => h) (hr.2.2 hb)⟩
          | _ => exact fun _ => rfl

theorem bindName_le {α : Type} {f g : Name → Static α} (h : ∀ n, (f n).Le (g n)) {n : Name} {x y : Static α}
    (hx : x.Le y) (k : Name) : (bindName n x f k).Le (bindName n y g k) := by
  unfold bindName
  split
  · exact hx
  · exact h k

theorem StaticNames.Le.after (h : e.Le e') (l : Line) : (e.after P l).Le (e'.after P l) := by
  cases l with
  | request dst ctrl a d v m =>
    exact ⟨bindName_le h.asked (.rfl' _), bindName_le h.addr (Operand.static_le h a),
      bindName_le h.mask (NarrowOperand.static_le h m), h.source⟩
  | ld dst n addr => exact ⟨h.asked, h.addr, h.mask, bindName_le h.source (Operand.static_le h addr)⟩
  | st _ _ _ => exact h
  | stWe _ => exact h

theorem StaticNames.Le.afterLines {ls : List Line} : ∀ {e e' : StaticNames}, e.Le e' →
    (e.afterLines P ls).Le (e'.afterLines P ls) := by
  induction ls with
  | nil => exact fun h => h
  | cons l ls ih => exact fun h => ih (h.after l)

theorem StaticNames.Le.afterConfigure (h : e.Le e') : e.afterConfigure.Le e'.afterConfigure :=
  ⟨bindName_le (bindName_le h.asked (.rfl' _)) (.rfl' _), bindName_le (bindName_le h.addr (.rfl' _)) (.rfl' _),
    bindName_le (bindName_le h.mask (.rfl' _)) (.rfl' _), bindName_le (bindName_le h.source (.rfl' _)) (.rfl' _)⟩

theorem StaticNames.Le.afterItem (h : e.Le e') (i : Item) : (e.afterItem P i).Le (e'.afterItem P i) := by
  cases i with
  | seq q => exact h.afterLines
  | configure c => exact h.afterConfigure
  | line l => exact h.after l

theorem checkItem_le (h : e.Le e') {i : Item} (hc : checkItem P e' i = none) : checkItem P e i = none := by
  cases i with
  | seq q => exact hc
  | configure c => exact hc
  | line l => exact checkLine_le h hc

/-- A program passes its checks where less is known of the names. -/
theorem checkItems_le {is : List Item} : ∀ {e e' : StaticNames}, e.Le e' → checkItems P e' is = none →
    checkItems P e is = none := by
  induction is with
  | nil => exact fun _ _ => rfl
  | cons i is ih =>
    intro e e' h hc
    rw [checkItems_cons] at hc ⊢
    exact ⟨checkItem_le h hc.1, ih (h.afterItem i) hc.2⟩

/-- What a line binds of its agent's names, and that it leaves the rest of the agent. -/
def BoundBy : Line → Agent → Agent → Prop
  | .request dst _ _ _ _ _, a, b => ∃ x, b = a.bindResponse dst x
  | .ld dst _ _, a, b => ∃ w, b = a.bindWord dst w
  | .st _ _ _, a, b => b = a
  | .stWe _, a, b => b = a

theorem lookup_filter_ne {κ α : Type} [DecidableEq κ] {k n : κ} (h : n ≠ k) (l : List (κ × α)) :
    (l.filter fun p => decide (p.1 ≠ k)).lookup n = l.lookup n := by
  induction l with
  | nil => rfl
  | cons p l ih =>
    by_cases hp : p.1 = k
    · rw [List.filter_cons_of_neg (by simp [hp]), ih, List.lookup_cons]
      have : (n == p.1) = false := by simpa [hp] using h
      rw [this]
    · rw [List.filter_cons_of_pos (by simp [hp]), List.lookup_cons, List.lookup_cons, ih]

theorem Agent.response?_bindResponse_other (ag : Agent) {k n : Name} (h : n ≠ k) (r : Response) :
    (ag.bindResponse k r).response? n = ag.response? n := by
  unfold Agent.response? Agent.bindResponse bindKey
  rw [List.lookup_cons, beq_false_of_ne h]
  exact lookup_filter_ne h _

theorem Agent.word?_bindWord_other (ag : Agent) {k n : Name} (h : n ≠ k) (w : Word) :
    (ag.bindWord k w).word? n = ag.word? n := by
  unfold Agent.word? Agent.bindWord bindKey
  rw [List.lookup_cons, beq_false_of_ne h]
  exact lookup_filter_ne h _

/-- Less is known of what is bound than of the line that binds it. -/
theorem boundNames_after {l : Line} {a b : Agent} (h : BoundBy l a b) :
    (boundNames b).Le ((boundNames a).after P l) := by
  have key : ∀ {α β : Type} {f : Name → Option β} {g : Name → Option β} {dst : Name} (y : Static α),
      (f dst).isSome = true → (∀ n, n ≠ dst → f n = g n) →
      ∀ n, (boundEarlier (f n).isSome : Static α).Le (bindName dst y (fun n => boundEarlier (g n).isSome) n) := by
    intro α β f g dst y hd ho n
    by_cases hn : n = dst
    · rw [hn, hd]; exact .earlier _
    · rw [bindName, if_neg hn, ho n hn]; exact .rfl' _
  cases l with
  | request dst ctrl x d v m =>
    obtain ⟨r, rfl⟩ := h
    have hd : ((a.bindResponse dst r).response? dst).isSome = true := by rw [Agent.response?_bindResponse_same]; rfl
    have ho := fun n hn => Agent.response?_bindResponse_other a (k := dst) (n := n) hn r
    exact ⟨key _ hd ho, key _ hd ho, key _ hd ho, fun n => .rfl' _⟩
  | ld dst k addr =>
    obtain ⟨w, rfl⟩ := h
    refine ⟨fun n => .rfl' _, fun n => .rfl' _, fun n => .rfl' _, key _ ?_ fun n hn => ?_⟩
    · rw [Agent.word?_bindWord_same]; rfl
    · exact Agent.word?_bindWord_other a hn w
  | st _ _ _ => obtain rfl := h; exact .rfl' _
  | stWe _ => obtain rfl := h; exact .rfl' _

/-- The names where an agent's next item begins, from the two parts of it that it stands in. -/
def namesAt (P : Params) (bound : StaticNames) (left : List Line) (conf : Option Configuring) : StaticNames :=
  match conf with
  | none => bound.afterLines P left
  | some _ => (bound.afterLines P left).afterConfigure

theorem namesOf_eq (P : Params) (ag : Agent) : namesOf P ag = namesAt P (boundNames ag) ag.linesLeft ag.conf := rfl

theorem namesAt_le {left left' : List Line} {c c' : Option Configuring}
    (h : (e.afterLines P left).Le (e'.afterLines P left')) (hc : c.isSome = c'.isSome) :
    (namesAt P e left c).Le (namesAt P e' left' c') := by
  cases c <;> cases c' <;> first | exact h | exact h.afterConfigure | cases hc

/-- A name is bound, or it is not: where a `configure` ends, no more is known than it leaves. -/
theorem boundNames_le_afterConfigure (a : Agent) : (boundNames a).Le (boundNames a).afterConfigure := by
  have key : ∀ {α : Type} (f : Name → Bool) (n : Name),
      (boundEarlier (f n) : Static α).Le
        (bindName .r .notStatic (bindName .t .notStatic (fun n => boundEarlier (f n))) n) := by
    intro α f n
    have h : ∀ b, (boundEarlier b : Static α).Le .notStatic := fun b => by cases b <;> simp [boundEarlier, Static.Le]
    cases n <;> first | exact h _ | exact .rfl' _
  exact ⟨key _, key _, key _, key _⟩

/-- A sequence binds `$r` and `$t` alone, of which nothing is known after the `configure` it is a step of. -/
theorem afterConfigure_expand (q : AccessSeq) :
    ((e.afterLines P (expand P q)).afterConfigure).Le e.afterConfigure := by
  have key : ∀ {α : Type} {f g : Name → Static α}, (∀ n, f (.user n) = g (.user n)) → ∀ n,
      (bindName .r .notStatic (bindName .t .notStatic f) n : Static α).Le
        (bindName .r .notStatic (bindName .t .notStatic g) n) := by
    intro α f g h n
    cases n <;> first | exact .rfl' _ | exact .inr (h _)
  cases q <;> exact ⟨key fun _ => rfl, key fun _ => rfl, key fun _ => rfl, key fun _ => rfl⟩

/-! ### Refusals of the foreground's program -/

theorem step_refused_of_foreground {s : State} {c : ProgramCheck} (h : checkAgent s.cfg s.foreground = some c) :
    step s = .refused (.illFormedProgram c) := by
  have : checkProgram s = some c := by simp [checkProgram, State.agents, checkAgents, h]
  simp [step, machineStep, this]

theorem checkAgent_first {P : Params} {ag : Agent} {i : Item} {is : List Item} {c : ProgramCheck}
    (hcf : ag.conf = none) (hcode : ag.code = i :: is) (h : checkItem P (namesOf P ag) i = some c) :
    checkAgent P ag = some c := by
  simp [checkAgent, hcf, checkSeqs, hcode, checkItems, h]

theorem checkAgent_second {P : Params} {ag : Agent} {i j : Item} {is : List Item} {c : ProgramCheck}
    (hcf : ag.conf = none) (hcode : ag.code = i :: j :: is) (h1 : checkItem P (namesOf P ag) i = none)
    (h : checkItem P ((namesOf P ag).afterItem P i) j = some c) : checkAgent P ag = some c := by
  simp [checkAgent, hcf, checkSeqs, hcode, checkItems, h1, h]

end Sys2Proof.Machine
end

