-- ==== Sys2Proof/Laws/Decode.lean ====
section
/-! SUPPORT. The fields of an encoded control word, and its decoding, constructor by constructor. -/

namespace Sys2Proof

theorem ctrlWord_fields (b : BitVec 5) (e : Bool) (wc : BitVec 3) (op : Op) :
    ctrlRSV (ctrlWord b e wc op) = 0 ∧ ctrlB (ctrlWord b e wc op) = b ∧ ctrlE (ctrlWord b e wc op) = e ∧
      ctrlWC (ctrlWord b e wc op) = wc ∧ ctrlOp (ctrlWord b e wc op) = op.code := by
  refine ⟨?_, ?_, ?_, ?_, ?_⟩
  · refine BitVec.eq_of_getLsbD_eq fun i hi => ?_
    simp only [ctrlRSV, ctrlWord, BitVec.getLsbD_extractLsb', BitVec.getLsbD_append]
    have : i = 0 ∨ i = 1 ∨ i = 2 := by omega
    rcases this with rfl | rfl | rfl <;> simp
  · refine BitVec.eq_of_getLsbD_eq fun i hi => ?_
    simp only [ctrlB, ctrlWord, BitVec.getLsbD_extractLsb', BitVec.getLsbD_append]
    simp [hi, show ¬ 8 + i < 4 by omega, show ¬ 8 + i - 4 < 3 by omega, show ¬ 8 + i - 4 - 3 < 1 by omega,
      show 8 + i - 4 - 3 - 1 = i by omega]
  · simp only [ctrlE, ctrlWord, BitVec.getLsbD_append]
    simp
  · refine BitVec.eq_of_getLsbD_eq fun i hi => ?_
    simp only [ctrlWC, ctrlWord, BitVec.getLsbD_extractLsb', BitVec.getLsbD_append]
    simp [hi]
  · refine BitVec.eq_of_getLsbD_eq fun i hi => ?_
    simp only [ctrlOp, ctrlWord, BitVec.getLsbD_extractLsb', BitVec.getLsbD_append]
    simp [hi]

@[simp] theorem ctrlRSV_ctrlWord (b e wc op) : ctrlRSV (ctrlWord b e wc op) = 0 := (ctrlWord_fields b e wc op).1
@[simp] theorem ctrlB_ctrlWord (b e wc op) : ctrlB (ctrlWord b e wc op) = b := (ctrlWord_fields b e wc op).2.1
@[simp] theorem ctrlE_ctrlWord (b e wc op) : ctrlE (ctrlWord b e wc op) = e := (ctrlWord_fields b e wc op).2.2.1
@[simp] theorem ctrlWC_ctrlWord (b e wc op) : ctrlWC (ctrlWord b e wc op) = wc :=
  (ctrlWord_fields b e wc op).2.2.2.1
@[simp] theorem ctrlOp_ctrlWord (b e wc op) : ctrlOp (ctrlWord b e wc op) = op.code :=
  (ctrlWord_fields b e wc op).2.2.2.2

@[simp] theorem opOfCode_code (op : Op) : opOfCode op.code = some op := by cases op <;> rfl
@[simp] theorem widthOfCode_code (w : Width) : widthOfCode w.code = some w := by cases w <;> rfl

theorem decode_encode_toalias (b : BitVec 5) : decode (encode (.toalias b)) = .ok (.toalias b) := by
  simp [decode, encode]
theorem decode_encode_fromalias : decode (encode .fromalias) = .ok .fromalias := by
  simp [decode, encode]
theorem decode_encode_pinlookup : decode (encode .pinlookup) = .ok .pinlookup := by
  simp [decode, encode]
theorem decode_encode_fget (w : Width) (sh : BitVec 5) : decode (encode (.fget w sh)) = .ok (.fget w sh) := by
  simp [decode, encode]
theorem decode_encode_fset (w : Width) (e : Bool) (sh : BitVec 5) :
    decode (encode (.fset w e sh)) =
      if e = true ∧ 15 ≤ w.bits then .error .enumWidth else .ok (.fset w e sh) := by
  simp [decode, encode]
theorem decode_encode_bitwr (b : BitVec 5) : decode (encode (.bitwr b)) = .ok (.bitwr b) := by
  simp [decode, encode]
theorem decode_encode_srenc (p : BitVec 5) : decode (encode (.srenc p)) = .ok (.srenc p) := by
  simp [decode, encode]

/-! ### Which control words decode to an instruction -/

theorem ctrl_ext {c d : Half} (h1 : ctrlRSV c = ctrlRSV d) (h2 : ctrlB c = ctrlB d) (h3 : ctrlE c = ctrlE d)
    (h4 : ctrlWC c = ctrlWC d) (h5 : ctrlOp c = ctrlOp d) : c = d := by
  refine BitVec.eq_of_getLsbD_eq fun i hi => ?_
  have key : ∀ (lo n : Nat), c.extractLsb' lo n = d.extractLsb' lo n → lo ≤ i → i < lo + n →
      c.getLsbD i = d.getLsbD i := by
    intro lo n e hlo hn
    have := congrArg (fun x => x.getLsbD (i - lo)) e
    simp only [BitVec.getLsbD_extractLsb', show i - lo < n by omega, decide_true, Bool.true_and,
      show lo + (i - lo) = i by omega] at this
    exact this
  by_cases a : i < 4
  · exact key 0 4 h5 (by omega) (by omega)
  by_cases b : i < 7
  · exact key 4 3 h4 (by omega) (by omega)
  by_cases e : i = 7
  · subst e; exact h3
  by_cases f : i < 13
  · exact key 8 5 h2 (by omega) (by omega)
  · exact key 13 3 h1 (by omega) (by omega)

theorem ctrl_and (c m : Half) : ctrlRSV (c &&& m) = ctrlRSV c &&& ctrlRSV m ∧ ctrlB (c &&& m) = ctrlB c &&& ctrlB m ∧
    ctrlE (c &&& m) = (ctrlE c && ctrlE m) ∧ ctrlWC (c &&& m) = ctrlWC c &&& ctrlWC m ∧
    ctrlOp (c &&& m) = ctrlOp c &&& ctrlOp m := by
  refine ⟨?_, ?_, BitVec.getLsbD_and .., ?_, ?_⟩ <;>
    exact BitVec.extractLsb'_and

/-- A masked control word, field by field. -/
theorem and_eq_ctrlWord {c m : Half} {b : BitVec 5} {e : Bool} {wc : BitVec 3} {op : Op} :
    c &&& m = ctrlWord b e wc op ↔ ctrlRSV c &&& ctrlRSV m = 0 ∧ ctrlB c &&& ctrlB m = b ∧
      (ctrlE c && ctrlE m) = e ∧ ctrlWC c &&& ctrlWC m = wc ∧ ctrlOp c &&& ctrlOp m = op.code := by
  obtain ⟨h1, h2, h3, h4, h5⟩ := ctrl_and c m
  constructor
  · intro h
    rw [h] at h1 h2 h3 h4 h5
    simp only [ctrlRSV_ctrlWord, ctrlB_ctrlWord, ctrlE_ctrlWord, ctrlWC_ctrlWord, ctrlOp_ctrlWord] at h1 h2 h3 h4 h5
    exact ⟨h1.symm, h2.symm, h3.symm, h4.symm, h5.symm⟩
  · rintro ⟨e1, e2, e3, e4, e5⟩
    refine ctrl_ext ?_ ?_ ?_ ?_ ?_ <;> simp_all

theorem opOfCode_eq_some {n : BitVec 4} {op : Op} : opOfCode n = some op ↔ n = op.code := by
  revert n op
  have : ∀ n, ∀ op ∈ [Op.toalias, .fromalias, .pinlookup, .fget, .fset, .bitwr, .srenc],
    (opOfCode n = some op ↔ n = op.code) := by decide
  intro n op; exact this n op (by cases op <;> decide)

theorem widthOfCode_eq_some {n : BitVec 3} {w : Width} : widthOfCode n = some w ↔ n = w.code := by
  revert n w
  have : ∀ n, ∀ w ∈ [Width.w1, .w2, .w4, .w15, .w16], (widthOfCode n = some w ↔ n = w.code) := by decide
  intro n w; exact this n w (by cases w <;> decide)

/-- The control words that decode to an instruction: those that agree with its encoding on the bits it reads
(R56, R64, R65). -/
theorem decode_eq_ok_iff {c : Half} {i : Instr} :
    decode c = .ok i ↔ i.WellFormed ∧ c &&& i.readMask = encode i := by
  have key : decode c = .ok i ↔ ctrlRSV c = 0 ∧ ctrlOp c = i.op.code ∧ match i with
      | .toalias b => ctrlB c = b
      | .fromalias => True
      | .pinlookup => True
      | .fget w sh => ctrlWC c = w.code ∧ ctrlB c = sh
      | .fset w e sh => ctrlWC c = w.code ∧ ctrlE c = e ∧ ctrlB c = sh ∧ ¬ (e = true ∧ 15 ≤ w.bits)
      | .bitwr b => ctrlB c = b
      | .srenc p => ctrlB c = p := by
    have hinj : ∀ a b : Op, a.code = b.code ↔ a = b := by
      intro a b; constructor
      · intro e; have := congrArg opOfCode e; simpa using this
      · rintro rfl; rfl
    have winj : ∀ a b : Width, a.code = b.code ↔ a = b := by
      intro a b; constructor
      · intro e; have := congrArg widthOfCode e; simpa using this
      · rintro rfl; rfl
    unfold decode
    by_cases hr : ctrlRSV c = 0
    · rw [if_neg (not_not.2 hr)]
      cases ho : opOfCode (ctrlOp c) with
      | none =>
        have : ctrlOp c ≠ i.op.code := fun e => by rw [e, opOfCode_code] at ho; cases ho
        simp [this]
      | some op =>
        have hop := opOfCode_eq_some.1 ho
        rw [hop, hinj]
        cases op
        case fget =>
          cases hw : widthOfCode (ctrlWC c) with
          | none =>
            have : ∀ w : Width, ctrlWC c ≠ w.code := fun w e => by rw [e, widthOfCode_code] at hw; cases hw
            cases i <;> simp [Instr.op, this]
          | some w =>
            have := widthOfCode_eq_some.1 hw
            rw [this]
            cases i <;> simp [Instr.op, winj, hr]
        case fset =>
          cases hw : widthOfCode (ctrlWC c) with
          | none =>
            have : ∀ w : Width, ctrlWC c ≠ w.code := fun w e => by rw [e, widthOfCode_code] at hw; cases hw
            cases i <;> simp [Instr.op, this]
          | some w =>
            have := widthOfCode_eq_some.1 hw
            rw [this]
            by_cases hc : ctrlE c = true ∧ 15 ≤ w.bits
            · cases i <;> simp [Instr.op, winj, hc]
              rintro - rfl rfl -; exact ⟨rfl, hc.2⟩
            · have hc2 := hc
              simp only [hc, if_false]
              cases i <;> simp [Instr.op, winj, hr]
              rintro rfl rfl rfl
              simpa using hc2
        all_goals (cases i <;> simp [Instr.op, hr])
    · rw [if_pos hr]
      constructor
      · intro h; cases h
      · intro h; exact absurd h.1 hr
  rw [key]
  have z5 : ∀ x : BitVec 5, x &&& 0 = 0 := by decide
  have z3 : ∀ x : BitVec 3, x &&& 0 = 0 := by decide
  have k7 : ∀ x : BitVec 3, x &&& 7 = x := by decide
  have k31 : ∀ x : BitVec 5, x &&& 31 = x := by decide
  have k15 : ∀ x : BitVec 4, x &&& 15 = x := by decide
  have m1 : ctrlRSV 0xFF0F = 7 ∧ ctrlB 0xFF0F = 31 ∧ ctrlE 0xFF0F = false ∧ ctrlWC 0xFF0F = 0 ∧ ctrlOp 0xFF0F = 15 := by decide
  have m2 : ctrlRSV 0xE00F = 7 ∧ ctrlB 0xE00F = 0 ∧ ctrlE 0xE00F = false ∧ ctrlWC 0xE00F = 0 ∧ ctrlOp 0xE00F = 15 := by decide
  have m3 : ctrlRSV 0xFF7F = 7 ∧ ctrlB 0xFF7F = 31 ∧ ctrlE 0xFF7F = false ∧ ctrlWC 0xFF7F = 7 ∧ ctrlOp 0xFF7F = 15 := by decide
  have m4 : ctrlRSV 0xFFFF = 7 ∧ ctrlB 0xFFFF = 31 ∧ ctrlE 0xFFFF = true ∧ ctrlWC 0xFFFF = 7 ∧ ctrlOp 0xFFFF = 15 := by decide
  cases i <;> simp only [Instr.readMask, encode, and_eq_ctrlWord, m1, m2, m3, m4, k7, k31, k15, z3, z5, Instr.op, Instr.WellFormed, Instr.failed, Bool.and_false, Bool.and_true]
  · tauto
  · tauto
  · tauto
  · tauto
  · rename_i w e sh
    by_cases hc : e = true ∧ 15 ≤ w.bits
    · simp [hc]
    · simp only [hc]; simp; tauto
  · tauto
  · tauto

end Sys2Proof
end

