-- ==== Sys2Proof/Laws/Fields.lean ====
section
/-! SUPPORT. The laws of a field's geometry and of the word `FSET` asks to have written, bit by bit. -/

namespace Sys2Proof

theorem Width.bits_le (w : Width) : w.bits ≤ 16 := by cases w <;> decide
theorem Width.bits_pos (w : Width) : 0 < w.bits := by cases w <;> decide

namespace Machine

theorem mask_toNat (w : Width) : (mask w).toNat = 2 ^ w.bits - 1 := by cases w <;> decide

theorem mask_getLsbD (w : Width) (i : Nat) : (mask w).getLsbD i = decide (i < w.bits) := by
  have hw := Width.bits_le w
  rw [BitVec.getLsbD, mask_toNat, Nat.testBit_two_pow_sub_one]

theorem fmask_getLsbD {sh : BitVec 5} {w : Width} (h : inWord sh w) (i : Nat) :
    (fmask sh w).getLsbD i = decide (sh.toNat ≤ i ∧ i < sh.toNat + w.bits) := by
  simp only [fmask, BitVec.getLsbD_shiftLeft, mask_getLsbD]
  rw [Bool.eq_iff_iff]
  simp only [Bool.and_eq_true, Bool.not_eq_true', decide_eq_true_eq, decide_eq_false_iff_not]
  omega

/-- A value fits where it is below `2^w` (R81). -/
theorem fits_iff (w : Width) (v : Half) : fits w v = true ↔ v.toNat < 2 ^ w.bits := by
  have hp : 0 < 2 ^ w.bits := Nat.two_pow_pos _
  simp only [fits, decide_eq_true_eq, BitVec.le_def, mask_toNat, zext32, BitVec.toNat_setWidth]
  have := v.isLt
  omega

/-- What an `FSET` accepts (R81, R84). -/
theorem accepts_iff (w : Width) (e : Bool) (v m : Half) :
    (fits w v && legal w e v m) = true ↔ v.toNat < 2 ^ w.bits ∧ (e = true → m.getLsbD v.toNat = true) := by
  rw [← fits_iff]
  cases e <;> cases hf : fits w v <;> simp only [legal, hf] <;> simp

/-- The inserted word, bit by bit (R81, R86). -/
theorem insertField_getLsbD {sh : BitVec 5} {w : Width} (h : inWord sh w) {d : Word} {v : Half}
    (hv : v.toNat < 2 ^ w.bits) {k : Nat} (hk : k < 32) :
    (insertField w sh d v).getLsbD k =
      if sh.toNat ≤ k ∧ k < sh.toNat + w.bits then v.getLsbD (k - sh.toNat) else d.getLsbD k := by
  simp only [insertField, BitVec.getLsbD_or, BitVec.getLsbD_and, BitVec.getLsbD_not, fmask_getLsbD h,
    BitVec.getLsbD_shiftLeft, BitVec.getLsbD_setWidth, hk, decide_true, Bool.true_and]
  have hw := Width.bits_le w
  by_cases h1 : sh.toNat ≤ k
  · by_cases h2 : k < sh.toNat + w.bits
    · have : k - sh.toNat < 32 := by omega
      simp [h1, h2, this, show ¬ k < sh.toNat by omega]
    · have hz : v.getLsbD (k - sh.toNat) = false := by
        rw [BitVec.getLsbD]
        exact Nat.testBit_lt_two_pow (Nat.lt_of_lt_of_le hv (Nat.pow_le_pow_right (by omega) (by omega)))
      simp [h2, hz]
  · simp [h1, show k < sh.toNat by omega]

/-- `FSET` of a field in its word (R81, R84). -/
theorem fsetResponse_eq {w : Width} {e : Bool} {sh : BitVec 5} {q : Request} (h : inWord sh w) :
    fsetResponse w e sh q =
      .ok (if q.v.toNat < 2 ^ w.bits ∧ (e = true → q.m.getLsbD q.v.toNat = true) then
        Response.accepted { y := q.a, wd := insertField w sh q.d q.v }
      else Response.rejected { y := q.a, wd := q.d }) := by
  unfold fsetResponse
  rw [if_neg (not_not.2 h)]
  by_cases ha : q.v.toNat < 2 ^ w.bits ∧ (e = true → q.m.getLsbD q.v.toNat = true)
  · rw [if_pos ((accepts_iff ..).2 ha), if_pos ha]
  · rw [if_neg (mt (accepts_iff ..).1 ha), if_neg ha]

/-- `FGET` of a field in its word (R80). -/
theorem fgetResponse_eq {w : Width} {sh : BitVec 5} {q : Request} (h : inWord sh w) :
    fgetResponse w sh q = .ok (Response.done { rv := ((q.d >>> sh.toNat) &&& mask w).extractLsb' 0 16 }) := by
  unfold fgetResponse
  rw [if_neg (not_not.2 h)]

/-- The field of the inserted word is the value (R85). -/
theorem field_insertField {sh : BitVec 5} {w : Width} (h : inWord sh w) {d : Word} {v : Half}
    (hv : v.toNat < 2 ^ w.bits) : ((insertField w sh d v >>> sh.toNat) &&& mask w).extractLsb' 0 16 = v := by
  refine BitVec.eq_of_getLsbD_eq fun i hi => ?_
  have hw := Width.bits_le w
  simp only [BitVec.getLsbD_extractLsb', hi, decide_true, Bool.true_and, Nat.zero_add, BitVec.getLsbD_and,
    BitVec.getLsbD_ushiftRight, mask_getLsbD]
  by_cases hiw : i < w.bits
  · have h' : sh.toNat + w.bits ≤ 32 := h
    rw [insertField_getLsbD h hv (by omega), if_pos (by omega)]
    simp [hiw]
  · have : v.getLsbD i = false := by
      rw [BitVec.getLsbD]
      exact Nat.testBit_lt_two_pow (Nat.lt_of_lt_of_le hv (Nat.pow_le_pow_right (by omega) (by omega)))
    simp [hiw, this]

/-- The other bits of the inserted word are the old word's (R86). -/
theorem insertField_siblings {sh : BitVec 5} {w : Width} (h : inWord sh w) {d : Word} {v : Half}
    (hv : v.toNat < 2 ^ w.bits) : insertField w sh d v &&& ~~~(fmask sh w) = d &&& ~~~(fmask sh w) := by
  refine BitVec.eq_of_getLsbD_eq fun i hi => ?_
  simp only [BitVec.getLsbD_and, BitVec.getLsbD_not, fmask_getLsbD h, hi, decide_true, Bool.true_and,
    insertField_getLsbD h hv hi]
  split <;> simp_all

end Machine

end Sys2Proof
end

