-- ==== Sys2Proof/Laws/PerInstr.lean ====
section
/-! SUPPORT. Families of statements made per instruction (LAWS.json). -/

/-- `RoundTrip`: the control word of a well-formed instruction decodes to it (R65, R69). -/
def Sys2Proof.Laws.RoundTrip.Statement (i : Sys2Proof.Instr) : Prop :=
  i.WellFormed → Sys2Proof.decode (Sys2Proof.encode i) = .ok i

namespace Sys2Proof.Laws.RoundTrip

theorem toalias (b : BitVec 5) : Statement (.toalias b) := fun _ => decode_encode_toalias b
theorem fromalias : Statement .fromalias := fun _ => decode_encode_fromalias
theorem pinlookup : Statement .pinlookup := fun _ => decode_encode_pinlookup
theorem fget (w : Width) (sh : BitVec 5) : Statement (.fget w sh) := fun _ => decode_encode_fget w sh
theorem fset (w : Width) (e : Bool) (sh : BitVec 5) : Statement (.fset w e sh) := fun h => by
  rw [decode_encode_fset, if_neg]
  intro hc
  simp [Instr.WellFormed, Instr.failed, hc] at h
theorem bitwr (b : BitVec 5) : Statement (.bitwr b) := fun _ => decode_encode_bitwr b
theorem srenc (p : BitVec 5) : Statement (.srenc p) := fun _ => decode_encode_srenc p

end Sys2Proof.Laws.RoundTrip
end

