-- ==== Sys2Proof/Laws/Sequences.lean ====
section
/-! SUPPORT. What the static checks WF1 to WF7 give: a well-formed access sequence presents no request whose
precondition fails, and addresses a register of a listed block. -/

namespace Sys2Proof.Machine

variable {P : Params}

/-! ### Rows of R21 -/

theorem fieldRow?_some {r : Reg} {sh : Nat} {w : Width} {f : FieldRow} (h : fieldRow? r sh w = some f) :
    f ∈ layout ∧ f.reg = r ∧ f.width = w ∧ ∃ i < f.count, sh = f.first + f.stride * i := by
  have h1 := List.find?_some h
  have h2 := List.mem_of_find?_eq_some h
  simp only [FieldRow.names, Bool.and_eq_true, decide_eq_true_eq, List.any_eq_true, List.mem_range] at h1
  exact ⟨h2, h1.1.1, h1.1.2, h1.2⟩

/-- No field of R21 straddles its word. -/
theorem layout_inWord : ∀ f ∈ layout, ∀ i < f.count, f.first + f.stride * i + f.width.bits ≤ 32 := by decide

/-- The 15- and 16-bit fields of R21 are its placeholders. -/
theorem layout_wide : ∀ f ∈ layout, 15 ≤ f.width.bits → f.access = .none := by decide

/-- BSRR and IDR hold no multi-bit field, LCKR none but a placeholder. -/
theorem layout_multiBit : ∀ f ∈ layout, f.width ≠ .w1 → f.access ≠ .none →
    f.reg ≠ .bsrr ∧ f.reg ≠ .idr ∧ f.reg ≠ .lckr ∧ placeholderMask f.reg = 0 := by decide

/-- The fields of R21 that may be written and are one bit wide avoid placeholder bits. -/
theorem layout_bit_not_placeholder : ∀ f ∈ layout, f.width = .w1 → ∀ i < f.count,
    (placeholderMask f.reg).getLsbD (f.first + f.stride * i) = false := by decide

theorem placeholderMask_bits : ∀ r : Reg, ∀ b < 32, (placeholderMask r).getLsbD b =
    layout.any fun f => decide (f.reg = r) && decide (f.kind = .placeholder) && decide (f.first ≤ b) &&
      decide (b < f.first + f.width.bits) := by
  intro r; cases r <;> decide

/-! ### Located registers -/

theorem locate_some (h : P.Valid) {a : Addr} {base : Nat} {r : Reg} (hl : locate P a = some (base, r)) :
    base ∈ P.gpioBases ∧ blockOf P a = some base ∧ regAt P (a.toNat - base) = some r ∧
      a = regAddr P (BitVec.ofNat 32 base) r := by
  unfold locate at hl
  split at hl
  · cases hl
  · rename_i b hb
    split at hl
    · cases hl
    · rename_i r' hr
      simp only [Option.some.injEq, Prod.mk.injEq] at hl
      obtain ⟨rfl, rfl⟩ := hl
      exact ⟨(blockOf_some hb).1, hb, hr, eq_regAddr h hb hr⟩

theorem block_inRegion (h : P.Valid) {a : Addr} {base : Nat} (hb : blockOf P a = some base) : inRegion P a := by
  obtain ⟨hm, h1, h2⟩ := blockOf_some hb
  have h3 := Params.base_spec h.1 hm
  constructor <;> omega

theorem inRegion_not_inWindow (h : P.Valid) {a : Addr} (ha : inRegion P a) : ¬ inWindow P a := by
  have hd := h.1.2.2.2.2.2.2.1
  have hw := Params.window_le h.1
  obtain ⟨l1, l2⟩ := ha
  rintro ⟨m1, m2⟩
  omega

theorem regAddr_inRegion (h : P.Valid) {base : Nat} (hb : base ∈ P.gpioBases) (r : Reg) :
    inRegion P (regAddr P (BitVec.ofNat 32 base) r) := block_inRegion h (locate_regAddr h hb r).1

/-- A direct access to an aligned word of a block has that word as its target. -/
theorem target_block (h : P.Valid) {a : Addr} {base : Nat} (hb : blockOf P a = some base) (h4 : wordAligned a) :
    target P 4 a = .ok (.reg base (regAt P (a.toNat - base)) a) := by
  unfold target
  rw [if_neg (by decide), if_neg (not_not.2 h4), if_neg (inRegion_not_inWindow h (block_inRegion h hb)), hb]

/-- An access to the alias of a bit of one has that bit as its target. -/
theorem target_alias_block (h : P.Valid) {a : Addr} {base : Nat} (hb : blockOf P a = some base) (h4 : wordAligned a)
    (b : BitVec 5) : target P 4 (aliasOf P a b) = .ok (.bit base (regAt P (a.toNat - base)) a b) := by
  have hr := block_inRegion h hb
  unfold target
  rw [if_neg (by decide), if_neg (not_not.2 (aliasOf_aligned h.1 hr h4 b)), if_pos (aliasOf_inWindow h.1 hr h4 b),
    aliasReg_aliasOf h.1 hr h4, aliasBit_aliasOf h.1 hr h4, hb]

/-- A direct access to a register of a listed block has that register as its target. -/
theorem target_regAddr (h : P.Valid) {base : Nat} (hb : base ∈ P.gpioBases) (r : Reg) :
    target P 4 (regAddr P (BitVec.ofNat 32 base) r) =
      .ok (.reg base (some r) (regAddr P (BitVec.ofNat 32 base) r)) := by
  obtain ⟨h1, h2⟩ := locate_regAddr h hb r
  rw [target_block h h1 (regAddr_aligned h hb r), h2]

/-- An access to the alias of a bit of a register of a listed block has that bit as its target. -/
theorem target_aliasOf (h : P.Valid) {base : Nat} (hb : base ∈ P.gpioBases) (r : Reg) (b : BitVec 5) :
    target P 4 (aliasOf P (regAddr P (BitVec.ofNat 32 base) r) b) =
      .ok (.bit base (some r) (regAddr P (BitVec.ofNat 32 base) r) b) := by
  obtain ⟨h1, h2⟩ := locate_regAddr h hb r
  rw [target_alias_block h h1 (regAddr_aligned h hb r), h2]

/-- A read of a register of a listed block (R32, R38 to R40). -/
theorem memRead_regAddr {s : State} (h : s.cfg.Valid) {base : Nat} (hb : base ∈ s.cfg.gpioBases) (r : Reg) :
    memRead s 4 (regAddr s.cfg (BitVec.ofNat 32 base) r) =
      .ok (regWord s (some r) (regAddr s.cfg (BitVec.ofNat 32 base) r), afterRead s base (some r)) := by
  simp only [memRead, target_regAddr h hb]

/-- An alias read of a bit of one (R33). -/
theorem memRead_aliasOf {s : State} (h : s.cfg.Valid) {base : Nat} (hb : base ∈ s.cfg.gpioBases) {r : Reg}
    (hr : r ≠ .bsrr) (b : BitVec 5) :
    memRead s 4 (aliasOf s.cfg (regAddr s.cfg (BitVec.ofNat 32 base) r) b) =
      .ok (zextBit (regBit s (some r) (regAddr s.cfg (BitVec.ofNat 32 base) r) b), afterRead s base (some r)) := by
  simp only [memRead, target_aliasOf h hb]
  rw [if_neg (by simpa using hr)]

/-- A read of a register other than IDR draws a word and leaves the rest. -/
theorem afterRead_of_ne (s : State) (base : Nat) {r : Option Reg} (hr : r ≠ some .idr) :
    afterRead s base r = { s with draws := s.draws + 1 } := by
  simp [afterRead, hr]

/-- The bits a read of a register draws. -/
theorem drawMask_of_ne {r : Reg} (h1 : r ≠ .idr) (h2 : r ≠ .bsrr) : drawMask (some r) = placeholderMask r := by
  cases r <;> simp_all [drawMask]

/-- A write of a read-write register of a listed block (R32). -/
theorem memWrite_regAddr {s : State} (h : s.cfg.Valid) {base : Nat} (hb : base ∈ s.cfg.gpioBases) {r : Reg}
    (h1 : r ≠ .idr) (h2 : r ≠ .bsrr) (h3 : r ≠ .lckr) (v : Word) :
    memWrite s 4 (regAddr s.cfg (BitVec.ofNat 32 base) r) v =
      .ok { s with
        img := Memory.setWord s.img (regAddr s.cfg (BitVec.ofNat 32 base) r)
          (storedWord r (Memory.word s.img (regAddr s.cfg (BitVec.ofNat 32 base) r)) v) } := by
  simp only [memWrite, target_regAddr h hb]
  cases r <;> simp_all [writeReg]

/-- A write of BSRR without a pin's both bits (R36). -/
theorem memWrite_bsrr {s : State} (h : s.cfg.Valid) {base : Nat} (hb : base ∈ s.cfg.gpioBases) {v : Word}
    (hv : bothBits v = false) :
    memWrite s 4 (regAddr s.cfg (BitVec.ofNat 32 base) .bsrr) v =
      .ok { s with
        img := Memory.setWord s.img (regAddr s.cfg (BitVec.ofNat 32 base) .odr)
          (setReset (Memory.word s.img (regAddr s.cfg (BitVec.ofNat 32 base) .odr)) v) } := by
  simp only [memWrite, target_regAddr h hb, writeReg, hv]
  rfl

/-- The bits an alias write may write (R35). -/
theorem bitWriteRefused_eq_none {r : Reg} (h1 : r ≠ .idr) (h2 : r ≠ .bsrr) (h3 : r ≠ .lckr) {b : BitVec 5}
    (hp : (placeholderMask r).getLsbD b.toNat = false) : bitWriteRefused (some r) b = none := by
  unfold bitWriteRefused
  cases r <;> simp_all

/-- An alias write of a bit that may be written (R34). -/
theorem memWrite_aliasOf {s : State} (h : s.cfg.Valid) {base : Nat} (hb : base ∈ s.cfg.gpioBases) {r : Reg}
    (h1 : r ≠ .idr) (h2 : r ≠ .bsrr) (h3 : r ≠ .lckr) {b : BitVec 5}
    (hp : (placeholderMask r).getLsbD b.toNat = false) (v : Word) :
    memWrite s 4 (aliasOf s.cfg (regAddr s.cfg (BitVec.ofNat 32 base) r) b) v =
      .ok { s with
        img := Memory.setWord s.img (regAddr s.cfg (BitVec.ofNat 32 base) r)
          (putBit (Memory.word s.img (regAddr s.cfg (BitVec.ofNat 32 base) r)) b (v.getLsbD 0)) } := by
  simp only [memWrite, target_aliasOf h hb, writeBit, bitWriteRefused_eq_none h1 h2 h3 hp]

theorem fieldAt_some (h : P.Valid) {a : Addr} {sh : BitVec 5} {w : Width} {f : FieldRow}
    (hf : fieldAt P a sh w = some f) :
    ∃ base, base ∈ P.gpioBases ∧ a = regAddr P (BitVec.ofNat 32 base) f.reg ∧ f ∈ layout ∧ f.width = w ∧
      ∃ i < f.count, sh.toNat = f.first + f.stride * i := by
  unfold fieldAt at hf
  split at hf
  · cases hf
  · rename_i base r hl
    obtain ⟨h1, -, -, h2⟩ := locate_some h hl
    obtain ⟨h3, h4, h5, h6⟩ := fieldRow?_some hf
    exact ⟨base, h1, by rw [h4]; exact h2, h3, h5, h6⟩

/-- The row of a field of a register of a listed block. -/
theorem fieldAt_regAddr (h : P.Valid) {base : Nat} (hb : base ∈ P.gpioBases) {r : Reg} {sh : BitVec 5} {w : Width}
    {f : FieldRow} (hf : fieldAt P (regAddr P (BitVec.ofNat 32 base) r) sh w = some f) :
    f.reg = r ∧ f ∈ layout ∧ f.width = w ∧ ∃ i < f.count, sh.toNat = f.first + f.stride * i := by
  obtain ⟨base', hb', hreg, hfl, hfw, hi⟩ := fieldAt_some h hf
  have l1 := locate_regAddr h hb r
  have l2 := locate_regAddr h hb' f.reg
  rw [← hreg] at l2
  obtain rfl := Option.some.inj (l1.1.symm.trans l2.1)
  exact ⟨(Option.some.inj (l1.2.symm.trans l2.2)).symm, hfl, hfw, hi⟩

/-- A field of a register of a listed block is in one row of R21 at most. -/
theorem layout_unique : ∀ f ∈ layout, ∀ g ∈ layout, f.reg = g.reg → f.width = g.width → ∀ i < f.count,
    ∀ j < g.count, f.first + f.stride * i = g.first + g.stride * j → f = g := by decide

/-- The row that names a field of a register of a listed block is found. -/
theorem fieldAt_row (h : P.Valid) {base : Nat} (hb : base ∈ P.gpioBases) {f : FieldRow} (hf : f ∈ layout)
    {sh : BitVec 5} {i : Nat} (hi : i < f.count) (hsh : sh.toNat = f.first + f.stride * i) :
    fieldAt P (regAddr P (BitVec.ofNat 32 base) f.reg) sh f.width = some f := by
  obtain ⟨l1, l2⟩ := locate_regAddr h hb f.reg
  unfold fieldAt locate
  simp only [l1, l2]
  unfold fieldRow?
  cases hfind : layout.find? fun g => g.names f.reg sh.toNat f.width with
  | none =>
    refine absurd ?_ (List.find?_eq_none.1 hfind f hf)
    simp only [FieldRow.names, decide_true, Bool.true_and, List.any_eq_true, List.mem_range, decide_eq_true_eq]
    exact ⟨i, hi, hsh⟩
  | some g =>
    obtain ⟨g1, g2, g3, j, hj, g4⟩ := fieldRow?_some (r := f.reg) (sh := sh.toNat) (w := f.width) hfind
    rw [layout_unique g g1 f hf g2 g3 j hj i hi (by rw [← g4, hsh])]

theorem checkGet_ok {a : Addr} {sh : BitVec 5} {w : Width} (hc : checkGet P a sh w = none) :
    ∃ f, fieldAt P a sh w = some f ∧ f.access ≠ .none ∧ f.access ≠ .writeOnly := by
  unfold checkGet at hc
  split at hc
  · cases hc
  · rename_i f hf
    refine ⟨f, hf, ?_, ?_⟩ <;> intro e <;> rw [e] at hc <;> cases hc

theorem checkSet_ok {a : Addr} {sh : BitVec 5} {w : Width} (hc : checkSet P a sh w = none) :
    ∃ f, fieldAt P a sh w = some f ∧ f.access ≠ .none ∧ f.access ≠ .readOnly := by
  unfold checkSet at hc
  split at hc
  · cases hc
  · rename_i f hf
    refine ⟨f, hf, ?_, ?_⟩ <;> intro e <;> rw [e] at hc <;> cases hc

theorem checkOutput_ok {h : PinHandle} (hc : checkOutput P h = none) : h.base.toNat ∈ P.gpioBases := by
  unfold checkOutput at hc
  split at hc
  · cases hc
  · rename_i hm; exact not_not.1 hm

theorem ofNat_base (a : Addr) : BitVec.ofNat 32 a.toNat = a := by simp

theorem isSlot_ok {r : Reg} {y : Addr} (hs : isSlot P r y = true) :
    ∃ base ∈ P.gpioBases, ∃ p < 16, y = aliasOf P (regAddr P (BitVec.ofNat 32 base) r) (BitVec.ofNat 5 p) := by
  simp only [isSlot, List.any_eq_true, List.mem_range, decide_eq_true_eq] at hs
  obtain ⟨base, hb, p, hp, e⟩ := hs
  exact ⟨base, hb, p, hp, e.symm⟩

/-! ### The requests of the sequences -/

/-- `TOALIAS` of a region word. -/
theorem toaliasResponse_eq {b : BitVec 5} {q : Request} (h1 : inRegion P q.a) (h2 : wordAligned q.a) :
    toaliasResponse P b q = .ok (Response.done { y := aliasOf P q.a b }) := by
  unfold toaliasResponse
  rw [if_neg (not_not.2 h1), if_neg (not_not.2 h2)]

/-- The `Y` of a `TOALIAS` that meets its preconditions, as the checks see it. -/
theorem staticY_toalias {b : BitVec 5} {a : Addr} (h1 : inRegion P a) (h2 : wordAligned a) :
    staticY P (some (.toalias b)) a = .known (aliasOf P a b) := by
  show (match toaliasResponse P b { a := a } with | .ok x => Static.known x.y | .error _ => .notStatic) = _
  rw [toaliasResponse_eq h1 h2]; rfl

/-- `FROMALIAS` of a window word. -/
theorem fromaliasResponse_eq {q : Request} (h1 : inWindow P q.a) (h2 : wordAligned q.a) :
    fromaliasResponse P q = .ok (Response.done { y := aliasReg P q.a, z := aliasBit P q.a }) := by
  unfold fromaliasResponse
  rw [if_neg (not_not.2 h1), if_neg (not_not.2 h2)]

/-- `BITWR` of a bit of a region word (R82). -/
theorem bitwrResponse_eq {b : BitVec 5} {q : Request} (h1 : inRegion P q.a) (h2 : wordAligned q.a) :
    bitwrResponse P b q =
      .ok (if q.v.toNat ≤ 1 then Response.accepted { y := aliasOf P q.a b, wd := zextBit (q.v.getLsbD 0) }
        else Response.rejected { y := aliasOf P q.a b, wd := 0 }) := by
  have hz : ∀ v : Half, v.toNat ≤ 1 → zext32 v = zextBit (v.getLsbD 0) := by
    intro v hv
    rcases (by omega : v.toNat = 0 ∨ v.toNat = 1) with h | h
    · obtain rfl : v = 0 := BitVec.eq_of_toNat_eq h
      rfl
    · obtain rfl : v = 1 := BitVec.eq_of_toNat_eq h
      rfl
  unfold bitwrResponse
  rw [if_neg (not_not.2 h1), if_neg (not_not.2 h2)]
  by_cases hv : q.v.toNat ≤ 1
  · rw [if_pos (by rw [BitVec.le_def]; simpa using hv), if_pos hv, hz _ hv]
  · rw [if_neg (by rw [BitVec.le_def]; simpa using hv), if_neg hv]

/-- `SRENC` of a pin below 16 (R83). -/
theorem srencResponse_eq {p : BitVec 5} {q : Request} (hp : p.toNat < 16) :
    srencResponse p q =
      .ok (if q.v.toNat ≤ 1 then
          Response.accepted { y := q.a, wd := 1#32 <<< (if q.v.getLsbD 0 then p.toNat else p.toNat + 16) }
        else Response.rejected { y := q.a, wd := 0 }) := by
  unfold srencResponse
  rw [if_neg (not_not.2 hp)]
  by_cases h1 : q.v = 1
  · rw [if_pos h1, if_pos (by rw [h1]; decide), h1]; rfl
  · rw [if_neg h1]
    by_cases h0 : q.v = 0
    · rw [if_pos h0, if_pos (by rw [h0]; decide), h0]; rfl
    · rw [if_neg h0, if_neg]
      intro hle
      rcases (by omega : q.v.toNat = 0 ∨ q.v.toNat = 1) with h | h
      · exact h0 (BitVec.eq_of_toNat_eq h)
      · exact h1 (BitVec.eq_of_toNat_eq h)

theorem toalias_ok (h : P.Valid) {base : Nat} (hb : base ∈ P.gpioBases) (r : Reg) (b : BitVec 5) (q : Request)
    (ha : q.a = regAddr P (BitVec.ofNat 32 base) r) :
    toaliasResponse P b q = .ok (Response.done { y := aliasOf P q.a b }) := by
  unfold toaliasResponse
  rw [if_neg (not_not.2 (by rw [ha]; exact regAddr_inRegion h hb r)),
    if_neg (not_not.2 (by rw [ha]; exact regAddr_aligned h hb r))]

theorem bitwr_ok (h : P.Valid) {base : Nat} (hb : base ∈ P.gpioBases) (r : Reg) (b : BitVec 5) (q : Request)
    (ha : q.a = regAddr P (BitVec.ofNat 32 base) r) :
    ∃ x, bitwrResponse P b q = .ok x ∧ x.y = aliasOf P q.a b := by
  unfold bitwrResponse
  rw [if_neg (not_not.2 (by rw [ha]; exact regAddr_inRegion h hb r)),
    if_neg (not_not.2 (by rw [ha]; exact regAddr_aligned h hb r))]
  split
  · exact ⟨_, rfl, rfl⟩
  · exact ⟨_, rfl, rfl⟩

theorem fget_ok {sh : BitVec 5} {w : Width} (hw : inWord sh w) (q : Request) :
    ∃ x, fgetResponse w sh q = .ok x := by
  unfold fgetResponse
  rw [if_neg (not_not.2 hw)]
  exact ⟨_, rfl⟩

theorem fset_ok {sh : BitVec 5} {w : Width} (hw : inWord sh w) (e : Bool) (q : Request) :
    ∃ x, fsetResponse w e sh q = .ok x ∧ x.y = q.a := by
  unfold fsetResponse
  rw [if_neg (not_not.2 hw)]
  split
  · exact ⟨_, rfl, rfl⟩
  · exact ⟨_, rfl, rfl⟩

/-- One bit is never both the set and the reset bit of a pin (R89). -/
theorem bothBits_one_shift : ∀ k < 32, bothBits (1#32 <<< k) = false := by decide

theorem srenc_ok {p : BitVec 5} (hp : p.toNat < 16) (q : Request) :
    ∃ x, srencResponse p q = .ok x ∧ x.y = q.a ∧ bothBits x.wd = false := by
  unfold srencResponse
  rw [if_neg (not_not.2 hp)]
  split
  · exact ⟨_, rfl, rfl, bothBits_one_shift _ (by omega)⟩
  · split
    · exact ⟨_, rfl, rfl, bothBits_one_shift _ (by omega)⟩
    · exact ⟨_, rfl, rfl, by simp [Response.rejected, bothBits]⟩

theorem toaliasResponse_ok {b : BitVec 5} {q : Request} {x : Response} (h : toaliasResponse P b q = .ok x) :
    inRegion P q.a ∧ wordAligned q.a ∧ x = Response.done { y := aliasOf P q.a b } := by
  unfold toaliasResponse at h
  split at h
  · cases h
  · rename_i h1
    split at h
    · cases h
    · rename_i h2
      exact ⟨not_not.1 h1, not_not.1 h2, by simpa using h.symm⟩

/-- One that violates them has no `Y`. -/
theorem staticY_toalias_violated {b : BitVec 5} {a : Addr} (h : ¬ (inRegion P a ∧ wordAligned a)) :
    staticY P (some (.toalias b)) a = .notStatic := by
  show (match toaliasResponse P b { a := a } with | .ok x => Static.known x.y | .error _ => .notStatic) = _
  cases hr : toaliasResponse P b { a := a } with
  | error e => rfl
  | ok x => obtain ⟨h1, h2, -⟩ := toaliasResponse_ok hr; exact absurd ⟨h1, h2⟩ h

theorem bitwrResponse_ok {b : BitVec 5} {q : Request} {x : Response} (h : bitwrResponse P b q = .ok x) :
    inRegion P q.a ∧ wordAligned q.a ∧ x.y = aliasOf P q.a b := by
  unfold bitwrResponse at h
  split at h
  · cases h
  · rename_i h1
    split at h
    · cases h
    · rename_i h2
      refine ⟨not_not.1 h1, not_not.1 h2, ?_⟩
      split at h <;> (simp only [Except.ok.injEq] at h; subst h; rfl)

theorem fsetResponse_ok {w : Width} {e : Bool} {sh : BitVec 5} {q : Request} {x : Response}
    (h : fsetResponse w e sh q = .ok x) : inWord sh w ∧ x.y = q.a := by
  unfold fsetResponse at h
  split at h
  · cases h
  · rename_i h1
    refine ⟨not_not.1 h1, ?_⟩
    split at h <;> (simp only [Except.ok.injEq] at h; subst h; rfl)

theorem srencResponse_ok {p : BitVec 5} {q : Request} {x : Response} (h : srencResponse p q = .ok x) :
    p.toNat < 16 ∧ x.y = q.a ∧ bothBits x.wd = false := by
  have hp : p.toNat < 16 := by
    by_contra hc
    simp [srencResponse, hc] at h
  obtain ⟨x', hx, h1, h2⟩ := srenc_ok hp q
  rw [h] at hx
  obtain rfl := Except.ok.inj hx
  exact ⟨hp, h1, h2⟩

/-- A handle made from a data array is answered with its block and pin (R77). -/
theorem pinlookup_ok (h : P.Valid) {base : Nat} (hm : base % P.bs = 0) (hlo : P.rb ≤ base)
    (hhi : base + P.bs ≤ P.rb + P.rs) {r : Reg} (hr : r = .idr ∨ r = .odr) (p : Nat) (hp : p < 16) (q : Request)
    (ha : q.a = aliasOf P (BitVec.ofNat 32 (base + P.off r)) (BitVec.ofNat 5 p)) :
    pinlookupResponse P q =
      .ok (Response.done { y := BitVec.ofNat 32 base, z := BitVec.ofNat 5 p }) := by
  have hreg := Params.region_le h.1
  have hoff := Params.off_lt h r
  have hn : (BitVec.ofNat 32 (base + P.off r)).toNat = base + P.off r := by
    simp only [BitVec.toNat_ofNat]; omega
  have hin : inRegion P (BitVec.ofNat 32 (base + P.off r)) := by constructor <;> omega
  have h4 : (BitVec.ofNat 32 (base + P.off r)).toNat % 4 = 0 := by
    rw [hn]
    have h2 := Params.off_aligned h r
    obtain ⟨k, rfl⟩ := Nat.dvd_of_mod_eq_zero hm
    obtain ⟨j, hj⟩ := Nat.dvd_of_mod_eq_zero (Params.bs_mod_four h.1)
    have : P.bs * k % 4 = 0 := by rw [hj, Nat.mul_assoc]; omega
    omega
  have hbase : blockBase P (BitVec.ofNat 32 (base + P.off r)) = BitVec.ofNat 32 base := by
    refine BitVec.eq_of_toNat_eq ?_
    rw [blockBase_toNat h.1, hn]
    have : (base + P.off r) % P.bs = P.off r := by
      rw [Nat.add_mod, hm, Nat.zero_add, Nat.mod_mod, Nat.mod_eq_of_lt (by omega)]
    rw [this]
    simp only [BitVec.toNat_ofNat]
    omega
  have hsub : (BitVec.ofNat 32 (base + P.off r) - BitVec.ofNat 32 base).toNat = P.off r := by
    rw [BitVec.toNat_sub, hn]
    simp only [BitVec.toNat_ofNat]
    omega
  have hbit : (BitVec.ofNat 5 p).toNat < 16 := by simp only [BitVec.toNat_ofNat]; omega
  unfold pinlookupResponse
  rw [ha, if_neg (not_not.2 (aliasOf_inWindow h.1 hin h4 _)), if_neg (not_not.2 (aliasOf_aligned h.1 hin h4 _))]
  simp only [aliasReg_aliasOf h.1 hin h4, aliasBit_aliasOf h.1 hin h4, hbase, hsub]
  rw [if_neg (not_not.2 (by rcases hr with rfl | rfl <;> simp)), if_neg (not_not.2 hbit)]

end Sys2Proof.Machine
end

