-- ==== Sys2Proof/Laws/Step.lean ====
section
/-! SUPPORT. What a step can do, said once: `runLine`, `agentTurn` and `step` inverted. -/

namespace Sys2Proof.Machine

/-- The image is as it was, or one word of it was written: of a register R21 lets be written, in a listed block,
its placeholder bits kept, or a word of a listed block that holds no register. -/
def ImageStep (s t : State) : Prop :=
  t.img = s.img ∨ ∃ base a w, base ∈ s.cfg.gpioBases ∧ t.img = Memory.setWord s.img a w ∧
    WordWritten s.cfg s.img base a w

/-- What a turn leaves of everything that is not the acting agent's own. -/
structure TurnFrame (id : AgentId) (s t : State) : Prop where
  cfg    : t.cfg = s.cfg
  sched  : t.sched = s.sched
  others : ∀ id', id ≠ id' → t.agent? id' = s.agent? id'

theorem TurnFrame.rfl' (id : AgentId) (s : State) : TurnFrame id s s := ⟨rfl, rfl, fun _ _ => rfl⟩

theorem TurnFrame.trans {id : AgentId} {s t u : State} (h1 : TurnFrame id s t) (h2 : TurnFrame id t u) :
    TurnFrame id s u :=
  ⟨h2.cfg.trans h1.cfg, h2.sched.trans h1.sched, fun i hi => (h2.others i hi).trans (h1.others i hi)⟩

theorem TurnFrame.setAgent (id : AgentId) (s : State) (ag : Agent) : TurnFrame id s (s.setAgent id ag) :=
  ⟨by simp, by simp, fun _ h => State.agent?_setAgent_other h ag⟩

theorem TurnFrame.mapAgent (id : AgentId) (s : State) (f : Agent → Agent) : TurnFrame id s (s.mapAgent id f) :=
  ⟨by simp, by simp, fun _ h => State.agent?_mapAgent_other h f⟩

theorem TurnFrame.afterLine (id : AgentId) (s : State) (q l rest) : TurnFrame id s (afterLine id q l rest s) :=
  ⟨by simp, by simp, fun _ h => afterLine_agent?_other h q l rest⟩

theorem TurnFrame.drawIf (id : AgentId) (s : State) (b : Bool) : TurnFrame id s (s.drawIf b) :=
  ⟨by simp, by simp, fun _ _ => by simp⟩

theorem TurnFrame.faulted (id : AgentId) (ag l f) (s : State) : TurnFrame id s (faulted id ag l f s) :=
  ⟨by simp, by simp, fun _ h => faulted_agent?_other h ag l f⟩

/-- What one line leaves of its agent: it binds names, and that is all. -/
structure SameProgram (a b : Agent) : Prop where
  code    : b.code = a.code
  running : b.running = a.running
  conf    : b.conf = a.conf
  results : b.results = a.results
  stopped : b.stopped = a.stopped

theorem BoundBy.same {l : Line} {a b : Agent} (h : BoundBy l a b) : SameProgram a b := by
  cases l with
  | request dst ctrl x d v m => obtain ⟨x, rfl⟩ := h; exact ⟨rfl, rfl, rfl, rfl, rfl⟩
  | ld dst n addr => obtain ⟨w, rfl⟩ := h; exact ⟨rfl, rfl, rfl, rfl, rfl⟩
  | st _ _ _ => obtain rfl := h; exact ⟨rfl, rfl, rfl, rfl, rfl⟩
  | stWe _ => obtain rfl := h; exact ⟨rfl, rfl, rfl, rfl, rfl⟩

/-- One line keeps the frame, and leaves its agent with its names bound, whatever the parameters are. -/
theorem runLine_frame {id : AgentId} {ag : Agent} {l : Line} {s t : State} (h : runLine id ag l s = .next t) :
    TurnFrame id s t ∧
      ∀ old, s.agent? id = some old → ∃ new, t.agent? id = some new ∧ BoundBy l old new := by
  have wr : ∀ {b n a v u}, memWrite (s.drawIf b) n a v = .ok u → TurnFrame id s u ∧
      ∀ old, s.agent? id = some old → u.agent? id = some old := by
    intro b n a v u hu
    obtain ⟨m, rfl⟩ := memWrite_frame hu
    have hag : ∀ i, State.agent? { s.drawIf b with img := m } i = s.agent? i := fun i =>
      (State.agent?_congr rfl rfl rfl i).trans (State.drawIf_agent? s b i)
    exact ⟨⟨by simp, by simp, fun i _ => hag i⟩, fun old ha => (hag id).trans ha⟩
  cases l with
  | request dst ctrl a d v m =>
    simp only [runLine] at h
    split at h
    · rename_i u hu
      obtain ⟨r, rfl⟩ := present_next hu
      obtain rfl := Host.Outcome.next.inj h
      refine ⟨⟨by simp, by simp, fun i hi => ?_⟩, fun old ha => ?_⟩
      · rw [nameResponse, State.agent?_mapAgent_other hi]
        exact (State.agent?_congr rfl rfl rfl i).trans (State.drawIf_agent? ..)
      · refine ⟨_, State.agent?_mapAgent_same ?_ _, _, rfl⟩
        exact (State.agent?_congr rfl rfl rfl id).trans ((State.drawIf_agent? ..).trans ha)
    · cases h
    · cases h
  | ld dst size addr =>
    simp only [runLine] at h
    split at h
    · cases h
    · rename_i w u hu
      obtain ⟨base, r, rfl⟩ := memRead_ok hu
      obtain rfl := Host.Outcome.next.inj h
      refine ⟨⟨by simp, by simp, fun i hi => by
        rw [State.agent?_mapAgent_other hi, afterRead_agent?, State.drawIf_agent?]⟩, fun old ha => ?_⟩
      refine ⟨_, State.agent?_mapAgent_same ?_ _, _, rfl⟩
      rw [afterRead_agent?, State.drawIf_agent?, ha]
  | st size addr data =>
    simp only [runLine] at h
    split at h
    · cases h
    · rename_i u hu
      obtain rfl := Host.Outcome.next.inj h
      exact ⟨(wr hu).1, fun old ha => ⟨old, (wr hu).2 old ha, rfl⟩⟩
  | stWe n =>
    simp only [runLine] at h
    split at h
    · split at h
      · cases h
      · rename_i u hu
        obtain rfl := Host.Outcome.next.inj h
        exact ⟨(wr hu).1, fun old ha => ⟨old, (wr hu).2 old ha, rfl⟩⟩
    · obtain rfl := Host.Outcome.next.inj h
      exact ⟨.drawIf .., fun old ha => ⟨old, by rw [State.drawIf_agent?, ha], rfl⟩⟩

/-- One line makes at most one write. -/
theorem runLine_image {id : AgentId} {ag : Agent} {l : Line} {s t : State} (hv : s.cfg.Valid)
    (h : runLine id ag l s = .next t) : ImageStep s t := by
  have wr : ∀ {b n a v u}, memWrite (s.drawIf b) n a v = .ok u → ImageStep s u := by
    intro b n a v u hu
    obtain ⟨base, a', w, hb, rfl, hw⟩ := memWrite_ok (by simpa using hv) hu
    simp only [State.drawIf_cfg, State.drawIf_img] at hb hw
    exact .inr ⟨base, a', w, hb, by simp, hw⟩
  cases l with
  | request dst ctrl a d v m =>
    simp only [runLine] at h
    split at h
    · rename_i u hu
      obtain ⟨r, rfl⟩ := present_next hu
      obtain rfl := Host.Outcome.next.inj h
      exact .inl (by simp)
    · cases h
    · cases h
  | ld dst size addr =>
    simp only [runLine] at h
    split at h
    · cases h
    · rename_i w u hu
      obtain ⟨base, r, rfl⟩ := memRead_ok hu
      obtain rfl := Host.Outcome.next.inj h
      exact .inl (by simp)
  | st size addr data =>
    simp only [runLine] at h
    split at h
    · cases h
    · rename_i u hu
      obtain rfl := Host.Outcome.next.inj h
      exact wr hu
  | stWe n =>
    simp only [runLine] at h
    split at h
    · split at h
      · cases h
      · rename_i u hu
        obtain rfl := Host.Outcome.next.inj h
        exact wr hu
    · obtain rfl := Host.Outcome.next.inj h
      exact .inl (by simp)

/-- One turn keeps the frame, whatever the parameters are. -/
theorem agentTurn_frame {id : AgentId} {ag : Agent} {s t : State} (h : agentTurn id ag s = .next t) :
    TurnFrame id s t := by
  unfold agentTurn at h
  repeat' split at h
  all_goals try cases h
  · rename_i u hu; exact (runLine_frame hu).1.trans (.afterLine ..)
  · exact .faulted ..
  · exact .setAgent ..
  · exact .setAgent ..
  · exact .setAgent ..
  · exact .rfl' ..
  · rename_i u hu; exact (TurnFrame.setAgent ..).trans (runLine_frame hu).1
  · exact .faulted ..
  · exact .setAgent ..
  · exact .setAgent ..

/-- One turn makes at most one write. -/
theorem agentTurn_image {id : AgentId} {ag : Agent} {s t : State} (hv : s.cfg.Valid)
    (h : agentTurn id ag s = .next t) : ImageStep s t := by
  unfold agentTurn at h
  repeat' split at h
  all_goals try cases h
  · rename_i u hu
    have := runLine_image hv hu
    simpa only [ImageStep, afterLine_img] using this
  · exact .inl (by simp)
  · exact .inl (by simp)
  · exact .inl (by simp)
  · exact .inl (by simp)
  · exact .inl rfl
  · rename_i u hu
    have := runLine_image (s := s.setAgent id _) (by simpa using hv) hu
    simpa only [ImageStep, State.setAgent_img, State.setAgent_cfg] using this
  · exact .inl (by simp)
  · exact .inl (by simp)
  · exact .inl (by simp)

/-- A line answers a next state or faults: it is never refused. -/
theorem runLine_ne_refused (id : AgentId) (ag : Agent) (l : Line) (s : State) (r : Refusal) :
    runLine id ag l s ≠ .refused r := by
  intro h
  cases l with
  | request dst ctrl a d v m =>
    simp only [runLine] at h
    split at h
    · cases h
    · cases h
    · rename_i hp
      unfold present at hp
      split at hp
      · cases hp
      · exact exec_ne_refused _ _ _ hp
  | ld _ _ _ => simp only [runLine] at h; split at h <;> cases h
  | st _ _ _ => simp only [runLine] at h; split at h <;> cases h
  | stWe _ => simp only [runLine] at h; repeat' split at h
              all_goals cases h

/-- Whether a line faults depends on the parameters and on what its agent holds (and on the draw of a name that is not
bound). -/
theorem runLine_fault_congr {id : AgentId} {ag : Agent} {l : Line} {s s' : State} (hc : s'.cfg = s.cfg)
    (hd : s'.draws = s.draws) {f : Fault} (h : runLine id ag l s = .fault f) : runLine id ag l s' = .fault f := by
  cases l with
  | request dst ctrl a d v m =>
    simp only [runLine, present] at h ⊢
    rw [hc, hd]
    rw [show (requestOf s.cfg s.draws ag ctrl a d v m).ctrl = ctrl from rfl] at h ⊢
    cases hdc : decode ctrl with
    | error e => rw [hdc] at h; simp at h
    | ok i =>
      rw [hdc] at h
      simp only at h ⊢
      split at h
      · cases h
      · rename_i f' hf
        obtain ⟨c, hr, e⟩ := exec_eq_fault_iff.1 hf
        have : exec i { s'.drawIf (Line.unbound ag (.request dst ctrl a d v m)) with
            inp := requestOf s.cfg s.draws ag ctrl a d v m } = .fault f' := exec_eq_fault_iff.2 ⟨c, by simp only [State.drawIf_cfg, hc] at hr ⊢; exact hr, e⟩
        rw [this]; exact h
      · cases h
  | ld dst n a =>
    simp only [runLine] at h ⊢
    rw [hc, hd]
    split at h
    · rename_i f' hf
      rw [memRead_error (s' := s'.drawIf (Line.unbound ag (.ld dst n a))) (by simp [hc]) hf]; exact h
    · cases h
  | st n a d =>
    simp only [runLine] at h ⊢
    rw [hc, hd]
    split at h
    · rename_i f' hf
      rw [memWrite_error (s' := s'.drawIf (Line.unbound ag (.st n a d))) (by simp [hc]) hf]; exact h
    · cases h
  | stWe n =>
    simp only [runLine] at h ⊢
    rw [hd]
    split at h
    · rename_i hw
      rw [if_pos hw]
      split at h
      · rename_i f' hf
        rw [memWrite_error (s' := s'.drawIf (Line.unbound ag (.stWe n))) (by simp [hc]) hf]; exact h
      · cases h
    · cases h

/-- A turn always goes on. -/
theorem agentTurn_next (id : AgentId) (ag : Agent) (s : State) : ∃ t, agentTurn id ag s = .next t := by
  unfold agentTurn
  repeat' split
  all_goals first
    | exact ⟨_, rfl⟩
    | (rename_i h; exact (runLine_ne_refused _ _ _ _ _ h).elim)

/-- A step, inverted: the program is well-formed, and either no agent is scheduled and nothing happens, or
the scheduled one takes a turn. -/
theorem step_next {s t : State} (h : step s = .next t) :
    checkProgram s = none ∧
      ((s.sched = [] ∧ t = s) ∨
        ∃ id rest, s.sched = id :: rest ∧ turn id { s with sched := rest } = .next t) := by
  unfold step machineStep at h
  split at h
  · cases h
  · rename_i hc
    refine ⟨hc, ?_⟩
    split at h
    · rename_i hs
      exact .inl ⟨hs, by simpa using h.symm⟩
    · rename_i id rest hs
      exact .inr ⟨id, rest, hs, h⟩

/-- A turn, inverted: there is no such agent, or it has stopped, and nothing happens; or it takes its turn. -/
theorem turn_next {id : AgentId} {s t : State} (h : turn id s = .next t) :
    ((∀ ag, s.agent? id = some ag → ag.stopped ≠ none) ∧ t = s) ∨
      ∃ ag, s.agent? id = some ag ∧ ag.stopped = none ∧ agentTurn id ag s = .next t := by
  unfold turn at h
  split at h
  · rename_i hn
    exact .inl ⟨fun ag ha => (by rw [hn] at ha; cases ha), by simpa using h.symm⟩
  · rename_i ag ha
    split at h
    · rename_i hs
      refine .inl ⟨fun ag' ha' => ?_, by simpa using h.symm⟩
      obtain rfl := Option.some.inj (ha.symm.trans ha')
      intro e; rw [e] at hs; cases hs
    · rename_i hs
      exact .inr ⟨ag, ha, by simpa using hs, h⟩

/-- A turn always goes on. -/
theorem turn_ok (id : AgentId) (s : State) : ∃ t, turn id s = .next t := by
  unfold turn
  split
  · exact ⟨_, rfl⟩
  · split
    · exact ⟨_, rfl⟩
    · exact agentTurn_next ..

/-- A step of a well-formed program always answers a next state: a fault stops its agent, not the machine (R94). -/
theorem step_ok {s : State} (hc : checkProgram s = none) : ∃ t, step s = .next t := by
  unfold step machineStep
  rw [hc]
  dsimp only
  split
  · exact ⟨_, rfl⟩
  · exact turn_ok ..

/-- Every step keeps the configuration (R18), and writes at most one word. -/
theorem step_image {s t : State} (hv : s.cfg.Valid) (h : step s = .next t) :
    t.cfg = s.cfg ∧ ImageStep s t := by
  obtain ⟨-, ⟨-, rfl⟩ | ⟨id, rest, -, ht⟩⟩ := step_next h
  · exact ⟨rfl, .inl rfl⟩
  · obtain ⟨-, rfl⟩ | ⟨ag, -, -, hag⟩ := turn_next ht
    · exact ⟨rfl, .inl rfl⟩
    · exact ⟨(agentTurn_frame hag).cfg, agentTurn_image (s := { s with sched := rest }) hv hag⟩

/-- A step keeps the configuration (R18), and every agent but the scheduled one, whatever the parameters are. -/
theorem step_frame {s t : State} (h : step s = .next t) :
    t.cfg = s.cfg ∧ ∀ id rest, s.sched = id :: rest →
      t.sched = rest ∧ ∀ id', id ≠ id' → t.agent? id' = s.agent? id' := by
  obtain ⟨-, ⟨hs, rfl⟩ | ⟨id, rest, hs, ht⟩⟩ := step_next h
  · exact ⟨rfl, fun id rest h => by rw [hs] at h; cases h⟩
  · obtain ⟨-, rfl⟩ | ⟨ag, -, -, hag⟩ := turn_next ht
    · exact ⟨rfl, fun id' rest' h' => by
        rw [hs] at h'; cases h'; exact ⟨rfl, fun i _ => State.agent?_congr rfl rfl rfl i⟩⟩
    · have hf := agentTurn_frame hag
      refine ⟨hf.cfg, fun id' rest' h' => ?_⟩
      rw [hs] at h'; cases h'
      exact ⟨hf.sched, fun i hi => (hf.others i hi).trans (State.agent?_congr rfl rfl rfl i)⟩

/-- The step of a scheduled agent. -/
theorem step_eq_agentTurn {s : State} {id : AgentId} {rest : List AgentId} {ag : Agent} (hc : checkProgram s = none)
    (hs : s.sched = id :: rest) (ha : s.agent? id = some ag) (hst : ag.stopped = none) :
    step s = agentTurn id ag { s with sched := rest } := by
  have ha' : State.agent? { s with sched := rest } id = some ag := by
    rw [← ha]; exact State.agent?_congr rfl rfl rfl id
  simp only [step, machineStep, hc, hs, turn, ha', hst]
  rfl

/-- The step of a scheduled agent that has stopped: nothing but the schedule moves. -/
theorem step_stopped {s : State} {id : AgentId} {rest : List AgentId} {ag : Agent} (hc : checkProgram s = none)
    (hs : s.sched = id :: rest) (ha : s.agent? id = some ag) (hst : ag.stopped ≠ none) :
    step s = .next { s with sched := rest } := by
  have ha' : State.agent? { s with sched := rest } id = some ag := by
    rw [← ha]; exact State.agent?_congr rfl rfl rfl id
  simp only [step, machineStep, hc, hs, turn, ha', Option.isSome_iff_ne_none.2 hst, if_true]

/-- An agent between sequences whose next item is a line runs it. -/
theorem agentTurn_line {id : AgentId} {ag : Agent} {s : State} {l : Line} {code : List Item}
    (hr : ag.running = none) (hcf : ag.conf = none) (hcode : ag.code = .line l :: code) :
    agentTurn id ag s = match runLine id ag l (s.setAgent id { ag with code := code }) with
      | .next t => .next t
      | .fault f => .next (faulted id ag l f s)
      | .refused r => .refused r := by
  cases ag; cases hr; cases hcf; cases hcode; rfl

/-! ### Which agents there are -/

theorem State.mem_agents {s : State} {ag : Agent} : ag ∈ s.agents ↔ ∃ id, s.agent? id = some ag := by
  simp only [State.agents, List.mem_cons, List.mem_append]
  constructor
  · rintro (rfl | h | h)
    · exact ⟨.foreground, rfl⟩
    · obtain ⟨n, hn⟩ := List.mem_iff_getElem?.1 h; exact ⟨.handler n, hn⟩
    · obtain ⟨n, hn⟩ := List.mem_iff_getElem?.1 h; exact ⟨.dma n, hn⟩
  · rintro ⟨id, h⟩
    cases id with
    | foreground => exact .inl (by simpa [State.agent?] using h.symm)
    | handler n => exact .inr (.inl (List.mem_iff_getElem?.2 ⟨n, h⟩))
    | dma n => exact .inr (.inr (List.mem_iff_getElem?.2 ⟨n, h⟩))

/-- A program is well-formed where every agent's is. -/
theorem checkProgram_eq_none {s : State} :
    checkProgram s = none ↔ ∀ id ag, s.agent? id = some ag → checkAgent s.cfg ag = none := by
  rw [checkProgram, checkAgents_eq_none]
  constructor
  · intro h id ag ha; exact h ag (State.mem_agents.2 ⟨id, ha⟩)
  · intro h ag ha; obtain ⟨id, hid⟩ := State.mem_agents.1 ha; exact h id ag hid

/-- Ending a sequence leaves the program as it is, or drops the rest of a `configure`. -/
theorem Agent.finish_check {P : Params} {ag : Agent} (h1 : checkSeqs P ag.confSteps = none) (res stop) :
    checkSeqs P (ag.finish res stop).confSteps = none := by
  unfold Agent.confSteps at h1 ⊢
  simp only [Agent.finish]
  cases hc : ag.conf with
  | none => rfl
  | some c =>
    rw [hc] at h1
    have key : ∀ b : Bool, checkSeqs P (if b then [] else c.steps) = none := by
      intro b
      cases b
      · exact h1
      · rfl
    exact key _

theorem Agent.finish_midSequence {P : Params} {ag : Agent} (res stop) :
    (ag.finish res stop).midSequence P := by
  intro run hr
  simp [Agent.finish] at hr

/-- The two parts of the invariant that are an agent's own. -/
def AgentOk (P : Params) (ag : Agent) : Prop := checkAgent P ag = none ∧ ag.midSequence P

/-- A response of a decoded request is never the ILLEGAL one (R93). -/
theorem respond_ill {P : Params} {i : Instr} {q : Request} {x : Response} (h : respond P i q = .ok x) :
    x.ill = false := by
  cases i <;>
    simp only [respond, toaliasResponse, fromaliasResponse, pinlookupResponse, fgetResponse, fsetResponse,
      bitwrResponse, srencResponse] at h <;>
    (repeat' split at h) <;> cases h <;> rfl

/-- A request line, inverted: its agent's name is bound to the response, the ILLEGAL one or the operation's. -/
theorem runLine_request_next {id : AgentId} {ag : Agent} {dst : Name} {ctrl : Half} {a d : Operand}
    {v m : NarrowOperand} {s u : State} (h : runLine id ag (.request dst ctrl a d v m) s = .next u) :
    ∃ x, ((x = Response.illegal ∧ ∃ e, decode ctrl = .error e) ∨
        ∃ i, decode ctrl = .ok i ∧ respond s.cfg i (requestOf s.cfg s.draws ag ctrl a d v m) = .ok x) ∧
      u = nameResponse id dst
        { s.drawIf (Line.unbound ag (.request dst ctrl a d v m)) with
          inp := requestOf s.cfg s.draws ag ctrl a d v m, out := x } := by
  simp only [runLine] at h
  split at h
  · rename_i t ht
    simp only [Host.Outcome.next.injEq] at h
    unfold present at ht
    split at ht
    · rename_i e he
      simp only [Host.Outcome.next.injEq] at ht
      subst ht
      exact ⟨_, .inl ⟨rfl, e, he⟩, h.symm⟩
    · rename_i i hi
      obtain ⟨r, hr, rfl⟩ := exec_eq_next_iff.1 ht
      exact ⟨r, .inr ⟨i, hi, by simpa using hr⟩, h.symm⟩
  · cases h
  · cases h

/-- The name a request line binds. -/
theorem runLine_request_agent {id : AgentId} {ag : Agent} {dst : Name} {ctrl : Half} {a d : Operand}
    {v m : NarrowOperand} {s u : State} (ha : s.agent? id = some ag)
    (h : runLine id ag (.request dst ctrl a d v m) s = .next u) :
    ∃ x, ((x = Response.illegal ∧ ∃ e, decode ctrl = .error e) ∨
        ∃ i, decode ctrl = .ok i ∧ respond s.cfg i (requestOf s.cfg s.draws ag ctrl a d v m) = .ok x) ∧
      u.out = x ∧ u.agent? id = some (ag.bindResponse dst x) := by
  obtain ⟨x, hx, rfl⟩ := runLine_request_next h
  refine ⟨x, hx, by simp, State.agent?_mapAgent_same ?_ _⟩
  exact (State.agent?_congr rfl rfl rfl id).trans ((State.drawIf_agent? ..).trans ha)

/-- The name a read binds. -/
theorem runLine_ld_agent {id : AgentId} {ag : Agent} {dst : Name} {n : Nat} {addr : Operand} {s u : State}
    (ha : s.agent? id = some ag) (h : runLine id ag (.ld dst n addr) s = .next u) :
    ∃ w, u.agent? id = some (ag.bindWord dst w) := by
  simp only [runLine] at h
  split at h
  · cases h
  · rename_i w t ht
    obtain ⟨base, r, rfl⟩ := memRead_ok ht
    simp only [Host.Outcome.next.injEq] at h
    rw [← h]
    refine ⟨w, State.agent?_mapAgent_same ?_ _⟩
    rw [afterRead_agent?, State.drawIf_agent?, ha]

theorem suffix_cases {α : Type} {l : α} {ls full : List α} (h : l :: ls <:+ full) :
    ∃ pre, full = pre ++ l :: ls := by
  obtain ⟨pre, hp⟩ := h
  exact ⟨pre, hp.symm⟩

theorem suffix_two {α : Type} {a b x y : α} {ls : List α} (h : x :: y :: ls <:+ [a, b]) :
    x = a ∧ y = b ∧ ls = [] := by
  have hl := h.length_le
  have e := h.eq_of_length (by simp at hl ⊢; omega)
  simpa using e

theorem suffix_three {α : Type} {a b c x y : α} {ls : List α} (h : x :: y :: ls <:+ [a, b, c]) :
    (x = a ∧ y = b ∧ ls = [c]) ∨ (x = b ∧ y = c ∧ ls = []) := by
  rcases List.suffix_cons_iff.1 h with e | h
  · left; simpa using e
  · right; exact suffix_two h

theorem suffix_one {α : Type} {a x y : α} {ls : List α} (h : x :: y :: ls <:+ [a]) : False := by
  have hl := h.length_le
  simp at hl

/-- After a line that is not its sequence's last, the agent holds what the rest needs. -/
theorem runLine_holds {id : AgentId} {ag new : Agent} {q : AccessSeq} {l l' : Line} {ls : List Line} {s u : State}
    (ha : s.agent? id = some ag) (hsuf : l :: l' :: ls <:+ expand s.cfg q)
    (h : runLine id ag l s = .next u) (hn : u.agent? id = some new) :
    new.holds s.cfg q (l' :: ls).length = true := by
  cases q with
  | readInput _ => rfl
  | readOutput _ => rfl
  | pinOf _ => rfl
  | readBit reg b =>
    obtain ⟨rfl, rfl, rfl⟩ := suffix_two hsuf
    obtain ⟨x, hx, -, hag⟩ := runLine_request_agent ha h
    obtain rfl := Option.some.inj (hag.symm.trans hn)
    rw [decode_encode_toalias] at hx
    obtain ⟨-, e, he⟩ | ⟨i, hi, hr⟩ := hx
    · cases he
    · cases hi
      obtain ⟨-, -, rfl⟩ := toaliasResponse_ok hr
      simp [Agent.holds, Response.done, requestOf, Operand.eval]
  | get w reg sh =>
    obtain ⟨rfl, rfl, rfl⟩ := suffix_two hsuf
    obtain ⟨x, hag⟩ := runLine_ld_agent ha h
    obtain rfl := Option.some.inj (hag.symm.trans hn)
    simp [Agent.holds]
  | setBit reg b v =>
    obtain ⟨rfl, rfl, rfl⟩ := suffix_two hsuf
    obtain ⟨x, hx, -, hag⟩ := runLine_request_agent ha h
    obtain rfl := Option.some.inj (hag.symm.trans hn)
    rw [decode_encode_bitwr] at hx
    obtain ⟨-, e, he⟩ | ⟨i, hi, hr⟩ := hx
    · cases he
    · cases hi
      obtain ⟨-, -, hy⟩ := bitwrResponse_ok hr
      simp [Agent.holds, hy, requestOf, Operand.eval]
  | set w e reg sh v m =>
    obtain ⟨rfl, rfl, rfl⟩ | ⟨rfl, rfl, rfl⟩ := suffix_three hsuf
    · obtain ⟨x, hag⟩ := runLine_ld_agent ha h
      obtain rfl := Option.some.inj (hag.symm.trans hn)
      simp [Agent.holds]
    · obtain ⟨x, hx, -, hag⟩ := runLine_request_agent ha h
      obtain rfl := Option.some.inj (hag.symm.trans hn)
      rw [decode_encode_fset] at hx
      obtain ⟨rfl, -⟩ | ⟨i, hi, hr⟩ := hx
      · simp [Agent.holds, Response.illegal]
      · split at hi
        · cases hi
        · cases hi
          obtain ⟨-, hy⟩ := fsetResponse_ok hr
          simp [Agent.holds, hy, requestOf, Operand.eval]
  | writeDirect p v =>
    obtain ⟨rfl, rfl, rfl⟩ := suffix_two hsuf
    obtain ⟨x, hx, -, hag⟩ := runLine_request_agent ha h
    obtain rfl := Option.some.inj (hag.symm.trans hn)
    rw [decode_encode_bitwr] at hx
    obtain ⟨-, e, he⟩ | ⟨i, hi, hr⟩ := hx
    · cases he
    · cases hi
      obtain ⟨-, -, hy⟩ := bitwrResponse_ok hr
      simp [Agent.holds, hy, requestOf, Operand.eval]
  | writeSetReset p v =>
    obtain ⟨rfl, rfl, rfl⟩ := suffix_two hsuf
    obtain ⟨x, hx, -, hag⟩ := runLine_request_agent ha h
    obtain rfl := Option.some.inj (hag.symm.trans hn)
    rw [decode_encode_srenc] at hx
    obtain ⟨-, e, he⟩ | ⟨i, hi, hr⟩ := hx
    · cases he
    · cases hi
      obtain ⟨-, hy, hb⟩ := srencResponse_ok hr
      simp [Agent.holds, hy, hb, requestOf, Operand.eval]

theorem expand_ne_nil (P : Params) (q : AccessSeq) : expand P q ≠ [] := by cases q <;> simp [expand]

/-- A sequence just begun needs nothing. -/
theorem holds_expand (P : Params) (q : AccessSeq) (ag : Agent) : ag.holds P q (expand P q).length = true := by
  cases q <;> simp [expand, Agent.holds]

/-- No more is known of the names once a line has run than before it, if what is left binds what the rest did. -/
theorem namesOf_line {P : Params} {l : Line} {rest : List Line} {a b c : Agent} (hb : BoundBy l a b)
    (hl : a.linesLeft = l :: rest) (hn : boundNames c = boundNames b)
    (hr : ∀ e : StaticNames, e.afterLines P c.linesLeft = e.afterLines P rest) (hcf : c.conf.isSome = a.conf.isSome) :
    (namesOf P c).Le (namesOf P a) := by
  rw [namesOf_eq, namesOf_eq]
  refine namesAt_le ?_ hcf
  rw [hn, hr, hl]
  exact (boundNames_after hb).afterLines

/-- Where an access sequence ends early, at an ILLEGAL response, the lines it drops bind no name. -/
theorem afterLines_dropped {id : AgentId} {s u : State} {ag : Agent} {q : AccessSeq} {l : Line} {rest : List Line}
    (hsuf : l :: rest <:+ expand s.cfg q) (h : runLine id ag l s = .next u) (hill : (!Line.isBus l && u.out.ill) = true)
    (P : Params) (e : StaticNames) : e.afterLines P rest = e := by
  cases rest with
  | nil => rfl
  | cons l' ls =>
    cases q with
    | readInput _ => exact (suffix_one hsuf).elim
    | readOutput _ => exact (suffix_one hsuf).elim
    | pinOf _ => exact (suffix_one hsuf).elim
    | get w reg sh => obtain ⟨rfl, -, -⟩ := suffix_two hsuf; cases hill
    | setBit reg b v => obtain ⟨-, rfl, rfl⟩ := suffix_two hsuf; rfl
    | writeDirect h v => obtain ⟨-, rfl, rfl⟩ := suffix_two hsuf; rfl
    | writeSetReset h v => obtain ⟨-, rfl, rfl⟩ := suffix_two hsuf; rfl
    | set w e reg sh v m =>
      obtain ⟨rfl, -, -⟩ | ⟨-, rfl, rfl⟩ := suffix_three hsuf
      · cases hill
      · rfl
    | readBit reg b =>
      obtain ⟨rfl, -, -⟩ := suffix_two hsuf
      obtain ⟨x, hx, rfl⟩ := runLine_request_next h
      rw [decode_encode_toalias] at hx
      obtain ⟨-, e, he⟩ | ⟨i, -, hr⟩ := hx
      · cases he
      · simp [reqLine, Line.isBus, nameResponse, respond_ill hr] at hill

/-- What one line of its sequence leaves of an agent that holds what the sequence needs. -/
theorem afterLine_ok {id : AgentId} {s u : State} {ag : Agent} {q : AccessSeq} {l : Line} {rest : List Line}
    (ha : s.agent? id = some ag) (hr : ag.running = some ⟨q, l :: rest⟩) (hc : checkAgent s.cfg ag = none)
    (hq : checkSeq s.cfg q = none) (hsuf : l :: rest <:+ expand s.cfg q) (h : runLine id ag l s = .next u) :
    ∃ new, (afterLine id q l rest u).agent? id = some new ∧ AgentOk s.cfg new := by
  obtain ⟨new, hn, hs⟩ := (runLine_frame h).2 ag ha
  have hl : ag.linesLeft = l :: rest := by simp [Agent.linesLeft, hr]
  rw [checkAgent_eq_none] at hc
  have hsteps : checkSeqs s.cfg new.confSteps = none := by
    have := hc.1
    unfold Agent.confSteps at this ⊢
    rwa [hs.same.conf]
  have keeps : ∀ c : Agent, c.code = new.code → checkSeqs s.cfg c.confSteps = none → boundNames c = boundNames new →
      (∀ e : StaticNames, e.afterLines s.cfg c.linesLeft = e.afterLines s.cfg rest) →
      c.conf.isSome = new.conf.isSome → checkAgent s.cfg c = none := by
    intro c h1 h2 h3 h4 h5
    rw [checkAgent_eq_none, h1, hs.same.code]
    exact ⟨h2, checkItems_le (namesOf_line hs hl h3 h4 (by rw [h5, hs.same.conf])) hc.2⟩
  have ends : ∀ res stop, (∀ e : StaticNames, e.afterLines s.cfg rest = e) →
      checkAgent s.cfg (new.finish res stop) = none := fun res stop hd =>
    keeps _ rfl (Agent.finish_check hsteps ..) rfl (fun e => (hd e).symm) (by simp only [Agent.finish]; cases new.conf <;> rfl)
  unfold afterLine
  split
  · rename_i hill
    exact ⟨_, endSeq_agent?_same hn _, ends _ _ (afterLines_dropped hsuf h hill s.cfg),
      fun _ => Agent.finish_midSequence _ _ _⟩
  · split
    · exact ⟨_, endSeq_agent?_same hn _, ends _ _ fun _ => rfl, fun _ => Agent.finish_midSequence _ _ _⟩
    · refine ⟨_, State.agent?_mapAgent_same hn _, ?_, ?_⟩
      · exact keeps _ rfl hsteps rfl (fun _ => rfl) rfl
      · intro run hr
        simp only [Option.mem_def, Option.some.injEq] at hr
        subst hr
        have := runLine_holds ha hsuf h hn
        exact ⟨hq, by simp, (List.suffix_cons _ _).trans hsuf, this⟩

/-- A sequence taken up. -/
theorem startSeq_ok {P : Params} {q : AccessSeq} {ag : Agent} (hc : checkSeqs P ag.confSteps = none)
    (hcode : checkItems P (namesAt P (boundNames ag) (expand P q) ag.conf) ag.code = none)
    (hq : checkSeq P q = none) : AgentOk P (startSeq P q ag) := by
  refine ⟨checkAgent_eq_none.2 ⟨hc, hcode⟩, fun run hrun => ?_⟩
  · simp only [startSeq, Option.mem_def, Option.some.injEq] at hrun
    subst hrun
    exact ⟨hq, expand_ne_nil P q, List.suffix_refl _, holds_expand P q _⟩

/-- An agent that stops has what it had. -/
theorem AgentOk.stop {P : Params} {ag : Agent} (h : AgentOk P ag) (f : Fault) :
    AgentOk P { ag with stopped := some f } := h

/-- A turn keeps what the invariant says of its agent. -/
theorem agentTurn_ok {id : AgentId} {ag : Agent} {s t : State}
    (ha : s.agent? id = some ag) (hok : AgentOk s.cfg ag) (h : agentTurn id ag s = .next t) :
    ∃ new, t.agent? id = some new ∧ AgentOk s.cfg new := by
  unfold agentTurn at h
  split at h
  · rename_i q l ls hr
    split at h
    · rename_i u hu
      simp only [Host.Outcome.next.injEq] at h
      subst h
      obtain ⟨hq, -, hsuf, -⟩ := hok.2 _ hr
      exact afterLine_ok ha hr hok.1 hq hsuf hu
    · rename_i f _
      obtain rfl := Host.Outcome.next.inj h
      exact ⟨_, faulted_agent?_same ha .., AgentOk.stop hok f⟩
    · cases h
  · rename_i hr
    exact absurd rfl (hok.2 _ hr).2.1
  · rename_i hr
    have hc := checkAgent_eq_none.1 hok.1
    have hl : ag.linesLeft = [] := by simp [Agent.linesLeft, hr]
    rw [namesOf_eq, hl] at hc
    split at h
    · rename_i q qs ok hconf
      simp only [Host.Outcome.next.injEq] at h
      subst h
      have h1 := hc.1
      unfold Agent.confSteps at h1
      rw [hconf] at h1 hc
      have h2 := checkSeqs_cons.1 h1
      exact ⟨_, State.agent?_setAgent_same ha _,
        startSeq_ok h2.2 (checkItems_le (afterConfigure_expand q) hc.2) h2.1⟩
    · rename_i ok hconf
      rw [hconf] at hc
      simp only [Host.Outcome.next.injEq] at h
      subst h
      refine ⟨_, State.agent?_setAgent_same ha _, checkAgent_eq_none.2 ⟨rfl, ?_⟩, ?_⟩
      · show checkItems s.cfg (namesAt s.cfg (boundNames ag) ag.linesLeft none) ag.code = none
        rw [hl]
        exact checkItems_le (boundNames_le_afterConfigure ag) hc.2
      intro run hrun; simp [hr] at hrun
    · rename_i hconf
      rw [hconf] at hc
      split at h
      · simp only [Host.Outcome.next.injEq] at h
        subst h
        exact ⟨ag, ha, hok⟩
      · rename_i l rest hcode
        rw [hcode] at hc
        split at h
        · rename_i u hu
          obtain rfl := Host.Outcome.next.inj h
          obtain ⟨new, hn, hb⟩ := (runLine_frame hu).2 _ (State.agent?_setAgent_same ha _)
          have hs := hb.same
          refine ⟨new, hn, ?_, ?_⟩
          · rw [checkAgent_eq_none]
            rw [Agent.confSteps, namesOf_eq, Agent.linesLeft, hs.conf, hs.code, hs.running, hconf, hr]
            exact ⟨rfl, checkItems_le (boundNames_after hb) (checkItems_cons.1 hc.2).2⟩
          · intro run hrun; rw [hs.running] at hrun; simp [hr] at hrun
        · rename_i f _
          obtain rfl := Host.Outcome.next.inj h
          exact ⟨_, faulted_agent?_same ha .., hok.stop f⟩
        · cases h
      · rename_i q rest hcode
        rw [hcode] at hc
        have h2 := checkItems_cons.1 hc.2
        simp only [Host.Outcome.next.injEq] at h
        subst h
        exact ⟨_, State.agent?_setAgent_same ha _, startSeq_ok hc.1 (by rw [hconf]; exact h2.2) h2.1⟩
      · rename_i c rest hcode
        rw [hcode] at hc
        have h2 := checkItems_cons.1 hc.2
        simp only [Host.Outcome.next.injEq] at h
        subst h
        refine ⟨_, State.agent?_setAgent_same ha _, checkAgent_eq_none.2 ⟨h2.1, ?_⟩, ?_⟩
        · show checkItems s.cfg (namesAt s.cfg (boundNames ag) ag.linesLeft (some ⟨configureSteps s.cfg c, true⟩)) rest = none
          rw [hl]
          exact h2.2
        intro run hrun; simp [hr] at hrun

/-- A write of one register word keeps the canonical form. -/
theorem ImageStep.wf {s t : State} (h : ImageStep s t) (hw : Memory.wf s.img) : Memory.wf t.img := by
  obtain e | ⟨base, a, w, -, e, -⟩ := h
  · rw [e]; exact hw
  · rw [e]; exact Memory.setWord_wf hw _ _

/-! ### What a turn leaves of its agent's program -/

/-- What the agent still has to run is part of what it had. -/
structure ProgramShrinks (P : Params) (a b : Agent) : Prop where
  code      : b.code <:+ a.code
  sequences : ∀ q ∈ b.sequences P, q ∈ a.sequences P

theorem Agent.mem_sequences {P : Params} {ag : Agent} {q : AccessSeq} :
    q ∈ ag.sequences P ↔ (∃ run, ag.running = some run ∧ run.seq = q) ∨
      (∃ c, ag.conf = some c ∧ q ∈ c.steps) ∨
      ∃ i ∈ ag.code, i = .seq q ∨ ∃ c, i = .configure c ∧ q ∈ configureSteps P c := by
  unfold Agent.sequences
  rw [List.mem_append, List.mem_append, or_assoc]
  refine or_congr ?_ (or_congr ?_ ?_)
  · cases ag.running <;> simp [eq_comm]
  · cases ag.conf <;> simp
  · simp only [List.mem_flatMap]
    refine exists_congr fun i => and_congr_right fun _ => ?_
    cases i <;> simp [eq_comm]

theorem ProgramShrinks.of_same {P : Params} {a b : Agent} (h : SameProgram a b) : ProgramShrinks P a b :=
  ⟨by rw [h.code], fun q hq => by
    rw [Agent.mem_sequences] at hq ⊢
    rw [h.code, h.running, h.conf] at hq
    exact hq⟩

theorem ProgramShrinks.trans {P : Params} {a b c : Agent} (h1 : ProgramShrinks P a b) (h2 : ProgramShrinks P b c) :
    ProgramShrinks P a c := ⟨h2.code.trans h1.code, fun q hq => h1.sequences q (h2.sequences q hq)⟩

theorem ProgramShrinks.finish {P : Params} (ag : Agent) (res stop) : ProgramShrinks P ag (ag.finish res stop) := by
  refine ⟨List.suffix_refl _, fun q hq => ?_⟩
  rw [Agent.mem_sequences] at hq ⊢
  rcases hq with ⟨run, h, -⟩ | ⟨c, h, hm⟩ | h
  · cases h
  · right; left
    simp only [Agent.finish] at h
    cases hc : ag.conf with
    | none => rw [hc] at h; cases h
    | some c0 =>
      rw [hc] at h
      obtain rfl := Option.some.inj h
      refine ⟨c0, rfl, ?_⟩
      have key : ∀ b : Bool, q ∈ (if b = true then [] else c0.steps) → q ∈ c0.steps := by
        intro b; cases b <;> simp
      exact key _ hm
  · exact .inr (.inr h)

/-- One turn takes from its agent's program and adds nothing to it. -/
theorem agentTurn_program {id : AgentId} {ag : Agent} {s t : State} (ha : s.agent? id = some ag)
    (h : agentTurn id ag s = .next t) : ∃ new, t.agent? id = some new ∧ ProgramShrinks s.cfg ag new := by
  unfold agentTurn at h
  split at h
  · rename_i q l ls hr
    split at h
    · rename_i u hu
      obtain rfl := Host.Outcome.next.inj h
      obtain ⟨mid, hm, hb⟩ := (runLine_frame hu).2 ag ha
      have hs := hb.same
      have hsm := ProgramShrinks.of_same (P := s.cfg) hs
      unfold afterLine
      split
      · exact ⟨_, endSeq_agent?_same hm _, hsm.trans (.finish ..)⟩
      · split
        · exact ⟨_, endSeq_agent?_same hm _, hsm.trans (.finish ..)⟩
        · refine ⟨_, State.agent?_mapAgent_same hm _, hsm.trans ⟨List.suffix_refl _, fun q' hq => ?_⟩⟩
          rw [Agent.mem_sequences] at hq ⊢
          rcases hq with ⟨run, h1, h2⟩ | h | h
          · obtain rfl := Option.some.inj h1
            exact .inl ⟨⟨q, l :: _⟩, by rw [hs.running, hr], h2⟩
          · exact .inr (.inl h)
          · exact .inr (.inr h)
    · obtain rfl := Host.Outcome.next.inj h
      exact ⟨_, faulted_agent?_same ha .., List.suffix_refl _, fun _ hq => hq⟩
    · cases h
  · obtain rfl := Host.Outcome.next.inj h
    refine ⟨_, State.agent?_setAgent_same ha _, List.suffix_refl _, fun q' hq => ?_⟩
    rw [Agent.mem_sequences] at hq ⊢
    rcases hq with ⟨run, h1, -⟩ | h | h
    · cases h1
    · exact .inr (.inl h)
    · exact .inr (.inr h)
  · rename_i hr
    split at h
    · rename_i q qs ok hconf
      obtain rfl := Host.Outcome.next.inj h
      refine ⟨_, State.agent?_setAgent_same ha _, List.suffix_refl _, fun q' hq => ?_⟩
      rw [Agent.mem_sequences] at hq ⊢
      rcases hq with ⟨run, h1, h2⟩ | ⟨c, h1, h2⟩ | h
      · obtain rfl := Option.some.inj h1
        exact .inr (.inl ⟨_, hconf, by rw [← h2]; exact List.mem_cons_self⟩)
      · obtain rfl := Option.some.inj h1
        exact .inr (.inl ⟨_, hconf, List.mem_cons_of_mem _ h2⟩)
      · exact .inr (.inr h)
    · obtain rfl := Host.Outcome.next.inj h
      refine ⟨_, State.agent?_setAgent_same ha _, List.suffix_refl _, fun q' hq => ?_⟩
      rw [Agent.mem_sequences] at hq ⊢
      rcases hq with h | ⟨c, h1, -⟩ | h
      · exact .inl h
      · cases h1
      · exact .inr (.inr h)
    · rename_i hconf
      split at h
      · obtain rfl := Host.Outcome.next.inj h
        exact ⟨ag, ha, List.suffix_refl _, fun _ hq => hq⟩
      · rename_i l rest hcode
        split at h
        · rename_i u hu
          obtain rfl := Host.Outcome.next.inj h
          obtain ⟨new, hn, hb⟩ := (runLine_frame hu).2 _ (State.agent?_setAgent_same ha _)
          refine ⟨new, hn, ProgramShrinks.trans ⟨?_, fun q' hq => ?_⟩ (ProgramShrinks.of_same hb.same)⟩
          · rw [hcode]; exact List.suffix_cons _ _
          · rw [Agent.mem_sequences] at hq ⊢
            rcases hq with h | h | ⟨i, h1, h2⟩
            · exact .inl h
            · exact .inr (.inl h)
            · exact .inr (.inr ⟨i, by rw [hcode]; exact List.mem_cons_of_mem _ h1, h2⟩)
        · obtain rfl := Host.Outcome.next.inj h
          exact ⟨_, faulted_agent?_same ha .., List.suffix_refl _, fun _ hq => hq⟩
        · cases h
      · rename_i q rest hcode
        obtain rfl := Host.Outcome.next.inj h
        refine ⟨_, State.agent?_setAgent_same ha _, by rw [hcode]; exact List.suffix_cons _ _, fun q' hq => ?_⟩
        rw [Agent.mem_sequences] at hq ⊢
        rcases hq with ⟨run, h1, h2⟩ | h | ⟨i, h1, h2⟩
        · obtain rfl := Option.some.inj h1
          exact .inr (.inr ⟨.seq q, by rw [hcode]; exact List.mem_cons_self, .inl (by rw [← h2])⟩)
        · exact .inr (.inl h)
        · exact .inr (.inr ⟨i, by rw [hcode]; exact List.mem_cons_of_mem _ h1, h2⟩)
      · rename_i c rest hcode
        obtain rfl := Host.Outcome.next.inj h
        refine ⟨_, State.agent?_setAgent_same ha _, by rw [hcode]; exact List.suffix_cons _ _, fun q' hq => ?_⟩
        rw [Agent.mem_sequences] at hq ⊢
        rcases hq with ⟨run, h1, -⟩ | ⟨c', h1, h2⟩ | ⟨i, h1, h2⟩
        · rw [hr] at h1; cases h1
        · obtain rfl := Option.some.inj h1
          exact .inr (.inr ⟨.configure c, by rw [hcode]; exact List.mem_cons_self, .inr ⟨c, rfl, h2⟩⟩)
        · exact .inr (.inr ⟨i, by rw [hcode]; exact List.mem_cons_of_mem _ h1, h2⟩)

/-! ### Stopping -/

/-- The line the agent's next turn runs, if it runs one. -/
def Agent.nextLine (ag : Agent) : Option Line :=
  match ag.running with
  | some run => run.lines.head?
  | none =>
    match ag.conf, ag.code with
    | none, .line l :: _ => some l
    | _, _ => none

/-- A turn of an agent that has not stopped stops it only in the fault of the line it runs; nothing else is changed
of the agent then, and nothing is written. -/
theorem agentTurn_stopped {id : AgentId} {ag : Agent} {s t : State} (ha : s.agent? id = some ag)
    (hst : ag.stopped = none) (h : agentTurn id ag s = .next t) :
    (∃ new, t.agent? id = some new ∧ new.stopped = none) ∨
      ∃ l f u, ag.nextLine = some l ∧ (u = s ∨ ∃ ag', u = s.setAgent id ag') ∧ runLine id ag l u = .fault f ∧
        t = faulted id ag l f s := by
  unfold agentTurn at h
  unfold Agent.nextLine
  split at h
  · rename_i q l ls hr
    split at h
    · rename_i u hu
      obtain rfl := Host.Outcome.next.inj h
      obtain ⟨mid, hm, hb⟩ := (runLine_frame hu).2 ag ha
      have hs := hb.same.stopped.trans hst
      unfold afterLine
      split
      · exact .inl ⟨_, endSeq_agent?_same hm _, hs⟩
      · split
        · exact .inl ⟨_, endSeq_agent?_same hm _, hs⟩
        · exact .inl ⟨_, State.agent?_mapAgent_same hm _, hs⟩
    · rename_i f hf
      obtain rfl := Host.Outcome.next.inj h
      exact .inr ⟨l, f, s, by rw [hr]; rfl, .inl rfl, hf, rfl⟩
    · cases h
  · obtain rfl := Host.Outcome.next.inj h
    exact .inl ⟨_, State.agent?_setAgent_same ha _, hst⟩
  · rename_i hr
    split at h
    · obtain rfl := Host.Outcome.next.inj h
      exact .inl ⟨_, State.agent?_setAgent_same ha _, hst⟩
    · obtain rfl := Host.Outcome.next.inj h
      exact .inl ⟨_, State.agent?_setAgent_same ha _, hst⟩
    · rename_i hconf
      split at h
      · obtain rfl := Host.Outcome.next.inj h
        exact .inl ⟨ag, ha, hst⟩
      · rename_i l rest hcode
        split at h
        · rename_i u hu
          obtain rfl := Host.Outcome.next.inj h
          obtain ⟨new, hn, hb⟩ := (runLine_frame hu).2 _ (State.agent?_setAgent_same ha _)
          exact .inl ⟨new, hn, hb.same.stopped.trans hst⟩
        · rename_i f hf
          obtain rfl := Host.Outcome.next.inj h
          exact .inr ⟨l, f, _, by rw [hr, hconf, hcode], .inr ⟨_, rfl⟩, hf, rfl⟩
        · cases h
      · obtain rfl := Host.Outcome.next.inj h
        exact .inl ⟨_, State.agent?_setAgent_same ha _, hst⟩
      · obtain rfl := Host.Outcome.next.inj h
        exact .inl ⟨_, State.agent?_setAgent_same ha _, hst⟩

/-- No step changes anything of an agent that has stopped (R94, R99). -/
theorem step_keeps_stopped {s t : State} (h : step s = .next t) {id : AgentId} {ag : Agent}
    (ha : s.agent? id = some ag) (hst : ag.stopped ≠ none) : t.agent? id = some ag := by
  obtain ⟨-, ⟨-, rfl⟩ | ⟨id', rest, hs, ht⟩⟩ := step_next h
  · exact ha
  · have hag : ∀ i, State.agent? { s with sched := rest } i = s.agent? i := fun i =>
      State.agent?_congr rfl rfl rfl i
    obtain ⟨-, rfl⟩ | ⟨ag', ha', hn, hag'⟩ := turn_next ht
    · rw [hag, ha]
    · by_cases e : id' = id
      · subst e
        rw [hag, ha] at ha'
        obtain rfl := Option.some.inj ha'
        exact absurd hn hst
      · rw [(agentTurn_frame hag').others id e, hag, ha]

/-- What a step leaves of an agent's program is part of what the agent had. -/
theorem step_program {s t : State} (h : step s = .next t) {id : AgentId} {new : Agent} (hn : t.agent? id = some new) :
    ∃ old, s.agent? id = some old ∧ ProgramShrinks s.cfg old new := by
  obtain ⟨-, ⟨-, rfl⟩ | ⟨id', rest, hs, hturn⟩⟩ := step_next h
  · exact ⟨new, hn, List.suffix_refl _, fun _ h => h⟩
  · have hag : ∀ i, State.agent? { s with sched := rest } i = s.agent? i := fun i =>
      State.agent?_congr rfl rfl rfl i
    obtain ⟨-, rfl⟩ | ⟨ag', ha', -, hturn⟩ := turn_next hturn
    · exact ⟨new, (hag id).symm.trans hn, List.suffix_refl _, fun _ h => h⟩
    · by_cases e : id' = id
      · subst e
        obtain ⟨new', hn', hsh⟩ := agentTurn_program ha' hturn
        obtain rfl := Option.some.inj (hn'.symm.trans hn)
        exact ⟨ag', (hag id').symm.trans ha', hsh⟩
      · rw [(agentTurn_frame hturn).others id e] at hn
        exact ⟨new, (hag id).symm.trans hn, List.suffix_refl _, fun _ h => h⟩

end Sys2Proof.Machine
end

