-- ==== Sys2Proof/Laws/Runs.lean ====
section
/-! SUPPORT. What the lines of an access sequence do where they go on: each line, each step, and that a
well-formed sequence's lines go on. -/

namespace Sys2Proof.Machine

/-- A request line whose operation has a response puts it on the output ports and names it. -/
theorem runLine_request_eq {id : AgentId} {ag : Agent} {dst : Name} {ctrl : Half} {a d : Operand}
    {v m : NarrowOperand} {s : State} {q : Request} {i : Instr} {x : Response}
    (hq : requestOf s.cfg s.draws ag ctrl a d v m = q) (hd : decode ctrl = .ok i) (hx : respond s.cfg i q = .ok x) :
    runLine id ag (.request dst ctrl a d v m) s = .next (nameResponse id dst
      { s.drawIf (Line.unbound ag (.request dst ctrl a d v m)) with inp := q, out := x }) := by
  subst hq
  have he : ∀ (u : State) (q' : Request), u.cfg = s.cfg → respond s.cfg i q' = .ok x →
      exec i { u with inp := q' } = .next { u with inp := q', out := x } :=
    fun u q' hu h => exec_eq_next_iff.2 ⟨x, by dsimp only; rw [hu]; exact h, rfl⟩
  simp only [runLine, present]
  rw [show (requestOf s.cfg s.draws ag ctrl a d v m).ctrl = ctrl from rfl, hd]
  simp only [he _ _ (State.drawIf_cfg ..) hx]

/-- The same of a line all of whose names are bound. -/
theorem runLine_request_bound {id : AgentId} {ag : Agent} {dst : Name} {ctrl : Half} {a d : Operand}
    {v m : NarrowOperand} {s : State} {q : Request} {i : Instr} {x : Response}
    (hb : Line.unbound ag (.request dst ctrl a d v m) = false)
    (hq : requestOf s.cfg s.draws ag ctrl a d v m = q) (hd : decode ctrl = .ok i) (hx : respond s.cfg i q = .ok x) :
    runLine id ag (.request dst ctrl a d v m) s = .next (nameResponse id dst { s with inp := q, out := x }) := by
  rw [runLine_request_eq hq hd hx, hb, State.drawIf_false]

/-- A read line whose access has a step names the word read. -/
theorem runLine_ld_eq {id : AgentId} {ag : Agent} {dst : Name} {n : Nat} {addr : Operand} {s t : State} {a : Addr}
    {w : Word} (hb : Operand.unbound ag addr = false) (ha : Operand.eval s.cfg s.draws ag addr = a)
    (hr : memRead s n a = .ok (w, t)) :
    runLine id ag (.ld dst n addr) s = .next (t.mapAgent id fun ag => ag.bindWord dst w) := by
  subst ha
  simp only [runLine, Line.unbound, hb, State.drawIf_false, hr]

/-- A conditional write whose response asks for it. -/
theorem runLine_stWe_eq {id : AgentId} {ag : Agent} {n : Name} {s t : State} {x : Response}
    (hx : ag.response? n = some x) (hw : x.we = true) (hm : memWrite s 4 x.y x.wd = .ok t) :
    runLine id ag (.stWe n) s = .next t := by
  simp only [runLine, Line.unbound, Agent.responseOf_of_some hx, hx, hw, if_true, Option.isNone_some,
    State.drawIf_false, hm]

/-- A conditional write that is asked for, and has no step. -/
theorem runLine_stWe_fault {id : AgentId} {ag : Agent} {n : Name} {s : State} {x : Response} {f : Fault}
    (hx : ag.response? n = some x) (hw : x.we = true) (hm : memWrite s 4 x.y x.wd = .error f) :
    runLine id ag (.stWe n) s = .fault f := by
  simp only [runLine, Line.unbound, Agent.responseOf_of_some hx, hx, hw, if_true, Option.isNone_some,
    State.drawIf_false, hm]

/-- A conditional write whose response does not ask for it makes no event (R87). -/
theorem runLine_stWe_skip {id : AgentId} {ag : Agent} {n : Name} {s : State} {x : Response}
    (hx : ag.response? n = some x) (hw : x.we = false) : runLine id ag (.stWe n) s = .next s := by
  simp only [runLine, Line.unbound, Agent.responseOf_of_some hx, hx, hw, Option.isNone_some, State.drawIf_false]
  rfl

/-- What is left of a list of one, two or three. -/
theorem suffix_one_eq {α : Type} {a x : α} {ls : List α} (h : x :: ls <:+ [a]) : x = a ∧ ls = [] := by
  have e := h.eq_of_length (by have := h.length_le; simp at this ⊢; omega)
  simpa using e

theorem suffix_two_cases {α : Type} {a b x : α} {ls : List α} (h : x :: ls <:+ [a, b]) :
    (x = a ∧ ls = [b]) ∨ (x = b ∧ ls = []) := by
  rcases List.suffix_cons_iff.1 h with e | h
  · left; simpa using e
  · right; exact suffix_one_eq h

theorem suffix_three_cases {α : Type} {a b c x : α} {ls : List α} (h : x :: ls <:+ [a, b, c]) :
    (x = a ∧ ls = [b, c]) ∨ (x = b ∧ ls = [c]) ∨ (x = c ∧ ls = []) := by
  rcases List.suffix_cons_iff.1 h with e | h
  · left; simpa using e
  · right; exact suffix_two_cases h

/-- The output handle of a well-formed `write_output` names a listed block. -/
theorem checkOutput_base {P : Params} {h : PinHandle} (hc : checkOutput P h = none) (r : Reg) :
    ∃ base ∈ P.gpioBases, regAddr P h.base r = regAddr P (BitVec.ofNat 32 base) r :=
  ⟨_, checkOutput_ok hc, by rw [ofNat_base]⟩

theorem pin_toNat (p : Fin 16) : (BitVec.ofNat 5 p.val).toNat = p.val := by
  have := p.isLt
  simp only [BitVec.toNat_ofNat]; omega

/-- The one line of a well-formed sequence that has no step: the alias write that sets a lock bit or a set/reset bit
(R35(a), R35(c)). -/
structure UnadmittedSet (P : Params) (ag : Agent) (q : AccessSeq) (l : Line) (ls : List Line) (f : Fault) : Prop where
  witness : ∃ base r b v x, base ∈ P.gpioBases ∧ (r = .lckr ∨ r = .bsrr) ∧
    q = .setBit (regAddr P (BitVec.ofNat 32 base) r) b v ∧ ag.response? .r = some x ∧ x.we = true ∧
    f = .stuck (if r = .lckr then .aliasWriteLckr else .aliasOfBsrr)
  line : l = .stWe .r
  last : ls = []

/-- PF4's contract, line by line: a line of a well-formed sequence goes on, where its agent holds what the line
needs, or is an alias write of a lock bit or of a set/reset bit, which have no step (R35). -/
theorem runLine_progress {id : AgentId} {ag : Agent} {q : AccessSeq} {l : Line} {ls : List Line} {s : State}
    (hv : s.cfg.Valid) (hq : checkSeq s.cfg q = none) (hsuf : l :: ls <:+ expand s.cfg q)
    (hh : ag.holds s.cfg q (l :: ls).length = true) :
    (∃ u, runLine id ag l s = .next u) ∨
      ∃ f, runLine id ag l s = .fault f ∧ UnadmittedSet s.cfg ag q l ls f := by
  have rq : ∀ (i : Instr) (a d : Operand) (v m : NarrowOperand) (x : Request) (r : Response),
      decode (encode i) = .ok i → requestOf s.cfg s.draws ag (encode i) a d v m = x → respond s.cfg i x = .ok r →
      ∃ u, runLine id ag (reqLine i a d v m) s = .next u :=
    fun i a d v m x r hw h1 h2 => ⟨_, runLine_request_eq h1 hw h2⟩
  have ld : ∀ (a : Operand) (x : Addr) (y), Operand.unbound ag a = false → Operand.eval s.cfg s.draws ag a = x →
      memRead s 4 x = .ok y → ∃ u, runLine id ag (.ld .t 4 a) s = .next u :=
    fun a x y h0 h1 h2 => ⟨_, runLine_ld_eq h0 h1 h2⟩
  cases q with
  | readBit reg b =>
    obtain ⟨f, hf, h1, h2⟩ := checkGet_ok hq
    obtain ⟨base, hb, hreg, hfl, hfw, i, hi, hsh⟩ := fieldAt_some hv hf
    have hbs : f.reg ≠ .bsrr := by
      have : ∀ f ∈ layout, f.access ≠ .writeOnly → f.reg ≠ .bsrr := by decide
      exact this f hfl h2
    rcases suffix_two_cases hsuf with ⟨rfl, rfl⟩ | ⟨rfl, rfl⟩
    · left; exact rq _ _ _ _ _ _ _ (decode_encode_toalias b) rfl (toalias_ok hv hb f.reg b _ hreg)
    · left
      simp only [Agent.holds, List.length_singleton, bne_self_eq_false, Bool.false_or, Option.any_eq_true, decide_eq_true_eq] at hh
      obtain ⟨x, hx, hy⟩ := hh
      have hm := memRead_aliasOf hv hb hbs b
      rw [← hreg] at hm
      exact ld _ _ _ (by simp [Operand.unbound, hx]) (by simp [Operand.eval, Agent.responseOf_of_some hx, hy]) hm
  | readInput h =>
    obtain ⟨rfl, rfl⟩ := suffix_one_eq hsuf
    simp only [checkSeq] at hq
    split at hq
    · rename_i hs
      obtain ⟨base, hb, p, hp, e⟩ := isSlot_ok hs
      left; exact ld _ _ _ rfl rfl (by rw [e]; exact memRead_aliasOf hv hb (by decide) _)
    · cases hq
  | readOutput h =>
    obtain ⟨rfl, rfl⟩ := suffix_one_eq hsuf
    simp only [checkSeq] at hq
    split at hq
    · rename_i hs
      obtain ⟨base, hb, p, hp, e⟩ := isSlot_ok hs
      left; exact ld _ _ _ rfl rfl (by rw [e]; exact memRead_aliasOf hv hb (by decide) _)
    · cases hq
  | get w reg sh =>
    obtain ⟨f, hf, h1, h2⟩ := checkGet_ok hq
    obtain ⟨base, hb, hreg, hfl, hfw, i, hi, hsh⟩ := fieldAt_some hv hf
    have hin : inWord sh w := by rw [inWord, hsh, ← hfw]; exact layout_inWord f hfl i hi
    rcases suffix_two_cases hsuf with ⟨rfl, rfl⟩ | ⟨rfl, rfl⟩
    · left; exact ld _ _ _ rfl rfl (by rw [hreg]; exact memRead_regAddr hv hb f.reg)
    · left
      simp only [Agent.holds, List.length_singleton, bne_self_eq_false, Bool.false_or, Option.isSome_iff_exists] at hh
      obtain ⟨x, hx⟩ := hh
      exact rq _ _ _ _ _ { ctrl := encode (.fget w sh), a := 0, d := x, v := 0, m := 0 } _
        (decode_encode_fget w sh) (by simp [requestOf, Operand.eval, NarrowOperand.eval, Agent.wordOf_of_some hx]) (fgetResponse_eq hin)
  | setBit reg b v =>
    obtain ⟨f, hf, h1, h2⟩ := checkSet_ok hq
    obtain ⟨base, hb, hreg, hfl, hfw, i, hi, hsh⟩ := fieldAt_some hv hf
    rcases suffix_two_cases hsuf with ⟨rfl, rfl⟩ | ⟨rfl, rfl⟩
    · obtain ⟨x, hx, -⟩ := bitwr_ok hv hb f.reg b { ctrl := encode (.bitwr b), a := reg, d := 0, v := v, m := 0 } hreg
      left; exact rq _ _ _ _ _ _ _ (decode_encode_bitwr b) rfl hx
    · simp only [Agent.holds, List.length_singleton, bne_self_eq_false, Bool.false_or, Option.any_eq_true, Bool.or_eq_true, Bool.not_eq_true', decide_eq_true_eq] at hh
      obtain ⟨x, hx, hy⟩ := hh
      cases hw : x.we
      · left; exact ⟨_, runLine_stWe_skip hx hw⟩
      · obtain hy : x.y = aliasOf s.cfg reg b := by rcases hy with h | h; (rw [hw] at h; cases h); exact h
        rw [hreg] at hy
        have hidr : f.reg ≠ .idr := by
          have : ∀ f ∈ layout, f.access ≠ .none → f.access ≠ .readOnly → f.reg ≠ .idr := by decide
          exact this f hfl h1 h2
        by_cases hl : f.reg = .lckr
        · right
          refine ⟨_, runLine_stWe_fault (f := .stuck .aliasWriteLckr) hx hw ?_,
            ⟨base, f.reg, b, v, x, hb, .inl hl, by rw [hreg], hx, hw, by rw [hl]; rfl⟩, rfl, rfl⟩
          simp only [hy, memWrite, target_aliasOf hv hb, writeBit, hl, bitWriteRefused]
        · by_cases hbs : f.reg = .bsrr
          · right
            refine ⟨_, runLine_stWe_fault (f := .stuck .aliasOfBsrr) hx hw ?_,
              ⟨base, f.reg, b, v, x, hb, .inr hbs, by rw [hreg], hx, hw, by rw [hbs]; rfl⟩, rfl, rfl⟩
            simp only [hy, memWrite, target_aliasOf hv hb, writeBit, hbs, bitWriteRefused]
          · left
            have hp : (placeholderMask f.reg).getLsbD b.toNat = false := by rw [hsh]; exact layout_bit_not_placeholder f hfl hfw i hi
            exact ⟨_, runLine_stWe_eq hx hw (by rw [hy]; exact memWrite_aliasOf hv hb hidr hbs hl hp _)⟩
  | set w e reg sh v m =>
    obtain ⟨hc, hw1, -⟩ := checkWideSet_eq_none.1 hq
    obtain ⟨f, hf, h1, h2⟩ := checkSet_ok hc
    obtain ⟨base, hb, hreg, hfl, hfw, i, hi, hsh⟩ := fieldAt_some hv hf
    have hin : inWord sh w := by rw [inWord, hsh, ← hfw]; exact layout_inWord f hfl i hi
    obtain ⟨n1, n2, n3, -⟩ := layout_multiBit f hfl (by rw [hfw]; exact hw1) h1
    rcases suffix_three_cases hsuf with ⟨rfl, rfl⟩ | ⟨rfl, rfl⟩ | ⟨rfl, rfl⟩
    · left; exact ld _ _ _ rfl rfl (by rw [hreg]; exact memRead_regAddr hv hb f.reg)
    · left
      simp [Agent.holds, Option.isSome_iff_exists] at hh
      obtain ⟨x, hx⟩ := hh
      refine rq _ _ _ _ _ { ctrl := encode (.fset w e sh), a := reg, d := x, v := v, m := m } _ ?_ (by simp [requestOf, Operand.eval, NarrowOperand.eval, Agent.wordOf_of_some hx]) (fsetResponse_eq hin)
      have := layout_wide f hfl
      rw [hfw] at this
      rw [decode_encode_fset, if_neg]; intro hc'; exact h1 (this hc'.2)
    · simp [Agent.holds, Option.any_eq_true] at hh
      obtain ⟨x, hx, hy⟩ := hh
      left
      cases hw : x.we
      · exact ⟨_, runLine_stWe_skip hx hw⟩
      · obtain hy : x.y = reg := by rcases hy with h | h; (rw [hw] at h; cases h); exact h
        exact ⟨_, runLine_stWe_eq hx hw (by rw [hy, hreg]; exact memWrite_regAddr hv hb n2 n1 n3 _)⟩
  | writeDirect h v =>
    obtain ⟨base, hb, hreg⟩ := checkOutput_base hq .odr
    rcases suffix_two_cases hsuf with ⟨rfl, rfl⟩ | ⟨rfl, rfl⟩
    · obtain ⟨x, hx, -⟩ := bitwr_ok hv hb .odr (BitVec.ofNat 5 h.pin.val) { ctrl := encode (.bitwr (BitVec.ofNat 5 h.pin.val)), a := regAddr s.cfg h.base .odr, d := 0, v := v, m := 0 } hreg
      left; exact rq _ _ _ _ _ _ _ (decode_encode_bitwr _) rfl hx
    · simp [Agent.holds, Option.any_eq_true] at hh
      obtain ⟨x, hx, hy⟩ := hh
      left
      cases hw : x.we
      · exact ⟨_, runLine_stWe_skip hx hw⟩
      · have hy : x.y = aliasOf s.cfg (regAddr s.cfg h.base .odr) (BitVec.ofNat 5 h.pin.val) := by rcases hy with h | h; (rw [hw] at h; cases h); exact h
        have hp : (placeholderMask .odr).getLsbD (BitVec.ofNat 5 h.pin.val).toNat = false := by
          rw [pin_toNat]
          have : ∀ p : Fin 16, (placeholderMask .odr).getLsbD p.val = false := by decide
          exact this h.pin
        exact ⟨_, runLine_stWe_eq hx hw (by rw [hy, hreg]; exact memWrite_aliasOf hv hb (by decide) (by decide) (by decide) hp _)⟩
  | writeSetReset h v =>
    obtain ⟨base, hb, hreg⟩ := checkOutput_base hq .bsrr
    rcases suffix_two_cases hsuf with ⟨rfl, rfl⟩ | ⟨rfl, rfl⟩
    · obtain ⟨x, hx, -⟩ := srenc_ok (p := BitVec.ofNat 5 h.pin.val) (by rw [pin_toNat]; exact h.pin.isLt) { ctrl := encode (.srenc (BitVec.ofNat 5 h.pin.val)), a := regAddr s.cfg h.base .bsrr, d := 0, v := v, m := 0 }
      left; exact rq _ _ _ _ _ _ _ (decode_encode_srenc _) rfl hx
    · simp [Agent.holds, Option.any_eq_true] at hh
      obtain ⟨x, hx, hy⟩ := hh
      left
      cases hw : x.we
      · exact ⟨_, runLine_stWe_skip hx hw⟩
      · obtain ⟨hy, hbb⟩ : x.y = regAddr s.cfg h.base .bsrr ∧ bothBits x.wd = false := by rcases hy with h | h; (rw [hw] at h; cases h); exact h
        exact ⟨_, runLine_stWe_eq hx hw (by rw [hy, hreg]; exact memWrite_bsrr hv hb hbb)⟩
  | pinOf h =>
    obtain ⟨rfl, rfl⟩ := suffix_one_eq hsuf
    have : ∃ r, (r = .idr ∨ r = .odr) ∧ isSlot s.cfg r h = true := by
      simp only [checkSeq, checkHandle] at hq
      split at hq
      · rename_i hs
        rcases Bool.or_eq_true _ _ ▸ hs with h | h
        · exact ⟨_, .inl rfl, h⟩
        · exact ⟨_, .inr rfl, h⟩
      · cases hq
    obtain ⟨r, hr, hs⟩ := this
    obtain ⟨base, hb, p, hp, e⟩ := isSlot_ok hs
    obtain ⟨b1, b2, b3⟩ := Params.base_spec hv.1 hb
    left; exact rq _ _ _ _ _ _ _ decode_encode_pinlookup rfl (pinlookup_ok hv b1 b2 b3 hr p hp _ (by rw [ofNat_regAddr]; exact e))

/-! ### The steps of an access sequence -/

/-- A step of the agent `id` that leaves `rest` of the schedule and `new` of its agent. -/
structure Stepped (s t : State) (id : AgentId) (rest : List AgentId) (new : Agent) : Prop where
  step  : step s = .next t
  cfg   : t.cfg = s.cfg
  sched : t.sched = rest
  agent : t.agent? id = some new

/-- The step that takes up a sequence. -/
theorem step_start {s : State} {id : AgentId} {rest : List AgentId} {ag : Agent} {q : AccessSeq} {code : List Item}
    (hc : checkProgram s = none) (hs : s.sched = id :: rest) (ha : s.agent? id = some ag)
    (hst : ag.stopped = none) (hr : ag.running = none) (hcf : ag.conf = none) (hcode : ag.code = .seq q :: code) :
    ∃ t, Stepped s t id rest (startSeq s.cfg q { ag with code := code }) ∧ t.img = s.img ∧ t.pinIn = s.pinIn ∧
      t.draws = s.draws := by
  have ha' : State.agent? { s with sched := rest } id = some ag := by
    rw [← ha]; exact State.agent?_congr rfl rfl rfl id
  have e : step s = .next (State.setAgent { s with sched := rest } id (startSeq s.cfg q { ag with code := code })) := by
    rw [step_eq_agentTurn hc hs ha hst]
    unfold agentTurn
    simp only [hr, hcf, hcode]
  exact ⟨_, ⟨e, by simp, by simp, State.agent?_setAgent_same ha' _⟩, by simp, by simp, by simp⟩

/-- The step that runs a line of a sequence, not its last. -/
theorem step_line {s u : State} {id : AgentId} {rest : List AgentId} {ag new : Agent} {q : AccessSeq} {l l' : Line}
    {ls : List Line} (hc : checkProgram s = none) (hs : s.sched = id :: rest) (ha : s.agent? id = some ag)
    (hst : ag.stopped = none) (hr : ag.running = some ⟨q, l :: l' :: ls⟩) (hu : runLine id ag l { s with sched := rest } = .next u)
    (hn : u.agent? id = some new) (hill : (!Line.isBus l && u.out.ill) = false) :
    ∃ t, Stepped s t id rest { new with running := some ⟨q, l' :: ls⟩ } ∧ t.img = u.img ∧ t.pinIn = u.pinIn ∧
      t.draws = u.draws := by
  have hf := (runLine_frame hu).1
  have e : step s = .next (afterLine id q l (l' :: ls) u) := by
    rw [step_eq_agentTurn hc hs ha hst]
    unfold agentTurn
    simp only [hr, hu]
  have hal : afterLine id q l (l' :: ls) u = u.mapAgent id fun ag => { ag with running := some ⟨q, l' :: ls⟩ } := by
    unfold afterLine
    rw [if_neg (by simp [hill])]
  refine ⟨_, ⟨e, by rw [afterLine_cfg]; exact hf.cfg, by rw [afterLine_sched]; exact hf.sched, ?_⟩, by simp, by simp,
    by simp [hal]⟩
  rw [hal]
  exact State.agent?_mapAgent_same hn _

/-- The step that runs the last line of a sequence. -/
theorem step_last {s u : State} {id : AgentId} {rest : List AgentId} {ag new : Agent} {q : AccessSeq} {l : Line}
    (hc : checkProgram s = none) (hs : s.sched = id :: rest) (ha : s.agent? id = some ag)
    (hst : ag.stopped = none) (hr : ag.running = some ⟨q, [l]⟩) (hu : runLine id ag l { s with sched := rest } = .next u)
    (hn : u.agent? id = some new) (hill : (!Line.isBus l && u.out.ill) = false) :
    ∃ t, Stepped s t id rest (new.finish (seqResult new q) (Config.freeChoice u.draws)) ∧ t.img = u.img ∧
      t.pinIn = u.pinIn := by
  have hf := (runLine_frame hu).1
  have e : step s = .next (afterLine id q l [] u) := by
    rw [step_eq_agentTurn hc hs ha hst]
    unfold agentTurn
    simp only [hr, hu]
  refine ⟨_, ⟨e, by rw [afterLine_cfg]; exact hf.cfg, by rw [afterLine_sched]; exact hf.sched, ?_⟩, by simp, by simp⟩
  unfold afterLine
  rw [if_neg (by simp [hill])]
  simp only [hn]
  exact endSeq_agent?_same hn _

/-- A read sees nothing of the schedule. -/
theorem memRead_sched {s t : State} {n : Nat} {a : Addr} {w : Word} (h : memRead s n a = .ok (w, t))
    (rest : List AgentId) : memRead { s with sched := rest } n a = .ok (w, { t with sched := rest }) := by
  unfold memRead at h ⊢
  cases ht : target s.cfg n a with
  | error e => rw [ht] at h; cases h
  | ok x =>
    rw [ht] at h
    cases x with
    | reg base r a =>
      simp only [Except.ok.injEq, Prod.mk.injEq] at h
      obtain ⟨rfl, rfl⟩ := h
      rfl
    | bit base r a b =>
      dsimp only at h ⊢
      split at h
      · cases h
      · rename_i hne
        simp only [Except.ok.injEq, Prod.mk.injEq] at h
        obtain ⟨rfl, rfl⟩ := h
        rw [if_neg hne]; rfl

/-- A step of a request, not its sequence's last line: `$r` is bound. -/
theorem step_request {s : State} {id : AgentId} {rest : List AgentId} {ag : Agent} {q : AccessSeq} {l' : Line}
    {ls : List Line} {i : Instr} {a d : Operand} {v m : NarrowOperand} {rq : Request} {x : Response}
    (hc : checkProgram s = none) (hs : s.sched = id :: rest) (ha : s.agent? id = some ag)
    (hst : ag.stopped = none) (hr : ag.running = some ⟨q, reqLine i a d v m :: l' :: ls⟩) (hd : decode (encode i) = .ok i)
    (hq : requestOf s.cfg s.draws ag (encode i) a d v m = rq)
    (hb : Line.unbound ag (reqLine i a d v m) = false) (hx : respond s.cfg i rq = .ok x) :
    ∃ t, Stepped s t id rest { ag.bindResponse .r x with running := some ⟨q, l' :: ls⟩ } ∧ t.img = s.img ∧
      t.pinIn = s.pinIn ∧ t.draws = s.draws := by
  have ha' : State.agent? { s with sched := rest, inp := rq, out := x } id = some ag := by
    rw [← ha]; exact State.agent?_congr rfl rfl rfl id
  obtain ⟨t, ht, himg, hpin, hd⟩ := step_line hc hs ha hst hr
    (runLine_request_bound (s := { s with sched := rest }) hb hq hd hx)
    (State.agent?_mapAgent_same ha' _) (by simp [respond_ill hx])
  exact ⟨t, ht, by rw [himg]; simp, by rw [hpin]; simp, by rw [hd]; simp⟩

/-- A step of a request that is its sequence's last line. -/
theorem step_request_last {s : State} {id : AgentId} {rest : List AgentId} {ag : Agent} {q : AccessSeq}
    {i : Instr} {a d : Operand} {v m : NarrowOperand} {rq : Request} {x : Response}
    (hc : checkProgram s = none) (hs : s.sched = id :: rest) (ha : s.agent? id = some ag)
    (hst : ag.stopped = none) (hr : ag.running = some ⟨q, [reqLine i a d v m]⟩) (hd : decode (encode i) = .ok i)
    (hq : requestOf s.cfg s.draws ag (encode i) a d v m = rq)
    (hb : Line.unbound ag (reqLine i a d v m) = false) (hx : respond s.cfg i rq = .ok x) :
    ∃ t stop, Stepped s t id rest ((ag.bindResponse .r x).finish (seqResult (ag.bindResponse .r x) q) stop) ∧
      t.img = s.img ∧ t.pinIn = s.pinIn := by
  have ha' : State.agent? { s with sched := rest, inp := rq, out := x } id = some ag := by
    rw [← ha]; exact State.agent?_congr rfl rfl rfl id
  obtain ⟨t, ht, himg, hpin⟩ := step_last hc hs ha hst hr
    (runLine_request_bound (s := { s with sched := rest }) hb hq hd hx)
    (State.agent?_mapAgent_same ha' _) (by simp [respond_ill hx])
  exact ⟨t, _, ht, by rw [himg]; simp, by rw [hpin]; simp⟩

/-- A step of a read, not its sequence's last line: its name is bound. -/
theorem step_ld {s u : State} {id : AgentId} {rest : List AgentId} {ag : Agent} {q : AccessSeq} {l' : Line}
    {ls : List Line} {dst : Name} {addr : Operand} {a : Addr} {w : Word}
    (hc : checkProgram s = none) (hs : s.sched = id :: rest) (ha : s.agent? id = some ag)
    (hst : ag.stopped = none) (hr : ag.running = some ⟨q, .ld dst 4 addr :: l' :: ls⟩)
    (hb : Operand.unbound ag addr = false) (he : Operand.eval s.cfg s.draws ag addr = a) (hm : memRead s 4 a = .ok (w, u)) :
    ∃ t, Stepped s t id rest { ag.bindWord dst w with running := some ⟨q, l' :: ls⟩ } ∧ t.img = s.img ∧
      t.pinIn = u.pinIn := by
  obtain ⟨base, r, rfl⟩ := memRead_ok hm
  have ha' : State.agent? { afterRead s base r with sched := rest } id = some ag := by
    rw [← ha]; exact State.agent?_congr rfl rfl rfl id
  obtain ⟨t, ht, himg, hpin, -⟩ := step_line hc hs ha hst hr
    (runLine_ld_eq (s := { s with sched := rest }) hb he (memRead_sched hm rest)) (State.agent?_mapAgent_same ha' _) rfl
  exact ⟨t, ht, by rw [himg]; simp, by rw [hpin]; simp⟩

/-- A step of a read that is its sequence's last line. -/
theorem step_ld_last {s u : State} {id : AgentId} {rest : List AgentId} {ag : Agent} {q : AccessSeq}
    {dst : Name} {addr : Operand} {a : Addr} {w : Word}
    (hc : checkProgram s = none) (hs : s.sched = id :: rest) (ha : s.agent? id = some ag)
    (hst : ag.stopped = none) (hr : ag.running = some ⟨q, [.ld dst 4 addr]⟩)
    (hb : Operand.unbound ag addr = false) (he : Operand.eval s.cfg s.draws ag addr = a) (hm : memRead s 4 a = .ok (w, u)) :
    ∃ t stop, Stepped s t id rest ((ag.bindWord dst w).finish (seqResult (ag.bindWord dst w) q) stop) ∧
      t.img = s.img ∧ t.pinIn = u.pinIn := by
  obtain ⟨base, r, rfl⟩ := memRead_ok hm
  have ha' : State.agent? { afterRead s base r with sched := rest } id = some ag := by
    rw [← ha]; exact State.agent?_congr rfl rfl rfl id
  obtain ⟨t, ht, himg, hpin⟩ := step_last hc hs ha hst hr
    (runLine_ld_eq (s := { s with sched := rest }) hb he (memRead_sched hm rest)) (State.agent?_mapAgent_same ha' _) rfl
  exact ⟨t, _, ht, by rw [himg]; simp, by rw [hpin]; simp⟩

/-- A step of a conditional write that its response asks for, its sequence's last line. -/
theorem step_stWe_last {s : State} {id : AgentId} {rest : List AgentId} {ag : Agent} {q : AccessSeq}
    {x : Response} {m : List Host.Cell}
    (hc : checkProgram s = none) (hs : s.sched = id :: rest) (ha : s.agent? id = some ag)
    (hst : ag.stopped = none) (hr : ag.running = some ⟨q, [.stWe .r]⟩) (hx : ag.response? .r = some x) (hw : x.we = true)
    (hm : memWrite { s with sched := rest } 4 x.y x.wd = .ok { s with sched := rest, img := m }) :
    ∃ t stop, Stepped s t id rest (ag.finish (seqResult ag q) stop) ∧ t.img = m := by
  have ha' : State.agent? { s with sched := rest, img := m } id = some ag := by
    rw [← ha]; exact State.agent?_congr rfl rfl rfl id
  obtain ⟨t, ht, himg, -⟩ := step_last hc hs ha hst hr (runLine_stWe_eq hx hw hm) ha' rfl
  exact ⟨t, _, ht, himg⟩

/-- A step of a conditional write that its response does not ask for: no event. -/
theorem step_stWe_skip {s : State} {id : AgentId} {rest : List AgentId} {ag : Agent} {q : AccessSeq} {x : Response}
    (hc : checkProgram s = none) (hs : s.sched = id :: rest) (ha : s.agent? id = some ag)
    (hst : ag.stopped = none) (hr : ag.running = some ⟨q, [.stWe .r]⟩) (hx : ag.response? .r = some x) (hw : x.we = false) :
    ∃ t stop, Stepped s t id rest (ag.finish (seqResult ag q) stop) ∧ t.img = s.img := by
  have ha' : State.agent? { s with sched := rest } id = some ag := by
    rw [← ha]; exact State.agent?_congr rfl rfl rfl id
  obtain ⟨t, ht, himg, -⟩ := step_last hc hs ha hst hr (runLine_stWe_skip hx hw) ha' rfl
  exact ⟨t, _, ht, himg⟩

/-- The sequences of a well-formed program are well-formed, one in progress included. -/
theorem sequences_checked {s : State} (hi : s.Inv) {ag : Agent} (ha : ag ∈ s.agents) {q : AccessSeq}
    (hq : q ∈ ag.sequences s.cfg) : checkSeq s.cfg q = none := by
  obtain ⟨-, -, hc, hmid⟩ := hi
  have hck := checkAgent_eq_none.1 (checkAgents_eq_none.1 hc ag ha)
  have mem : ∀ l : List AccessSeq, checkSeqs s.cfg l = none → ∀ q ∈ l, checkSeq s.cfg q = none := by
    intro l
    induction l with
    | nil => intro _ q hq; cases hq
    | cons x l ih =>
      intro h q hq
      obtain ⟨h1, h2⟩ := checkSeqs_cons.1 h
      rcases List.mem_cons.1 hq with rfl | hq
      · exact h1
      · exact ih h2 q hq
  rcases Agent.mem_sequences.1 hq with ⟨run, h1, rfl⟩ | ⟨c, h1, h2⟩ | ⟨i, h1, rfl | ⟨c, rfl, h2⟩⟩
  · exact (hmid ag ha run h1).1
  · have := hck.1
    unfold Agent.confSteps at this
    rw [h1] at this
    exact mem _ this q h2
  · obtain ⟨e, he⟩ := checkItems_mem hck.2 h1
    exact he
  · obtain ⟨e, he⟩ := checkItems_mem hck.2 h1
    exact mem _ he q h2

/-- The sequence an agent is about to take up is well-formed. -/
theorem code_checked {s : State} (hi : s.Inv) {id : AgentId} {ag : Agent} (ha : s.agent? id = some ag)
    {q : AccessSeq} {code : List Item} (hcode : ag.code = .seq q :: code) : checkSeq s.cfg q = none :=
  sequences_checked hi (State.mem_agents.2 ⟨id, ha⟩)
    (Agent.mem_sequences.2 (.inr (.inr ⟨_, by rw [hcode]; exact List.mem_cons_self, .inl rfl⟩)))

/-- A well-formed multi-bit set addresses a register word that may be written and holds no placeholder. -/
theorem checkSet_multiBit {P : Params} (hv : P.Valid) {w : Width} {e : Bool} {reg : Addr} {sh : BitVec 5} {v m : Half}
    (hq : checkSeq P (.set w e reg sh v m) = none) :
    ∃ base r, base ∈ P.gpioBases ∧ reg = regAddr P (BitVec.ofNat 32 base) r ∧ r ≠ .idr ∧ r ≠ .bsrr ∧ r ≠ .lckr ∧
      placeholderMask r = 0 ∧ inWord sh w ∧ w.bits < 15 := by
  obtain ⟨hc, hw1, -⟩ := checkWideSet_eq_none.1 hq
  obtain ⟨f, hf, h1, h2⟩ := checkSet_ok hc
  obtain ⟨base, hb, hreg, hfl, hfw, i, hi, hsh⟩ := fieldAt_some hv hf
  have hin : inWord sh w := by rw [inWord, hsh, ← hfw]; exact layout_inWord f hfl i hi
  obtain ⟨n1, n2, n3, n4⟩ := layout_multiBit f hfl (by rw [hfw]; exact hw1) h1
  have hwide := layout_wide f hfl
  rw [hfw] at hwide
  exact ⟨base, f.reg, hb, hreg, n2, n1, n3, n4, hin, by by_contra hc'; exact h1 (hwide (by omega))⟩

/-- A write of a register without placeholder bits stores the data. -/
theorem storedWord_of_no_placeholder {r : Reg} (h : placeholderMask r = 0) (old v : Word) :
    storedWord r old v = v := by
  unfold storedWord
  rw [h]
  exact (congrArg₂ (· ||| ·) (BitVec.and_allOnes (x := v)) (BitVec.and_zero (x := old))).trans BitVec.or_zero

/-- Where a line of a sequence writes: in the register word of the sequence (R49 to R52). -/
theorem runLine_seqWord {id : AgentId} {ag : Agent} {q : AccessSeq} {l : Line} {ls : List Line} {s u : State}
    (hv : s.cfg.Valid) (hq : checkSeq s.cfg q = none) (hsuf : l :: ls <:+ expand s.cfg q)
    (hh : ag.holds s.cfg q (l :: ls).length = true) (hu : runLine id ag l s = .next u) :
    u.img = s.img ∨ ∃ a w, seqWord s.cfg q = some a ∧ a.toNat % 4 = 0 ∧ u.img = Memory.setWord s.img a w := by
  have rq : ∀ (i : Instr) (a d : Operand) (v m : NarrowOperand), runLine id ag (reqLine i a d v m) s = .next u →
      u.img = s.img := by
    intro i a d v m h
    obtain ⟨x, -, rfl⟩ := runLine_request_next h
    simp
  have ld : ∀ (a : Operand), runLine id ag (.ld .t 4 a) s = .next u → u.img = s.img := by
    intro a h
    simp only [runLine] at h
    split at h
    · cases h
    · rename_i ht
      obtain ⟨base, r, rfl⟩ := memRead_ok ht
      obtain rfl := Host.Outcome.next.inj h
      simp
  have st : ∀ x, ag.response? .r = some x → runLine id ag (.stWe .r) s = .next u →
      (x.we = false ∧ u.img = s.img) ∨ (x.we = true ∧ memWrite s 4 x.y x.wd = .ok u) := by
    intro x hx h
    cases hw : x.we with
    | false =>
      rw [runLine_stWe_skip hx hw] at h
      obtain rfl := Host.Outcome.next.inj h
      exact .inl ⟨rfl, rfl⟩
    | true =>
      cases hm : memWrite s 4 x.y x.wd with
      | error f => rw [runLine_stWe_fault hx hw hm] at h; cases h
      | ok t =>
        rw [runLine_stWe_eq hx hw hm] at h
        obtain rfl := Host.Outcome.next.inj h
        exact .inr ⟨rfl, rfl⟩
  have bit : ∀ (base : Nat) (r : Reg) (b : BitVec 5) (v : Word), base ∈ s.cfg.gpioBases →
      memWrite s 4 (aliasOf s.cfg (regAddr s.cfg (BitVec.ofNat 32 base) r) b) v = .ok u →
      ∃ w, u.img = Memory.setWord s.img (regAddr s.cfg (BitVec.ofNat 32 base) r) w := by
    intro base r b v hb h
    simp only [memWrite, target_aliasOf hv hb, writeBit] at h
    split at h
    · cases h
    · obtain rfl := Except.ok.inj h
      exact ⟨_, rfl⟩
  cases q with
  | readBit reg b =>
    left; rcases suffix_two_cases hsuf with ⟨rfl, rfl⟩ | ⟨rfl, rfl⟩
    · exact rq _ _ _ _ _ hu
    · exact ld _ hu
  | readInput h => obtain ⟨rfl, rfl⟩ := suffix_one_eq hsuf; exact .inl (ld _ hu)
  | readOutput h => obtain ⟨rfl, rfl⟩ := suffix_one_eq hsuf; exact .inl (ld _ hu)
  | get w reg sh =>
    left; rcases suffix_two_cases hsuf with ⟨rfl, rfl⟩ | ⟨rfl, rfl⟩
    · exact ld _ hu
    · exact rq _ _ _ _ _ hu
  | setBit reg b v =>
    obtain ⟨f, hf, h1, h2⟩ := checkSet_ok hq
    obtain ⟨base, hb, hreg, -⟩ := fieldAt_some hv hf
    rcases suffix_two_cases hsuf with ⟨rfl, rfl⟩ | ⟨rfl, rfl⟩
    · exact .inl (rq _ _ _ _ _ hu)
    · simp [Agent.holds, Option.any_eq_true] at hh
      obtain ⟨x, hx, hy⟩ := hh
      obtain ⟨-, h⟩ | ⟨hw, hm⟩ := st x hx hu
      · exact .inl h
      · have hy : x.y = aliasOf s.cfg reg b := by rcases hy with h | h; (rw [hw] at h; cases h); exact h
        rw [hy, hreg] at hm
        obtain ⟨w, hw'⟩ := bit base f.reg b _ hb hm
        exact .inr ⟨reg, w, rfl, by rw [hreg]; exact regAddr_aligned hv hb _, by rw [hw', hreg]⟩
  | set w e reg sh v m =>
    obtain ⟨base, r, hb, hreg, n1, n2, n3, n4, -, -⟩ := checkSet_multiBit hv hq
    rcases suffix_three_cases hsuf with ⟨rfl, rfl⟩ | ⟨rfl, rfl⟩ | ⟨rfl, rfl⟩
    · exact .inl (ld _ hu)
    · exact .inl (rq _ _ _ _ _ hu)
    · simp [Agent.holds, Option.any_eq_true] at hh
      obtain ⟨x, hx, hy⟩ := hh
      obtain ⟨-, h⟩ | ⟨hw, hm⟩ := st x hx hu
      · exact .inl h
      · have hy : x.y = reg := by rcases hy with h | h; (rw [hw] at h; cases h); exact h
        rw [hy, hreg, memWrite_regAddr hv hb n1 n2 n3] at hm
        obtain rfl := Except.ok.inj hm
        exact .inr ⟨reg, _, rfl, by rw [hreg]; exact regAddr_aligned hv hb _, by rw [hreg]⟩
  | writeDirect h v =>
    obtain ⟨base, hb, hreg⟩ := checkOutput_base hq .odr
    rcases suffix_two_cases hsuf with ⟨rfl, rfl⟩ | ⟨rfl, rfl⟩
    · exact .inl (rq _ _ _ _ _ hu)
    · simp [Agent.holds, Option.any_eq_true] at hh
      obtain ⟨x, hx, hy⟩ := hh
      obtain ⟨-, h⟩ | ⟨hw, hm⟩ := st x hx hu
      · exact .inl h
      · have hy : x.y = aliasOf s.cfg (regAddr s.cfg h.base .odr) (BitVec.ofNat 5 h.pin.val) := by
          rcases hy with h | h; (rw [hw] at h; cases h); exact h
        rw [hy, hreg] at hm
        obtain ⟨w, hw'⟩ := bit base .odr _ _ hb hm
        exact .inr ⟨_, w, rfl, by rw [hreg]; exact regAddr_aligned hv hb _, by rw [hw', hreg]⟩
  | writeSetReset h v =>
    obtain ⟨base, hb, hreg⟩ := checkOutput_base hq .bsrr
    have hodr : regAddr s.cfg h.base .odr = regAddr s.cfg (BitVec.ofNat 32 h.base.toNat) .odr := by rw [ofNat_base]
    have hb' := checkOutput_ok hq
    rcases suffix_two_cases hsuf with ⟨rfl, rfl⟩ | ⟨rfl, rfl⟩
    · exact .inl (rq _ _ _ _ _ hu)
    · simp [Agent.holds, Option.any_eq_true] at hh
      obtain ⟨x, hx, hy⟩ := hh
      obtain ⟨-, h⟩ | ⟨hw, hm⟩ := st x hx hu
      · exact .inl h
      · obtain ⟨hy, hbb⟩ : x.y = regAddr s.cfg h.base .bsrr ∧ bothBits x.wd = false := by
          rcases hy with h | h; (rw [hw] at h; cases h); exact h
        have hbs : regAddr s.cfg h.base .bsrr = regAddr s.cfg (BitVec.ofNat 32 h.base.toNat) .bsrr := by
          rw [ofNat_base]
        rw [hy, hbs, memWrite_bsrr hv hb' hbb] at hm
        obtain rfl := Except.ok.inj hm
        exact .inr ⟨_, _, rfl, by rw [hodr]; exact regAddr_aligned hv hb' _, by rw [hodr]⟩
  | pinOf h => obtain ⟨rfl, rfl⟩ := suffix_one_eq hsuf; exact .inl (rq _ _ _ _ _ hu)

/-! ### Steps of agents that run access sequences -/

/-- A word of a block in which R21 places no register is no register's. -/
theorem spare_ne {P : Params} (hv : P.Valid) {a : Addr} {base : Nat} (hb : blockOf P a = some base)
    (hr : regAt P (a.toNat - base) = none) {base' : Nat} (hb' : base' ∈ P.gpioBases) (r : Reg) : a ≠ regAddr P (BitVec.ofNat 32 base') r := by
  intro e
  obtain ⟨l1, l2⟩ := locate_regAddr hv hb' r
  rw [← e] at l1 l2
  obtain rfl := Option.some.inj (hb.symm.trans l1)
  rw [hr] at l2; cases l2

/-- A step of an agent that runs access sequences alone writes in the register word of one of them, if at all. -/
theorem step_sequences_image {s t : State} {id : AgentId} {rest : List AgentId} {ag : Agent} (hi : s.Inv)
    (hs : s.sched = id :: rest) (ha : s.agent? id = some ag) (hso : ag.sequencesOnly) (ht : step s = .next t) :
    t.img = s.img ∨ ∃ a' w, (∃ q' ∈ ag.sequences s.cfg, seqWord s.cfg q' = some a' ∧ checkSeq s.cfg q' = none) ∧
      a'.toNat % 4 = 0 ∧ t.img = Memory.setWord s.img a' w := by
  obtain ⟨hv, hm, hc, hmid⟩ := hi
  by_cases hst : ag.stopped = none
  · rw [step_eq_agentTurn hc hs ha hst] at ht
    unfold agentTurn at ht
    split at ht
    · rename_i q' l ls hr
      split at ht
      · rename_i u hu
        obtain rfl := Host.Outcome.next.inj ht
        obtain ⟨h1, -, h3, h4⟩ := hmid ag (State.mem_agents.2 ⟨id, ha⟩) _ hr
        have := runLine_seqWord (s := { s with sched := rest }) hv h1 h3 h4 hu
        rw [afterLine_img]
        obtain h | ⟨a', w, h5, h6, h7⟩ := this
        · exact .inl h
        · exact .inr ⟨a', w, ⟨q', Agent.mem_sequences.2 (.inl ⟨_, hr, rfl⟩), h5, h1⟩, h6, h7⟩
      · obtain rfl := Host.Outcome.next.inj ht; exact .inl (by simp)
      · cases ht
    · obtain rfl := Host.Outcome.next.inj ht; exact .inl (by simp)
    · split at ht
      · obtain rfl := Host.Outcome.next.inj ht; exact .inl (by simp)
      · obtain rfl := Host.Outcome.next.inj ht; exact .inl (by simp)
      · split at ht
        · obtain rfl := Host.Outcome.next.inj ht; exact .inl (by simp)
        · rename_i hcode; exact False.elim (hso _ (by rw [hcode]; exact List.mem_cons_self))
        · obtain rfl := Host.Outcome.next.inj ht; exact .inl (by simp)
        · obtain rfl := Host.Outcome.next.inj ht; exact .inl (by simp)
  · rw [step_stopped hc hs ha hst] at ht
    obtain rfl := Host.Outcome.next.inj ht
    exact .inl rfl

/-- The word a well-formed sequence writes is a register's of a listed block. -/
theorem seqWord_reg {P : Params} (hv : P.Valid) {q : AccessSeq} (hq : checkSeq P q = none) {a : Addr}
    (h : seqWord P q = some a) :
    ∃ base r, base ∈ P.gpioBases ∧ a = regAddr P (BitVec.ofNat 32 base) r := by
  cases q <;> simp only [seqWord] at h <;> cases h
  · obtain ⟨f, hf, -⟩ := checkSet_ok hq
    obtain ⟨base, hb, e, -⟩ := fieldAt_some hv hf
    exact ⟨base, _, hb, e⟩
  · obtain ⟨base, r, hb, e, -⟩ := checkSet_multiBit hv hq
    exact ⟨base, r, hb, e⟩
  · exact ⟨_, .odr, checkOutput_ok hq, by rw [ofNat_base]⟩
  · exact ⟨_, .odr, checkOutput_ok hq, by rw [ofNat_base]⟩

/-- The agents other than one of an id are those of another id. -/
theorem State.mem_others {s : State} {id : AgentId} {y : Agent} :
    y ∈ s.others id ↔ ∃ id', id' ≠ id ∧ s.agent? id' = some y := by
  have ml : ∀ (l : List Agent) (n : Nat), y ∈ l.eraseIdx n ↔ ∃ k, k ≠ n ∧ l[k]? = some y := by
    intro l n
    rw [List.mem_eraseIdx_iff_getElem?]
  have mm : ∀ (l : List Agent), y ∈ l ↔ ∃ k, l[k]? = some y := fun l => List.mem_iff_getElem?
  constructor
  · intro h
    cases id with
    | foreground =>
      rcases List.mem_append.1 h with h | h
      · obtain ⟨k, hk⟩ := (mm _).1 h; exact ⟨.handler k, by simp, hk⟩
      · obtain ⟨k, hk⟩ := (mm _).1 h; exact ⟨.dma k, by simp, hk⟩
    | handler n =>
      rcases List.mem_cons.1 h with rfl | h
      · exact ⟨.foreground, by simp, rfl⟩
      · rcases List.mem_append.1 h with h | h
        · obtain ⟨k, h1, h2⟩ := (ml _ _).1 h; exact ⟨.handler k, by simpa using h1, h2⟩
        · obtain ⟨k, hk⟩ := (mm _).1 h; exact ⟨.dma k, by simp, hk⟩
    | dma n =>
      rcases List.mem_cons.1 h with rfl | h
      · exact ⟨.foreground, by simp, rfl⟩
      · rcases List.mem_append.1 h with h | h
        · obtain ⟨k, hk⟩ := (mm _).1 h; exact ⟨.handler k, by simp, hk⟩
        · obtain ⟨k, h1, h2⟩ := (ml _ _).1 h; exact ⟨.dma k, by simpa using h1, h2⟩
  · rintro ⟨id', hne, h⟩
    cases id with
    | foreground =>
      cases id' with
      | foreground => exact absurd rfl hne
      | handler k => exact List.mem_append.2 (.inl ((mm _).2 ⟨k, h⟩))
      | dma k => exact List.mem_append.2 (.inr ((mm _).2 ⟨k, h⟩))
    | handler n =>
      cases id' with
      | foreground => simp only [State.agent?, Option.some.injEq] at h; exact List.mem_cons.2 (.inl h.symm)
      | handler k => exact List.mem_cons.2 (.inr (List.mem_append.2 (.inl ((ml _ _).2 ⟨k, by simpa using hne, h⟩))))
      | dma k => exact List.mem_cons.2 (.inr (List.mem_append.2 (.inr ((mm _).2 ⟨k, h⟩))))
    | dma n =>
      cases id' with
      | foreground => simp only [State.agent?, Option.some.injEq] at h; exact List.mem_cons.2 (.inl h.symm)
      | handler k => exact List.mem_cons.2 (.inr (List.mem_append.2 (.inl ((mm _).2 ⟨k, h⟩))))
      | dma k => exact List.mem_cons.2 (.inr (List.mem_append.2 (.inr ((ml _ _).2 ⟨k, by simpa using hne, h⟩))))

end Sys2Proof.Machine
end

