-- ==== Sys2Proof/Laws/Writes.lean ====
section
/-! SUPPORT. What an agent has still to write and to set (Machine/Writes.lean): a turn adds nothing to it, and an
agent's step changes no other word. -/

namespace Sys2Proof.Machine

/-! ### Lists of addresses, some of them not known -/

/-- Every address of the first list is in the second, which may not know it. -/
def Covered (l l' : List (Option Addr)) : Prop := ∀ o ∈ l, ∃ o' ∈ l', o' = none ∨ o' = o

theorem Covered.of_subset {l l' : List (Option Addr)} (h : ∀ o ∈ l, o ∈ l') : Covered l l' :=
  fun o ho => ⟨o, h o ho, .inr rfl⟩

theorem Covered.trans {a b c : List (Option Addr)} (h1 : Covered a b) (h2 : Covered b c) : Covered a c := by
  intro o ho
  obtain ⟨p, hp, e1⟩ := h1 o ho
  obtain ⟨r, hr, e2⟩ := h2 p hp
  refine ⟨r, hr, ?_⟩
  rcases e2 with e2 | e2
  · exact .inl e2
  · rw [e2]; exact e1

theorem Covered.append {a b a' b' : List (Option Addr)} (h1 : Covered a a') (h2 : Covered b b') :
    Covered (a ++ b) (a' ++ b') := by
  intro o ho
  rcases List.mem_append.1 ho with h | h
  · obtain ⟨p, hp, e⟩ := h1 o h; exact ⟨p, List.mem_append.2 (.inl hp), e⟩
  · obtain ⟨p, hp, e⟩ := h2 o h; exact ⟨p, List.mem_append.2 (.inr hp), e⟩

theorem mayMeet_eq_false {l l' : List (Option Addr)} :
    mayMeet l l' = false ↔ ∀ o ∈ l, ∀ o' ∈ l', ¬ mayCoincide o o' := by
  simp only [mayMeet, List.any_eq_false, decide_eq_true_eq, Bool.not_eq_true]

/-- Addresses that cannot meet do not where more is known of them. -/
theorem Covered.mayMeet_eq_false {a b a' b' : List (Option Addr)} (h1 : Covered a a') (h2 : Covered b b')
    (h : mayMeet a' b' = false) : mayMeet a b = false := by
  rw [Machine.mayMeet_eq_false] at h ⊢
  intro o ho p hp hc
  obtain ⟨o', ho', e1⟩ := h1 o ho
  obtain ⟨p', hp', e2⟩ := h2 p hp
  refine h o' ho' p' hp' ?_
  rcases e1 with e1 | e1
  · exact .inl e1
  rcases e2 with e2 | e2
  · exact .inr (.inl e2)
  rw [e1, e2]; exact hc

/-! ### What is known of names -/

/-- The second says no more of a response than the first. -/
structure Writer.Le (x x' : Writer) : Prop where
  y  : x'.y = none ∨ x'.y = x.y
  we : x.we = true → x'.we = true

/-- The same, of every name. -/
def Writers.Le (e e' : Writers) : Prop := ∀ n, Writer.Le (e n) (e' n)

theorem Writer.Le.refl (x : Writer) : Writer.Le x x := ⟨.inr rfl, fun h => h⟩

theorem Writer.le_unknown (x : Writer) : Writer.Le x .unknown := ⟨.inl rfl, fun _ => rfl⟩

theorem Writers.Le.refl (e : Writers) : e.Le e := fun _ => .refl _

theorem Writers.Le.bindName {e e' : Writers} (h : e.Le e') (n : Name) {x x' : Writer} (hx : Writer.Le x x') :
    Writers.Le (bindName n x e) (Sys2Proof.Machine.bindName n x' e') := by
  intro k
  unfold Machine.bindName
  split
  · exact hx
  · exact h k

theorem Operand.address?_le {P : Params} {e e' : Writers} (h : e.Le e') (o : Operand) :
    Operand.address? P e' o = none ∨ Operand.address? P e' o = Operand.address? P e o := by
  cases o with
  | lit _ => exact .inr rfl
  | y n => exact (h n).y
  | wd _ => exact .inl rfl
  | word _ => exact .inl rfl
  | narrow o => cases o <;> exact .inr rfl
  | regOf n r =>
    rcases (h n).y with e1 | e1
    · left; simp [Operand.address?, e1]
    · right; simp [Operand.address?, e1]

theorem Writer.ofRequest_le (P : Params) (ctrl : Half) {a a' : Option Addr} (h : a' = none ∨ a' = a) :
    Writer.Le (.ofRequest P ctrl a) (.ofRequest P ctrl a') := by
  rcases h with rfl | rfl
  · unfold Writer.ofRequest
    split
    · exact .refl _
    · exact ⟨.inl rfl, fun h => h⟩
  · exact .refl _

theorem Writers.after_le {P : Params} {e e' : Writers} (h : e.Le e') (i : Item) : (e.after P i).Le (e'.after P i) := by
  cases i with
  | seq _ => exact h.bindName .r (.refl _)
  | configure _ => exact h.bindName .r (.refl _)
  | line l =>
    cases l with
    | request dst ctrl a d v m => exact h.bindName dst (Writer.ofRequest_le P ctrl (Operand.address?_le h a))
    | ld _ _ _ => exact h
    | st _ _ _ => exact h
    | stWe _ => exact h

theorem Line.stores_le {P : Params} {e e' : Writers} (h : e.Le e') (l : Line) :
    Covered (Line.stores P e l) (Line.stores P e' l) := by
  cases l with
  | request _ _ _ _ _ _ => intro o ho; cases ho
  | ld _ _ _ => intro o ho; cases ho
  | st _ addr _ =>
    intro o ho
    obtain rfl := List.mem_singleton.1 ho
    exact ⟨_, List.mem_singleton.2 rfl, Operand.address?_le h addr⟩
  | stWe n =>
    intro o ho
    simp only [Line.stores] at ho ⊢
    split at ho
    · rename_i hw
      obtain rfl := List.mem_singleton.1 ho
      rw [if_pos ((h n).we hw)]
      exact ⟨_, List.mem_singleton.2 rfl, (h n).y⟩
    · cases ho

theorem Line.writes_le {P : Params} {e e' : Writers} (h : e.Le e') (l : Line) :
    Covered (Line.writes P e l) (Line.writes P e' l) := by
  intro o ho
  obtain ⟨x, hx, rfl⟩ := List.mem_map.1 ho
  obtain ⟨x', hx', e⟩ := Line.stores_le h l x hx
  refine ⟨_, List.mem_map.2 ⟨x', hx', rfl⟩, ?_⟩
  rcases e with rfl | rfl
  · exact .inl rfl
  · exact .inr rfl

theorem Line.sets_le {P : Params} {e e' : Writers} (h : e.Le e') (l : Line) :
    Covered (Line.sets P e l) (Line.sets P e' l) := by
  intro o ho
  unfold Line.sets at ho ⊢
  split at ho
  · rename_i hs
    rw [if_pos hs]
    obtain ⟨h1, h2⟩ := List.mem_filter.1 ho
    obtain ⟨x', hx', e⟩ := Line.stores_le h l o h1
    refine ⟨x', List.mem_filter.2 ⟨hx', ?_⟩, e⟩
    rcases e with rfl | rfl
    · rfl
    · exact h2
  · cases ho

/-- What is read off bare lines grows where less is known of the names before them. -/
theorem lineEffects_le {P : Params} {f : Writers → Line → List (Option Addr)}
    (hf : ∀ (e e' : Writers) (l : Line), e.Le e' → Covered (f e l) (f e' l)) (is : List Item) {e e' : Writers}
    (h : e.Le e') : Covered (lineEffects P f e is) (lineEffects P f e' is) := by
  induction is generalizing e e' with
  | nil => intro o ho; cases ho
  | cons i is ih =>
    have := ih (Writers.after_le (P := P) h i)
    cases i with
    | line l => exact (hf _ _ _ h).append this
    | seq _ => exact this
    | configure _ => exact this

/-- `Y` of a response depends on the operation and `A` alone. -/
theorem respond_y {P : Params} {i : Instr} {q q' : Request} {x x' : Response} (ha : q.a = q'.a)
    (h : respond P i q = .ok x) (h' : respond P i q' = .ok x') : x.y = x'.y := by
  cases i <;>
    simp only [respond, toaliasResponse, fromaliasResponse, pinlookupResponse, fgetResponse, fsetResponse,
      bitwrResponse, srencResponse, ha] at h h' <;>
    (repeat' split at h) <;> (try cases h) <;> (repeat' split at h') <;> (try cases h') <;>
    rfl

/-- Only the field set, the bit write and the set/reset encoding ask for a write (R84, R87). -/
theorem respond_we {P : Params} {i : Instr} {q : Request} {x : Response} (h : respond P i q = .ok x)
    (hw : x.we = true) : Instr.mayWrite i = true := by
  cases i <;> first | rfl | skip
  all_goals
    simp only [respond, toaliasResponse, fromaliasResponse, pinlookupResponse, fgetResponse] at h
    (repeat' split at h) <;> first | cases h; cases hw | cases h

/-! ### What an agent does with a name it has bound -/

theorem boundWriters_bound {ag : Agent} (hr : ag.running = none) (hc : ag.conf = none) {n : Name} {x : Response}
    (h : ag.response? n = some x) : boundWriters ag n = .ofResponse x := by
  simp [boundWriters, hr, hc, h]

theorem boundWriters_unbound {ag : Agent} {n : Name} (h : ag.response? n = none) : boundWriters ag n = .unknown := by
  simp [boundWriters, h]

/-- While a sequence or a `configure` is in progress, only the names other than its `$r` tell what is known. -/
theorem boundWriters_le {a b : Agent} (hp : a.running.isSome ∨ a.conf.isSome)
    (h : ∀ n, n ≠ .r → b.response? n = a.response? n) : (boundWriters b).Le (boundWriters a) := by
  intro n
  by_cases hn : n = .r
  · subst hn
    have : boundWriters a .r = .unknown := if_pos ⟨rfl, hp⟩
    rw [this]
    exact Writer.le_unknown _
  · have : ∀ c : Agent, boundWriters c n = match c.response? n with
        | some x => .ofResponse x
        | none => .unknown := fun c => if_neg fun hc => hn hc.1
    rw [this, this, h n hn]
    exact .refl _

/-- An agent that takes up a sequence or a `configure` will bind `$r` again. -/
theorem boundWriters_begin {a b : Agent} (h : b.responses = a.responses) : (boundWriters b).Le (bindName .r .unknown (boundWriters a)) := by
  have hh : ∀ n, b.response? n = a.response? n := fun n => by rw [Agent.response?, h]; rfl
  intro n
  unfold bindName
  by_cases hn : n = .r
  · rw [if_pos hn]; exact Writer.le_unknown _
  · rw [if_neg hn]
    have : ∀ c : Agent, boundWriters c n = match c.response? n with
        | some x => .ofResponse x
        | none => .unknown := fun c => if_neg fun hc => hn hc.1
    rw [this, this, hh]
    exact .refl _

/-- An address that the text gives is the one that is used. -/
theorem Operand.eval_of_address? {P : Params} {ag : Agent} (hr : ag.running = none) (hc : ag.conf = none) {o : Operand}
    {y : Addr} (h : Operand.address? P (boundWriters ag) o = some y) (draw : Nat) : Operand.eval P draw ag o = y := by
  have known : ∀ {n z}, (boundWriters ag n).y = some z → (ag.responseOf draw n).y = z := by
    intro n z hz
    cases hx : ag.response? n with
    | none => rw [boundWriters_unbound hx] at hz; cases hz
    | some x =>
      rw [boundWriters_bound hr hc hx] at hz
      rw [Agent.responseOf_of_some hx]
      exact Option.some.inj hz
  cases o with
  | lit x => exact Option.some.inj h
  | y n => exact known h
  | wd _ => cases h
  | word _ => cases h
  | narrow o =>
    cases o with
    | lit x => exact Option.some.inj h
    | rv _ => cases h
    | z _ => cases h
    | ok _ => cases h
    | bit0 _ => cases h
  | regOf n r =>
    simp only [Operand.address?, Option.map_eq_some_iff] at h
    obtain ⟨z, hz, rfl⟩ := h
    simp only [Operand.eval, known hz]

/-- What is known of the names after a line is what the text said. -/
theorem boundWriters_after {id : AgentId} {ag new : Agent} {l : Line} {code : List Item} {s u : State}
    (ha : s.agent? id = some { ag with code := code }) (hr : ag.running = none) (hc : ag.conf = none)
    (h : runLine id ag l s = .next u) (hn : u.agent? id = some new) :
    (boundWriters new).Le ((boundWriters ag).after s.cfg (.line l)) := by
  obtain ⟨new', hn', hb⟩ := (runLine_frame h).2 _ ha
  obtain rfl := Option.some.inj (hn'.symm.trans hn)
  have hr' : new'.running = none := hb.same.running.trans hr
  have hc' : new'.conf = none := hb.same.conf.trans hc
  have keep : (∀ n, new'.response? n = ag.response? n) → (boundWriters new').Le (boundWriters ag) := by
    intro hh n
    cases hx : ag.response? n with
    | none => rw [boundWriters_unbound hx]; exact Writer.le_unknown _
    | some x =>
      rw [boundWriters_bound hr hc hx, boundWriters_bound hr' hc' ((hh n).trans hx)]
      exact .refl _
  cases l with
  | ld dst n addr => obtain ⟨w, rfl⟩ := hb; exact keep fun _ => rfl
  | st _ _ _ => obtain rfl := hb; exact keep fun _ => rfl
  | stWe _ => obtain rfl := hb; exact keep fun _ => rfl
  | request dst ctrl a d v m =>
    obtain ⟨x, hx, hu⟩ := runLine_request_next h
    have hag : u.agent? id = some (Agent.bindResponse { ag with code := code } dst x) := by
      rw [hu]
      refine State.agent?_mapAgent_same ?_ _
      exact (State.agent?_congr rfl rfl rfl id).trans ((State.drawIf_agent? ..).trans ha)
    obtain rfl := Option.some.inj (hag.symm.trans hn)
    intro n
    show Writer.Le _ (bindName dst _ _ n)
    unfold bindName
    by_cases e : n = dst
    · subst e
      rw [if_pos rfl, boundWriters_bound hr' hc' (Agent.response?_bindResponse_same ..)]
      unfold Writer.ofRequest
      obtain ⟨rfl, e, he⟩ | ⟨i, hi, hre⟩ := hx
      · rw [he]; exact .refl _
      · rw [hi]
        refine ⟨?_, fun hw => respond_we hre hw⟩
        dsimp only
        cases hy : Operand.address? s.cfg (boundWriters ag) a with
        | none => exact .inl rfl
        | some y =>
          dsimp only [Option.bind_some]
          cases hq : respond s.cfg i { a := y } with
          | error _ => exact .inl rfl
          | ok x' =>
            right
            exact congrArg some
              (respond_y (q := { a := y }) (by simp only [requestOf, Operand.eval_of_address? hr hc hy]) hq hre)
    · rw [if_neg e]
      cases hx : ag.response? n with
      | none => rw [boundWriters_unbound hx]; exact Writer.le_unknown _
      | some z =>
        rw [boundWriters_bound hr hc hx, boundWriters_bound hr' hc'
          ((Agent.response?_bindResponse_other _ e _).trans hx)]
        exact .refl _

/-! ### A turn adds nothing to what its agent writes and sets -/

/-- The second agent writes and sets nothing that the first does not. -/
structure EffectsShrink (P : Params) (a b : Agent) : Prop where
  writes : Covered (b.writes P) (a.writes P)
  sets   : Covered (b.sets P) (a.sets P)

theorem EffectsShrink.refl (P : Params) (a : Agent) : EffectsShrink P a a :=
  ⟨.of_subset fun _ h => h, .of_subset fun _ h => h⟩

theorem EffectsShrink.of_program {P : Params} {a b : Agent} (h : ProgramShrinks P a b)
    (hl : ∀ f, (∀ (e e' : Writers) (l : Line), e.Le e' → Covered (f e l) (f e' l)) →
      Covered (lineEffects P f (boundWriters b) b.code) (lineEffects P f (boundWriters a) a.code)) :
    EffectsShrink P a b := by
  have hs : ∀ g : AccessSeq → Option Addr,
      Covered (((b.sequences P).filterMap g).map some) (((a.sequences P).filterMap g).map some) := by
    intro g
    refine .of_subset fun o ho => ?_
    obtain ⟨x, hx, rfl⟩ := List.mem_map.1 ho
    obtain ⟨q, hq, e⟩ := List.mem_filterMap.1 hx
    exact List.mem_map.2 ⟨x, List.mem_filterMap.2 ⟨q, h.sequences q hq, e⟩, rfl⟩
  exact ⟨(hs _).append (hl _ fun _ _ _ => Line.writes_le (l := _)), (hs _).append (hl _ fun _ _ _ => Line.sets_le (l := _))⟩

/-- A line of an access sequence names its response `$r`. -/
theorem expand_binds {P : Params} {q : AccessSeq} {dst : Name} {ctrl : Half} {a d : Operand} {v m : NarrowOperand}
    (h : .request dst ctrl a d v m ∈ expand P q) : dst = .r := by
  cases q <;> simp [expand, reqLine] at h <;> exact h.1

/-- A turn of an agent whose sequence in progress is a well-formed one. -/
theorem agentTurn_effects {id : AgentId} {ag : Agent} {s t : State} (ha : s.agent? id = some ag)
    (hm : ∀ run ∈ ag.running, run.lines <:+ expand s.cfg run.seq) (h : agentTurn id ag s = .next t) :
    ∃ new, t.agent? id = some new ∧ EffectsShrink s.cfg ag new := by
  obtain ⟨new, hn, hsh⟩ := agentTurn_program ha h
  refine ⟨new, hn, .of_program hsh fun f hf => ?_⟩
  have done : ∀ b : Agent, t.agent? id = some b → b.code = ag.code → (boundWriters b).Le (boundWriters ag) →
      Covered (lineEffects s.cfg f (boundWriters new) new.code) (lineEffects s.cfg f (boundWriters ag) ag.code) := by
    intro b hb hcode hle
    obtain rfl := Option.some.inj (hb.symm.trans hn)
    rw [hcode]
    exact lineEffects_le hf _ hle
  unfold agentTurn at h
  split at h
  · rename_i q l ls hr
    have hp : ag.running.isSome ∨ ag.conf.isSome := .inl (by rw [hr]; rfl)
    split at h
    · rename_i u hu
      obtain rfl := Host.Outcome.next.inj h
      obtain ⟨mid, hmid, hb⟩ := (runLine_frame hu).2 ag ha
      have keep : ∀ n, n ≠ .r → mid.response? n = ag.response? n := by
        intro n hne
        have hsuf := hm _ hr
        cases l with
        | request dst ctrl a d v m =>
          obtain rfl := expand_binds (hsuf.subset List.mem_cons_self)
          obtain ⟨x, rfl⟩ := hb
          exact Agent.response?_bindResponse_other _ hne _
        | ld _ _ _ => obtain ⟨w, rfl⟩ := hb; rfl
        | st _ _ _ => obtain rfl := hb; rfl
        | stWe _ => obtain rfl := hb; rfl
      have hcode := hb.same.code
      unfold afterLine at hn done
      split at hn
      · rename_i hi
        rw [if_pos hi] at done
        exact done _ (endSeq_agent?_same hmid _) hcode (boundWriters_le hp keep)
      · rename_i hi
        rw [if_neg hi] at done
        split at hn
        · exact done _ (endSeq_agent?_same hmid _) hcode (boundWriters_le hp keep)
        · exact done _ (State.agent?_mapAgent_same hmid _) hcode (boundWriters_le hp keep)
    · obtain rfl := Host.Outcome.next.inj h
      exact done _ (faulted_agent?_same ha ..) rfl (.refl _)
    · cases h
  · rename_i hr
    obtain rfl := Host.Outcome.next.inj h
    exact done _ (State.agent?_setAgent_same ha _) rfl (boundWriters_le (.inl (by rw [hr]; rfl)) fun _ _ => rfl)
  · rename_i hr
    split at h
    · rename_i q qs ok hconf
      obtain rfl := Host.Outcome.next.inj h
      exact done _ (State.agent?_setAgent_same ha _) rfl (boundWriters_le (.inr (by rw [hconf]; rfl)) fun _ _ => rfl)
    · rename_i ok hconf
      obtain rfl := Host.Outcome.next.inj h
      exact done _ (State.agent?_setAgent_same ha _) rfl (boundWriters_le (.inr (by rw [hconf]; rfl)) fun _ _ => rfl)
    · rename_i hconf
      split at h
      · obtain rfl := Host.Outcome.next.inj h
        exact done _ ha rfl (.refl _)
      · rename_i l rest hcode
        split at h
        · rename_i u hu
          obtain rfl := Host.Outcome.next.inj h
          have ha' := State.agent?_setAgent_same ha { ag with code := rest }
          obtain ⟨new', hn', hb⟩ := (runLine_frame hu).2 _ ha'
          obtain rfl := Option.some.inj (hn'.symm.trans hn)
          have hle := boundWriters_after ha' hr hconf hu hn
          rw [State.setAgent_cfg] at hle
          rw [hb.same.code, hcode]
          exact fun o ho => by
            obtain ⟨o', ho', e⟩ := lineEffects_le hf rest hle o ho
            exact ⟨o', List.mem_append.2 (.inr ho'), e⟩
        · obtain rfl := Host.Outcome.next.inj h
          exact done _ (faulted_agent?_same ha ..) rfl (.refl _)
        · cases h
      · rename_i q rest hcode
        obtain rfl := Host.Outcome.next.inj h
        obtain rfl := Option.some.inj ((State.agent?_setAgent_same ha _).symm.trans hn)
        rw [hcode]
        exact lineEffects_le hf rest (boundWriters_begin rfl)
      · rename_i c rest hcode
        obtain rfl := Host.Outcome.next.inj h
        obtain rfl := Option.some.inj ((State.agent?_setAgent_same ha _).symm.trans hn)
        rw [hcode]
        exact lineEffects_le hf rest (boundWriters_begin rfl)

/-- What an agent has still to write and to set after a step, it had before it. -/
theorem step_effects {s t : State} (hi : s.Inv) (h : step s = .next t) {id : AgentId} {new : Agent}
    (hn : t.agent? id = some new) : ∃ old, s.agent? id = some old ∧ EffectsShrink s.cfg old new := by
  obtain ⟨-, ⟨-, rfl⟩ | ⟨id', rest, hs, hturn⟩⟩ := step_next h
  · exact ⟨new, hn, .refl ..⟩
  · have hag : ∀ i, State.agent? { s with sched := rest } i = s.agent? i := fun i =>
      State.agent?_congr rfl rfl rfl i
    obtain ⟨-, rfl⟩ | ⟨ag', ha', -, hturn⟩ := turn_next hturn
    · exact ⟨new, (hag id).symm.trans hn, .refl ..⟩
    · by_cases e : id' = id
      · subst e
        have ha := (hag id').symm.trans ha'
        obtain ⟨new', hn', hsh⟩ := agentTurn_effects ha'
          (fun run hr => (hi.2.2.2 _ (State.mem_agents.2 ⟨id', ha⟩) run hr).2.2.1) hturn
        obtain rfl := Option.some.inj (hn'.symm.trans hn)
        exact ⟨ag', ha, hsh⟩
      · rw [(agentTurn_frame hturn).others id e] at hn
        exact ⟨new, (hag id).symm.trans hn, .refl ..⟩

/-! ### A step of an agent changes a word that it writes -/

/-- The word a bus write changes. -/
theorem memWrite_wordOf {s t : State} (hv : s.cfg.Valid) {n : Nat} {addr : Addr} {v : Word}
    (h : memWrite s n addr v = .ok t) :
    ∃ w, (wordOf s.cfg addr).toNat % 4 = 0 ∧ t.img = Memory.setWord s.img (wordOf s.cfg addr) w := by
  unfold memWrite at h
  split at h
  · cases h
  · rename_i base r a ht
    obtain ⟨-, h4, hnw, rfl, hb, hr⟩ := target_reg ht
    by_cases hbs : r = some .bsrr
    · have hl : locate s.cfg a = some (base, .bsrr) := by simp only [locate, hb, ← hr, hbs]
      have hw : wordOf s.cfg a = regAddr s.cfg (BitVec.ofNat 32 base) .odr := by simp only [wordOf, if_neg hnw, hl]
      rw [hw]
      unfold writeReg at h
      rw [hbs] at h
      dsimp only at h
      split at h
      · cases h
      · obtain rfl := Except.ok.inj h
        exact ⟨_, regAddr_aligned hv (blockOf_some hb).1 _, rfl⟩
    · have hw : wordOf s.cfg a = a := by
        rw [wordOf, if_neg hnw]
        split
        · rename_i b hl
          simp only [locate, hb, ← hr] at hl
          split at hl
          · cases hl
          · rename_i r' _
            cases hl
            exact absurd rfl hbs
        · rfl
      rw [hw]
      unfold writeReg at h
      split at h
      · obtain rfl := Except.ok.inj h; exact ⟨_, h4, rfl⟩
      · cases h
      · cases h
      · exact absurd rfl hbs
      · obtain rfl := Except.ok.inj h; exact ⟨_, h4, rfl⟩
  · rename_i base r a b ht
    obtain ⟨-, -, hy, rfl, -, -, -⟩ := target_bit ht
    have hw : wordOf s.cfg addr = aliasReg s.cfg addr := if_pos hy
    rw [hw]
    unfold writeBit at h
    split at h
    · cases h
    · obtain rfl := Except.ok.inj h
      exact ⟨_, aliasReg_aligned hv.1 hy, rfl⟩

/-- A bare line changes a word that it writes, at most. -/
theorem runLine_writes {id : AgentId} {ag : Agent} {l : Line} {s u : State} (hv : s.cfg.Valid)
    (hr : ag.running = none) (hc : ag.conf = none) (h : runLine id ag l s = .next u) :
    u.img = s.img ∨ ∃ o ∈ Line.writes s.cfg (boundWriters ag) l, ∃ a w, (o = none ∨ o = some a) ∧
      a.toNat % 4 = 0 ∧ u.img = Memory.setWord s.img a w := by
  have wr : ∀ {b n y v t}, memWrite (s.drawIf b) n y v = .ok t →
      ∃ w, (wordOf s.cfg y).toNat % 4 = 0 ∧ t.img = Memory.setWord s.img (wordOf s.cfg y) w := by
    intro b n y v t ht
    simpa using memWrite_wordOf (by simpa using hv) ht
  cases l with
  | request dst ctrl a d v m => obtain ⟨x, -, rfl⟩ := runLine_request_next h; exact .inl (by simp)
  | ld dst n addr =>
    simp only [runLine] at h
    split at h
    · cases h
    · rename_i ht
      obtain ⟨base, r, rfl⟩ := memRead_ok ht
      obtain rfl := Host.Outcome.next.inj h
      exact .inl (by simp)
  | st n addr data =>
    simp only [runLine] at h
    split at h
    · cases h
    · rename_i t ht
      obtain rfl := Host.Outcome.next.inj h
      obtain ⟨w, h4, e⟩ := wr ht
      refine .inr ⟨_, List.mem_singleton.2 rfl, _, w, ?_, h4, e⟩
      cases hy : Operand.address? s.cfg (boundWriters ag) addr with
      | none => exact .inl rfl
      | some y => rw [Operand.eval_of_address? hr hc hy]; exact .inr rfl
  | stWe n =>
    simp only [runLine] at h
    split at h
    · rename_i hw
      split at h
      · cases h
      · rename_i t ht
        obtain rfl := Host.Outcome.next.inj h
        obtain ⟨w, h4, e⟩ := wr ht
        cases hx : ag.response? n with
        | none =>
          refine .inr ⟨none, ?_, _, w, .inl rfl, h4, e⟩
          simp only [Line.writes, Line.stores, boundWriters_unbound hx, Writer.unknown]
          exact List.mem_singleton.2 rfl
        | some x =>
          rw [Agent.responseOf_of_some hx] at hw h4 e
          refine .inr ⟨some (wordOf s.cfg x.y), ?_, _, w, .inr rfl, h4, e⟩
          simp only [Line.writes, Line.stores, boundWriters_bound hr hc hx, Writer.ofResponse, hw, if_true]
          exact List.mem_singleton.2 rfl
    · obtain rfl := Host.Outcome.next.inj h
      exact .inl (by simp)

/-- A step of an agent changes one register word at most, one that the agent has still to write. -/
theorem step_writes {s t : State} {id : AgentId} {rest : List AgentId} {ag : Agent} (hi : s.Inv)
    (hs : s.sched = id :: rest) (ha : s.agent? id = some ag) (ht : step s = .next t) :
    t.img = s.img ∨ ∃ o ∈ ag.writes s.cfg, ∃ a w, (o = none ∨ o = some a) ∧ a.toNat % 4 = 0 ∧
      t.img = Memory.setWord s.img a w := by
  obtain ⟨hv, -, hc, hmid⟩ := hi
  by_cases hst : ag.stopped = none
  · rw [step_eq_agentTurn hc hs ha hst] at ht
    unfold agentTurn at ht
    split at ht
    · rename_i q l ls hr
      split at ht
      · rename_i u hu
        obtain rfl := Host.Outcome.next.inj ht
        obtain ⟨h1, -, h3, h4⟩ := hmid ag (State.mem_agents.2 ⟨id, ha⟩) _ hr
        rw [afterLine_img]
        obtain h | ⟨a, w, h5, h6, h7⟩ := runLine_seqWord (s := { s with sched := rest }) hv h1 h3 h4 hu
        · exact .inl h
        · refine .inr ⟨some a, List.mem_append.2 (.inl (List.mem_map.2 ⟨a, ?_, rfl⟩)), a, w, .inr rfl, h6, h7⟩
          exact List.mem_filterMap.2 ⟨q, Agent.mem_sequences.2 (.inl ⟨_, hr, rfl⟩), h5⟩
      · obtain rfl := Host.Outcome.next.inj ht; exact .inl (by simp)
      · cases ht
    · obtain rfl := Host.Outcome.next.inj ht; exact .inl (by simp)
    · rename_i hr
      split at ht
      · obtain rfl := Host.Outcome.next.inj ht; exact .inl (by simp)
      · obtain rfl := Host.Outcome.next.inj ht; exact .inl (by simp)
      · rename_i hconf
        split at ht
        · obtain rfl := Host.Outcome.next.inj ht; exact .inl (by simp)
        · rename_i l code hcode
          split at ht
          · rename_i u hu
            obtain rfl := Host.Outcome.next.inj ht
            have := runLine_writes (by simpa using hv) hr hconf hu
            simp only [State.setAgent_img, State.setAgent_cfg] at this
            refine this.imp_right ?_
            rintro ⟨o, ho, h⟩
            refine ⟨o, List.mem_append.2 (.inr ?_), h⟩
            rw [hcode]
            exact List.mem_append.2 (.inl ho)
          · obtain rfl := Host.Outcome.next.inj ht; exact .inl (by simp)
          · cases ht
        · obtain rfl := Host.Outcome.next.inj ht; exact .inl (by simp)
        · obtain rfl := Host.Outcome.next.inj ht; exact .inl (by simp)
  · rw [step_stopped hc hs ha hst] at ht
    obtain rfl := Host.Outcome.next.inj ht
    exact .inl rfl

end Sys2Proof.Machine
end

