-- ==== Sys2Proof/Tests/Slice0.lean ====
section
/-! SUPPORT. The model's own tests: the checks refuse what they should; words written out bit by bit decode to what
they stand for; at most two requests of each instruction and the bus events of spec/95_test_vectors.md (its ids are
named); and, for every obligation with hypotheses, operands and a state that meet them. -/

namespace Sys2Proof.Tests

open Sys2Proof.Machine

/-! ### Helpers -/

/-- Reset with a request on the input ports. -/
def st (q : Request) : State := { State.reset with inp := q }

/-- Reset with words in the image. -/
def im (l : List (Addr × Word)) : State :=
  { State.reset with img := l.foldl (fun m p => Memory.setWord m p.1 p.2) [] }

def out? : Host.Outcome State Fault Refusal → Option Response
  | .next t => some t.out
  | .fault _ => none
  | .refused _ => none

def fault? : Host.Outcome State Fault Refusal → Option Fault
  | .next _ => none
  | .fault f => some f
  | .refused _ => none

def refusal? : Host.Outcome State Fault Refusal → Option Refusal
  | .next _ => none
  | .fault _ => none
  | .refused r => some r

/-- The word at `r` after a bus write. -/
def written (s : State) (n : Nat) (a : Addr) (v : Word) (r : Addr) : Except Fault Word :=
  match memWrite s n a v with
  | .ok t => .ok (Memory.word t.img r)
  | .error f => .error f

/-- The word a bus read returns. -/
def read (s : State) (n : Nat) (a : Addr) : Except Fault Word :=
  match memRead s n a with
  | .ok (w, _) => .ok w
  | .error f => .error f

/-- Reset with one item as the foreground's program, and `n` turns of it to come. -/
def prog (i : Item) (n : Nat) : State :=
  { State.reset with foreground := { code := [i] }, sched := List.replicate n .foreground }

/-! ### The checks refuse -/

/-- R60: `E = 1` with widths 15 and 16. -/
theorem test_wellFormed_refuses :
    ¬ (Instr.fset .w15 true 0).WellFormed ∧ ¬ (Instr.fset .w16 true 0).WellFormed ∧
      (Instr.fset .w4 true 0).WellFormed ∧ (Instr.fset .w16 false 0).WellFormed := by decide

/-- R68, R23: one ill-formed sequence for each check. -/
theorem test_checks_refuse :
    checkSeq Params.default (.get .w2 0x40020000 1) = some .wf1 ∧
    checkSeq Params.default (.setBit 0x40020010 0 1) = some .wf2 ∧
    checkSeq Params.default (.set .w16 false 0x40020014 16 0 0) = some .wf2 ∧
    checkSeq Params.default (.get .w1 0x40020018 0) = some .wf3 ∧
    checkSeq Params.default (.set .w1 false 0x40020014 0 1 0) = some .wf4 ∧
    checkSeq Params.default (.writeDirect ⟨0x40020000, 5, .input⟩ 1) = some .wf5 ∧
    checkSeq Params.default (.pinOf 0x42410024) = some .wf6 ∧
    checkSeq Params.default (.set .w4 true 0x40020024 4 7 0x1FFF) = some .wf7 ∧
    checkSeq Params.default (.get .w16 0x40020014 16) = some .placeholderTarget := by decide

/-- R68: an ill-formed program takes no step. -/
theorem test_illFormed_refused :
    refusal? (step (prog (.seq (.pinOf 0x42410024)) 1)) = some (.illFormedProgram .wf6) := by decide

/-- Program P2 of spec/95_test_vectors.md as lines, with a handle made from register word `a`. -/
def handleProgram (a : Addr) : State :=
  { State.reset with
    foreground :=
      { code := [.line (.request (.user 0) 0x0900 (.lit a) (.lit 0) (.lit 0) (.lit 0)),
                 .line (.request (.user 1) 0x0002 (.y (.user 0)) (.lit 0) (.lit 0) (.lit 0)),
                 .line (.ld (.user 2) 4 (.y (.user 0)))] }
    sched := [.foreground] }

/-- P2 runs with the handle of IDR pin 9; P2-bad, with the handle of a MODER bit, is refused (R68 WF6), and so is one
that `TOALIAS` makes of an address outside the region, or of a misaligned one. -/
theorem test_line_handle_refused :
    refusal? (step (handleProgram 0x40020810)) = none ∧
    refusal? (step (handleProgram 0x40020800)) = some (.illFormedProgram .wf6) ∧
    refusal? (step (handleProgram 0x48020810)) = some (.illFormedProgram .wf6) ∧
    refusal? (step (handleProgram 0x40020811)) = some (.illFormedProgram .wf6) := by decide

/-- An alias word is read as its bit (R47, R68 WF1, WF3): of ODR, of a field of width 2, of a set bit; and an `fget.w1`
of it is a get of no field (R48, WF1). -/
theorem test_line_alias_read_checked :
    (∀ x ∈ [((0x42400294 : Addr), none), (0x42400024, some ProgramCheck.wf1), (0x42400300, some .wf3)],
      checkLine Params.default (namesOf Params.default {}) (.ld (.user 0) 4 (.lit x.1)) = x.2) ∧
    checkAgent Params.default
      { code := [.line (.ld (.user 0) 4 (.lit 0x42400094)),
                 .line (.request (.user 1) 0x0003 (.lit 0) (.word (.user 0)) (.lit 0) (.lit 0))] } = some .wf1 := by decide

/-- P3's first two lines, with the valid set it assumes: another mask is refused (R68 WF7). -/
theorem test_line_mask_refused : ∀ x ∈ [((0x1FFF : Half), none), (0x3FFF, some ProgramCheck.wf7)],
    checkLine { Params.default with valid := [((.afrh, 4), 0x1FFF)] } (namesOf Params.default {})
      (.request (.user 1) 0x04A4 (.lit 0x40020024) (.word (.user 0)) (.lit 13) (.lit x.1)) = x.2 := by decide

/-! ### Faults and what is not named -/

/-- A handler whose one line is a `FROMALIAS` of an address outside the window, then a turn of the foreground. -/
def faulting : State :=
  { State.reset with
    foreground := { code := [.line (.st 4 (.lit 0x40020014) (.lit 1))] }
    handlers := [{ code := [.line (.request (.user 0) 1 (.lit 0) (.lit 0) (.lit 0) (.lit 0))] }]
    sched := [.handler 0, .foreground] }

def next? : Host.Outcome State Fault Refusal → Option State
  | .next t => some t
  | .fault _ => none
  | .refused _ => none

/-- R94: the fault is the handler's; the foreground's write is made all the same. -/
theorem test_fault_stops_its_agent :
    ((next? (step faulting)).map fun t => (t.agent? (.handler 0)).map (·.stopped)) =
      some (some (some (.preconditionViolation .fromalias .aliasOutsideWindow))) ∧
    ((next? (step faulting)).bind fun t => (next? (step t)).map fun u => Memory.word u.img 0x40020014) = some 1 := by
  decide

/-- R34: a word of a block in which R21 places no register, written and then one bit of it by its alias. -/
theorem test_spare_word :
    written State.reset 4 0x40020028 0x80000001 0x40020028 = .ok 0x80000001 ∧
    written State.reset 4 0x42400504 1 0x40020028 = .ok 2 := by decide

/-! ### Decoding: words written out from R56, R58, R59 -/

/-- `{RSV=000, B=00101, E=0, WC=000, OP=0000}` and its neighbours, one for each operation. -/
theorem test_decode_words :
    decode 0b0000010100000000 = .ok (.toalias 5) ∧ decode 0b0001111100000000 = .ok (.toalias 31) ∧
    decode 0b0000000000000001 = .ok .fromalias ∧ decode 0b0001111111110001 = .ok .fromalias ∧
    decode 0b0000000000000010 = .ok .pinlookup ∧
    decode 0b0001111000010011 = .ok (.fget .w2 30) ∧ decode 0b0001000101000011 = .ok (.fget .w16 17) ∧
    decode 0b0000100010100100 = .ok (.fset .w4 true 8) ∧ decode 0b0001000100110100 = .ok (.fset .w15 false 17) ∧
    decode 0b0000010111010101 = .ok (.bitwr 5) ∧ decode 0b0000111100000110 = .ok (.srenc 15) := by decide

/-- R63: DC1, DC3, DC6, DC7 of spec/95_test_vectors.md. -/
theorem test_decode_illegal :
    decode 0x2500 = .error .reservedBits ∧ decode 0x0007 = .error .reservedOp ∧
    decode 0x1F63 = .error .reservedWidth ∧ decode 0x14C4 = .error .enumWidth := by decide

theorem test_decodeTableWord :
    decodeTableWord 16 0x1E13 = some (.fget .w2 30) ∧ decodeTableWord 8 0x05 = some (.bitwr 0) ∧
    decodeTableWord 16 0x0007 = none ∧ decodeTableWord 32 0x05 = none := by decide

/-- A step runs the word that was placed, from reset, for every operation. -/
theorem test_withFetchWord : ∀ w ∈ [0, 1, 2, 3, 4, 5, 6],
    (out? (step (State.reset.withFetchWord 16 w))).map (·.ok) = some true := by decide

/-! ### Requests: vectors of spec/95_test_vectors.md -/

/-- TA7. -/
theorem test_toalias : out? (exec (.toalias 31) (st { a := 0x400FFFFC })) =
    some { y := 0x43FFFFFC, ok := true } := by decide
/-- TA14. -/
theorem test_toalias_pre : fault? (exec (.toalias 3) (st { a := 0x3FFFFFFD })) =
    some (.preconditionViolation .toalias .addrOutsideRegion) := by decide
/-- FA2. -/
theorem test_fromalias : out? (exec .fromalias (st { a := 0x42400294 })) =
    some { y := 0x40020014, z := 5, ok := true } := by decide
/-- FA9. -/
theorem test_fromalias_pre : fault? (exec .fromalias (st { a := 0x44000000 })) =
    some (.preconditionViolation .fromalias .aliasOutsideWindow) := by decide
/-- PL11. -/
theorem test_pinlookup : out? (exec .pinlookup (st { a := 0x424102A4 })) =
    some { y := 0x40020800, z := 9, ok := true } := by decide
/-- PL19. -/
theorem test_pinlookup_pre : fault? (exec .pinlookup (st { a := 0x42400240 })) =
    some (.preconditionViolation .pinlookup .pinOutOfRange) := by decide
/-- FG7. -/
theorem test_fget : out? (exec (.fget .w16 16) (st { d := 0x8001ABCD })) =
    some { rv := 0x8001, ok := true } := by decide
/-- FG15. -/
theorem test_fget_pre : fault? (exec (.fget .w15 18) (st { d := 0xFFFFFFFF })) =
    some (.preconditionViolation .fget .fieldOutOfWord) := by decide
/-- FS2. -/
theorem test_fset : out? (exec (.fset .w2 false 30) (st { a := 0x40020000, d := 0xA8000000, v := 0 })) =
    some { y := 0x40020000, wd := 0x28000000, ok := true, we := true } := by decide
/-- FS7. -/
theorem test_fset_enum :
    out? (exec (.fset .w4 true 8) (st { a := 0x40020020, d := 0x12345678, v := 13, m := 0x1FFF })) =
      some { y := 0x40020020, wd := 0x12345678 } := by decide
/-- BW5. -/
theorem test_bitwr : out? (exec (.bitwr 15) (st { a := 0x40020414, v := 1 })) =
    some { y := 0x424082BC, wd := 1, ok := true, we := true } := by decide
/-- BW4. -/
theorem test_bitwr_rejected : out? (exec (.bitwr 5) (st { a := 0x40020014, v := 0xFFFF })) =
    some { y := 0x42400294 } := by decide
/-- SR4. -/
theorem test_srenc : out? (exec (.srenc 15) (st { a := 0x40020018, v := 0 })) =
    some { y := 0x40020018, wd := 0x80000000, ok := true, we := true } := by decide
/-- SR8. -/
theorem test_srenc_pre : fault? (exec (.srenc 16) (st { a := 0x40020018, v := 1 })) =
    some (.preconditionViolation .srenc .pinOutOfRange) := by decide

/-! ### Bus events: vectors of spec/95_test_vectors.md -/

/-- MB1, MB2. -/
theorem test_alias_read : read (im [(0x40020014, 0x8001)]) 4 0x42400294 = .ok 0 ∧
    read (im [(0x40020014, 0x8001)]) 4 0x424002BC = .ok 1 := by decide
/-- MB3. -/
theorem test_alias_write : written (im [(0x40020014, 0x8001)]) 4 0x42400294 1 0x40020014 = .ok 0x8021 := by decide
/-- MB4, MB6. -/
theorem test_bsrr_write :
    written (im [(0x40020014, 0x8021)]) 4 0x40020018 0x00200001 0x40020014 = .ok 0x8001 ∧
    written State.reset 4 0x40020018 0x00010001 0x40020014 = .error .bsrrBothBits := by decide
/-- MB9 to MB14. -/
theorem test_no_step :
    written State.reset 4 0x40020010 0 0 = .error (.stuck .idrWrite) ∧
    written State.reset 4 0x42400300 1 0 = .error (.stuck .aliasOfBsrr) ∧
    written State.reset 4 0x4002001C 0x10000 0 = .error (.stuck .lckrWrite) ∧
    written State.reset 4 0x424002C0 1 0 = .error (.stuck .aliasWritePlaceholder) ∧
    read State.reset 4 0x40020002 = .error (.stuck .misaligned) ∧
    read State.reset 2 0x40020000 = .error (.stuck .accessWidth) ∧
    read State.reset 4 0x40010000 = .error (.stuck .outsideModel) := by decide

/-! ### Witnesses: operands and a state that meet every hypothesis of an obligation

Named `witness_<obligation>`; where an obligation has several clauses, one witness for each, at the boundary of its
range. The platform is R4's default one. -/

/-- Reset with an address on port `A`. -/
def stAt (a : Nat) : State := st { a := BitVec.ofNat 32 a }

/-- Below the region, one past its end; misaligned in its first and last word; its first and its last word. -/
theorem witness_ToaliasMapsBitToItsAlias :
    (0x1F00 : Half).extractLsb' 0 4 = 0 ∧ (0x1F00 : Half).extractLsb' 13 3 = 0 ∧ (st {}).cfg.RangesOk ∧
    (∀ a ∈ [0x3FFFFFFC, 0x40100000], ¬ ((stAt a).cfg.rb ≤ (stAt a).inp.a.toNat ∧
      (stAt a).inp.a.toNat < (stAt a).cfg.rb + (stAt a).cfg.rs)) ∧
    (∀ a ∈ [0x40000001, 0x400FFFFF, 0x40000000, 0x400FFFFC],
      (stAt a).cfg.rb ≤ (stAt a).inp.a.toNat ∧
      (stAt a).inp.a.toNat < (stAt a).cfg.rb + (stAt a).cfg.rs) ∧
    (∀ a ∈ [0x40000001, 0x400FFFFF], (stAt a).inp.a.toNat % 4 ≠ 0) ∧
    (∀ a ∈ [0x40000000, 0x400FFFFC], (stAt a).inp.a.toNat % 4 = 0) := by decide

theorem witness_FromaliasRecoversRegisterAndBit :
    (0x0001 : Half).extractLsb' 0 4 = 1 ∧ (0x0001 : Half).extractLsb' 13 3 = 0 ∧ (st {}).cfg.RangesOk ∧
    (∀ a ∈ [0x41FFFFFC, 0x44000000], ¬ ((stAt a).cfg.ab ≤ (stAt a).inp.a.toNat ∧
      (stAt a).inp.a.toNat < (stAt a).cfg.ab + 32 * (stAt a).cfg.rs)) ∧
    (∀ a ∈ [0x42000001, 0x43FFFFFF, 0x42000000, 0x43FFFFFC],
      (stAt a).cfg.ab ≤ (stAt a).inp.a.toNat ∧
      (stAt a).inp.a.toNat < (stAt a).cfg.ab + 32 * (stAt a).cfg.rs) ∧
    (∀ a ∈ [0x42000001, 0x43FFFFFF], (stAt a).inp.a.toNat % 4 ≠ 0) ∧
    (∀ a ∈ [0x42000000, 0x43FFFFFC], (stAt a).inp.a.toNat % 4 = 0) := by decide

/-- Outside the window; misaligned; MODER bit 0 and BSRR bit 0; ODR bits 16 and 31; IDR pin 0 and ODR pin 15. -/
theorem witness_PinlookupRecoversBlockAndPin :
    (0x0002 : Half).extractLsb' 0 4 = 2 ∧ (0x0002 : Half).extractLsb' 13 3 = 0 ∧ (st {}).cfg.RangesOk ∧
    (∀ a ∈ [0x41FFFFFC, 0x44000000], ¬ ((stAt a).cfg.ab ≤ (stAt a).inp.a.toNat ∧
      (stAt a).inp.a.toNat < (stAt a).cfg.ab + 32 * (stAt a).cfg.rs)) ∧
    (∀ a ∈ [0x42400226, 0x42400200, 0x424002BC, 0x42400000, 0x42400300, 0x424002C0, 0x424002FC],
      (stAt a).cfg.ab ≤ (stAt a).inp.a.toNat ∧
      (stAt a).inp.a.toNat < (stAt a).cfg.ab + 32 * (stAt a).cfg.rs) ∧
    (stAt 0x42400226).inp.a.toNat % 4 ≠ 0 ∧
    (∀ a ∈ [0x42400000, 0x42400300], (stAt a).inp.a.toNat % 4 = 0 ∧
      (0x40000000 + ((stAt a).inp.a.toNat - 0x42000000) / 128 * 4) % 0x400 ≠ 0x10 ∧
      (0x40000000 + ((stAt a).inp.a.toNat - 0x42000000) / 128 * 4) % 0x400 ≠ 0x14) ∧
    (∀ a ∈ [0x424002C0, 0x424002FC], (stAt a).inp.a.toNat % 4 = 0 ∧
      (0x40000000 + ((stAt a).inp.a.toNat - 0x42000000) / 128 * 4) % 0x400 = 0x14 ∧
      16 ≤ ((stAt a).inp.a.toNat - 0x42000000) / 4 % 32) ∧
    (∀ a ∈ [0x42400200, 0x424002BC], (stAt a).inp.a.toNat % 4 = 0 ∧
      ((0x40000000 + ((stAt a).inp.a.toNat - 0x42000000) / 128 * 4) % 0x400 = 0x10 ∨
        (0x40000000 + ((stAt a).inp.a.toNat - 0x42000000) / 128 * 4) % 0x400 = 0x14) ∧
      ((stAt a).inp.a.toNat - 0x42000000) / 4 % 32 < 16) := by decide

/-- Width 15 at shifts 17 (the last that fits) and 18. -/
theorem witness_FgetExtractsTheField :
    (∀ n ∈ [0x1133, 0x1233], (BitVec.ofNat 16 n).extractLsb' 0 4 = 3 ∧ (BitVec.ofNat 16 n).extractLsb' 13 3 = 0 ∧
      (BitVec.ofNat 16 n).extractLsb' 4 3 = Width.code .w15) ∧
    ((0x1133 : Half).extractLsb' 8 5).toNat + Width.bits .w15 ≤ 32 ∧
    32 < ((0x1233 : Half).extractLsb' 8 5).toNat + Width.bits .w15 := by decide

/-- Width 4 with `E = 1`: shifts 28 and 29; the last value that fits, marked and not marked; the first that does
not fit. -/
theorem witness_FsetInsertsACheckedField :
    (∀ n ∈ [0x1CA4, 0x1DA4], (BitVec.ofNat 16 n).extractLsb' 0 4 = 4 ∧ (BitVec.ofNat 16 n).extractLsb' 13 3 = 0 ∧
      (BitVec.ofNat 16 n).extractLsb' 4 3 = Width.code .w4 ∧ (BitVec.ofNat 16 n).getLsbD 7 = true ∧
      Width.bits .w4 < 15) ∧
    32 < ((0x1DA4 : Half).extractLsb' 8 5).toNat + Width.bits .w4 ∧
    ((0x1CA4 : Half).extractLsb' 8 5).toNat + Width.bits .w4 ≤ 32 ∧
    (st { v := 15, m := 0x8000 }).inp.v.toNat < 2 ^ Width.bits .w4 ∧
    (st { v := 15, m := 0x8000 }).inp.m.getLsbD (st { v := 15, m := 0x8000 }).inp.v.toNat = true ∧
    ¬ ((st { v := 15, m := 0x7FFF }).inp.m.getLsbD (st { v := 15, m := 0x7FFF }).inp.v.toNat = true) ∧
    ¬ ((st { v := 16, m := 0xFFFF }).inp.v.toNat < 2 ^ Width.bits .w4) := by decide

theorem witness_BitwrAsksForOneAliasStore :
    (0x1F05 : Half).extractLsb' 0 4 = 5 ∧ (0x1F05 : Half).extractLsb' 13 3 = 0 ∧ (st {}).cfg.RangesOk ∧
    (∀ a ∈ [0x3FFFFFFC, 0x40100000], ¬ ((stAt a).cfg.rb ≤ (stAt a).inp.a.toNat ∧
      (stAt a).inp.a.toNat < (stAt a).cfg.rb + (stAt a).cfg.rs)) ∧
    (∀ a ∈ [0x40000001, 0x400FFFFF, 0x40000000, 0x400FFFFC],
      (stAt a).cfg.rb ≤ (stAt a).inp.a.toNat ∧
      (stAt a).inp.a.toNat < (stAt a).cfg.rb + (stAt a).cfg.rs) ∧
    (∀ a ∈ [0x40000001, 0x400FFFFF], (stAt a).inp.a.toNat % 4 ≠ 0) ∧
    (∀ a ∈ [0x40000000, 0x400FFFFC], (stAt a).inp.a.toNat % 4 = 0) ∧
    (st { v := 1 }).inp.v.toNat ≤ 1 ∧ 1 < (st { v := 2 }).inp.v.toNat := by decide

theorem witness_SrencEncodesOnePin :
    (∀ n ∈ [0x0F06, 0x1006], (BitVec.ofNat 16 n).extractLsb' 0 4 = 6 ∧ (BitVec.ofNat 16 n).extractLsb' 13 3 = 0) ∧
    16 ≤ ((0x1006 : Half).extractLsb' 8 5).toNat ∧ ((0x0F06 : Half).extractLsb' 8 5).toNat < 16 ∧
    (st { v := 1 }).inp.v.toNat = 1 ∧ (st { v := 0 }).inp.v.toNat = 0 ∧ 2 ≤ (st { v := 2 }).inp.v.toNat := by decide

/-- The last legal word before each of R63's conditions and the first one it takes: bit 13, `OP` 6 and 7, `WC` 4
and 5, `E` with widths 4 and 15. -/
theorem witness_IllegalExactlyWhenListed :
    (st { ctrl := 0x2000 }).inp = { ctrl := 0x2000 } ∧
    (∀ n ∈ [0x2000, 0x0007, 0x0053, 0x0054, 0x00B4, 0x00C4],
      ∃ e ∈ [IllegalReason.reservedBits, .reservedOp, .reservedWidth, .enumWidth],
        decode (BitVec.ofNat 16 n) = .error e) ∧
    (∀ n ∈ [0x1F00, 0x0006, 0x0043, 0x0044, 0x00A4], ∃ i, decode (BitVec.ofNat 16 n) = .ok i) := by
  refine ⟨rfl, by decide, ?_⟩
  simp only [List.mem_cons, List.not_mem_nil, or_false, forall_eq_or_imp, forall_eq]
  exact ⟨⟨_, rfl⟩, ⟨_, rfl⟩, ⟨_, rfl⟩, ⟨_, rfl⟩, ⟨_, rfl⟩⟩

theorem witness_DecodeInvertsEncode :
    ∀ i ∈ [Instr.toalias 31, .fromalias, .pinlookup, .fget .w16 31, .fset .w4 true 31, .bitwr 31, .srenc 31],
      i.WellFormed := by decide

theorem witness_DecodingDependsOnReadBitsAlone :
    decode 0x05F0 = .ok (.toalias 5) ∧ (0x05F0 : Half) &&& (Instr.toalias 5).readMask =
      0x0500 &&& (Instr.toalias 5).readMask := by decide

/-- `FSET` with `E = 0` ignores `M`; `TOALIAS` ignores `WC` and `E`. -/
theorem witness_IgnoredOperandsChangeNothing :
    decode ({ ctrl := 0x0A14, v := 1 } : Request).ctrl = .ok (.fset .w2 false 10) ∧
    ({ ctrl := 0x0A14, v := 1, m := 7 } : Request).ctrl &&& (Instr.fset .w2 false 10).readMask =
      ({ ctrl := 0x0A14, v := 1 } : Request).ctrl &&& (Instr.fset .w2 false 10).readMask ∧
    decode ({ ctrl := 0x0500 } : Request).ctrl = .ok (.toalias 5) ∧
    ({ ctrl := 0x05F0, d := 9 } : Request).ctrl &&& (Instr.toalias 5).readMask =
      ({ ctrl := 0x0500 } : Request).ctrl &&& (Instr.toalias 5).readMask := by decide

/-- The width a code names, for the hypothesis `names`; the five codes and the first that names no width, for `FGET`
and for `FSET` with `E` 0 and 1; and `TOALIAS` with two width codes. -/
theorem witness_WidthCodesNameTheFiveWidths :
    (∀ w, w = Width.w15 ↔
      ((0x33 : Half).extractLsb' 4 3 = 0 ∧ w.bits = 1 ∧ mask w = 0x1) ∨
      ((0x33 : Half).extractLsb' 4 3 = 1 ∧ w.bits = 2 ∧ mask w = 0x3) ∨
      ((0x33 : Half).extractLsb' 4 3 = 2 ∧ w.bits = 4 ∧ mask w = 0xF) ∨
      ((0x33 : Half).extractLsb' 4 3 = 3 ∧ w.bits = 15 ∧ mask w = 0x7FFF) ∨
      ((0x33 : Half).extractLsb' 4 3 = 4 ∧ w.bits = 16 ∧ mask w = 0xFFFF)) ∧
    (∀ n ∈ [0x03, 0x13, 0x23, 0x33, 0x43, 0x53], (BitVec.ofNat 16 n).extractLsb' 13 3 = 0 ∧
      (BitVec.ofNat 16 n).extractLsb' 0 4 = 3) ∧ 5 ≤ ((0x0053 : Half).extractLsb' 4 3).toNat ∧
    (∀ n ∈ [0x04, 0x84, 0x44, 0xC4, 0x54], (BitVec.ofNat 16 n).extractLsb' 13 3 = 0 ∧
      (BitVec.ofNat 16 n).extractLsb' 0 4 = 4) ∧
    (0x84 : Half).getLsbD 7 = true ∧ (0x04 : Half).getLsbD 7 = false ∧
    (0x70 : Half).extractLsb' 0 4 ≠ 3 ∧ (0x70 : Half).extractLsb' 0 4 ≠ 4 ∧
    (0x00 : Half) &&& 0xFF8F = 0x70 &&& 0xFF8F := by
  refine ⟨fun w => by cases w <;> decide, ?_⟩
  decide

theorem witness_RequestsSeeNoState :
    ({ st { d := 7 } with draws := 5, sched := [.dma 0] }).cfg = (st { d := 7 }).cfg ∧
    ({ st { d := 7 } with draws := 5, sched := [.dma 0] }).inp = (st { d := 7 }).inp := by decide

/-- Operands of the seven requests that meet their preconditions. -/
def goodRequests : List (Instr × State) :=
  [(.toalias 5, st { a := 0x40020014 }), (.fromalias, st { a := 0x42400294 }), (.pinlookup, st { a := 0x424002A4 }),
   (.fget .w4 28, st { d := 0x12345678 }), (.fset .w2 false 30, st { a := 0x40020000, v := 3 }),
   (.bitwr 15, st { a := 0x40020014, v := 1 }), (.srenc 15, st { a := 0x40020018, v := 1 })]

/-- Every instruction completes on them: the hypothesis `exec i s = .next t` of the frame statements. -/
theorem goodRequests_complete : ∀ p ∈ goodRequests, (out? (exec p.1 p.2)).isSome = true := by decide

theorem next_of_out {o : Host.Outcome State Fault Refusal} (h : (out? o).isSome = true) : ∃ t, o = .next t := by
  cases o with
  | next t => exact ⟨t, rfl⟩
  | fault f => cases h
  | refused r => cases h

theorem witness_RequestsChangeOnlyTheOutputPorts : ∀ p ∈ goodRequests, ∃ t, exec p.1 p.2 = .next t :=
  fun p hp => next_of_out (goodRequests_complete p hp)

theorem witness_UnsetOutputPortsHoldZero : ∀ p ∈ goodRequests, ∃ t, exec p.1 p.2 = .next t :=
  witness_RequestsChangeOnlyTheOutputPorts

/-- One request for each of the seven names. -/
theorem witness_FaultsNameTheViolatedPrecondition :
    (st {}).cfg.RangesOk ∧
    [(Instr.toalias 0, 0x40100000), (.bitwr 0, 0x40000002), (.fromalias, 0x44000000), (.pinlookup, 0x42000002),
      (.pinlookup, 0x42400000), (.pinlookup, 0x42400240), (.fget .w2 31, 0)].map
        (fun p => fault? (exec p.1 (st { a := p.2 }))) =
      [some (.preconditionViolation .toalias .addrOutsideRegion),
       some (.preconditionViolation .bitwr .addrMisaligned),
       some (.preconditionViolation .fromalias .aliasOutsideWindow),
       some (.preconditionViolation .pinlookup .aliasMisaligned),
       some (.preconditionViolation .pinlookup .notDataArray),
       some (.preconditionViolation .pinlookup .pinOutOfRange),
       some (.preconditionViolation .fget .fieldOutOfWord)] := by decide

theorem witness_MeaningsAgreeWithBbfp :
    decode (st { ctrl := 0x0500, a := 0x40020014 }).inp.ctrl = .ok (.toalias 5) := by decide

/-- A handler whose next line is a request that reads the name bound before it, and the same with an ILLEGAL word. -/
def asker (ctrl : Half) : Agent :=
  { code := [.line (.request (.user 1) ctrl (.y (.user 0)) (.lit 0) (.lit 0) (.lit 0))]
    responses := [(.user 0, { y := 0x42400294 })] }

def asking (ctrl : Half) : State :=
  { State.reset with handlers := [asker ctrl], sched := [.handler 0, .foreground] }

/-- The state the step runs that request in. -/
def asked (c : Half) : State :=
  { ({ asking c with sched := [.foreground] } : State).setAgent (.handler 0) { asker c with code := [] } with
    inp := requestOf (asking c).cfg (asking c).draws (asker c) c (.y (.user 0)) (.lit 0) (.lit 0) (.lit 0)
    draws := if Line.unbound (asker c) (.request (.user 1) c (.y (.user 0)) (.lit 0) (.lit 0) (.lit 0))
      then (asking c).draws + 1 else (asking c).draws }

/-- A request that answers, and one whose precondition fails. -/
theorem witness_StepRunsTheDecodedRequest :
    (checkProgram (asking 0) = none ∧ checkProgram (asking 1) = none) ∧
      (∀ c, (asking c).sched = .handler 0 :: [.foreground] ∧
        (asking c).agent? (.handler 0) = some (asker c) ∧ (asker c).stopped = none ∧ (asker c).running = none ∧
        (asker c).conf = none ∧
        (asker c).code = .line (.request (.user 1) c (.y (.user 0)) (.lit 0) (.lit 0) (.lit 0)) :: []) ∧
      decode 0 = .ok (.toalias 0) ∧ decode 1 = .ok .fromalias ∧ (∃ t, exec .fromalias (asked 1) = .next t) ∧
      fault? (exec (.toalias 0) (asked 0)) = some (.preconditionViolation .toalias .addrOutsideRegion) := by
  refine ⟨by decide, fun _ => ⟨rfl, rfl, rfl, rfl, rfl, rfl⟩, by decide, by decide, next_of_out ?_, ?_⟩
  · decide
  · decide

theorem witness_IllegalRequestsWriteNothing :
    checkProgram (asking 7) = none ∧ (asking 7).sched = .handler 0 :: [.foreground] ∧
      (asking 7).agent? (.handler 0) = some (asker 7) ∧ (asker 7).stopped = none ∧ (asker 7).running = none ∧
      (asker 7).conf = none ∧
      (asker 7).code = .line (.request (.user 1) 7 (.y (.user 0)) (.lit 0) (.lit 0) (.lit 0)) :: [] ∧
      decode 7 = .error .reservedOp := ⟨by decide, rfl, rfl, rfl, rfl, rfl, rfl, rfl⟩

/-- What the checks find no row for has none. -/
theorem no_row (reg : Addr) (sh : BitVec 5) (h : fieldAt Params.default reg sh .w2 = none) :
    ∀ base ∈ Params.default.gpioBases, ∀ f ∈ layout,
      ¬ (f.width = .w2 ∧ reg = BitVec.ofNat 32 (base + Params.default.off f.reg) ∧
        ∃ i < f.count, sh.toNat = f.first + f.stride * i) := by
  rintro base hb f hf ⟨hw, rfl, i, hi, hsh⟩
  have := fieldAt_row (P := Params.default) (by decide) hb hf hi hsh
  rw [hw, ← ofNat_regAddr, h] at this
  cases this

/-- For each clause in its order, a first sequence that meets its hypotheses, with the row of R21 it names. -/
theorem witness_IllFormedProgramsAreRefused :
    Params.default.Valid ∧
    (∀ q : AccessSeq, (prog (.seq q) 1).foreground.conf = none ∧ (prog (.seq q) 1).foreground.code = .seq q :: []) ∧
    -- WF1: shift 1 starts no field of width 2 (get), nor is 0x40022400 in a listed block (set)
    (∀ x ∈ [((0x40020000 : Addr), (1 : BitVec 5)), (0x40022400, 0)], ∀ base ∈ Params.default.gpioBases,
      ∀ f ∈ layout, ¬ (f.width = .w2 ∧ x.1 = BitVec.ofNat 32 (base + Params.default.off f.reg) ∧
        ∃ i < f.count, x.2.toNat = f.first + f.stride * i)) ∧
    -- WF2, WF3, R23, WF4 and WF7: input data, a placeholder, a set bit, the output data, an alternate function
    (∀ x ∈ [(Reg.idr, Width.w1, (15 : BitVec 5), Access.readOnly), (.odr, .w16, 16, .none), (.bsrr, .w1, 31, .writeOnly),
        (.odr, .w1, 15, .readWrite), (.afrh, .w4, 28, .readWrite)],
      ∃ f ∈ layout, f.reg = x.1 ∧ f.width = x.2.1 ∧ f.access = x.2.2.2 ∧
        ∃ i < f.count, x.2.2.1.toNat = f.first + f.stride * i) ∧
    0x40022000 ∈ Params.default.gpioBases ∧ Params.default.valid.lookup (Reg.afrh, (28 : BitVec 5).toNat) ≠ some 0x1FFF ∧
    -- WF5: an unlisted block and a listed one; WF5, WF1, WF6: an address that is no alias of IDR or ODR below pin 16
    (0x40022400 : Addr).toNat ∉ Params.default.gpioBases ∧ (0x40020000 : Addr).toNat ∈ Params.default.gpioBases ∧
    (∀ r ∈ [Reg.idr, .odr], ¬ ∃ base ∈ Params.default.gpioBases, ∃ p < 16,
      (0x42410024 : Addr).toNat = Params.default.ab + (base + Params.default.off r - Params.default.rb) * 32 + p * 4) := by
  refine ⟨by decide, fun q => ⟨rfl, rfl⟩, fun x hx => no_row x.1 x.2 ?_, by decide, by decide, by decide, by decide,
    by decide, by decide⟩
  simp only [List.mem_cons, List.not_mem_nil, or_false] at hx
  rcases hx with rfl | rfl <;> decide

/-- A sequence that is refused on its own, in the middle of a handler's program, and in a `configure`. -/
theorem witness_IllFormedProgramsAreRefused_anywhere :
    refusal? (step { State.resetOf Params.default with foreground := { code := [.seq (.get .w1 0x40020018 0)] } }) =
      some (.illFormedProgram .wf3) ∧
    ({ code := [.seq (.pinOf 0x424002A4), .seq (.get .w1 0x40020018 0)] } : Agent) ∈
      ({ State.reset with handlers := [{ code := [.seq (.pinOf 0x424002A4), .seq (.get .w1 0x40020018 0)] }] } : State).agents ∧
    AccessSeq.set .w2 false 0x40022400 4 0 0 ∈
      configureSteps Params.default ⟨0x40022400, 2, 0, 0, 0, 0, none⟩ := by decide

/-- For each clause in its order, control words and operands that meet its hypotheses: a handle of MODER bit 9 and of
ODR bit 16, one of an address outside the region, and one that is no `TOALIAS`; a mask for a field that lists none; a set
bit and a placeholder read, and a shift that starts no field; the aliases of a bit of MODER and of a set bit read; input
data and a width-1 field written. -/
theorem witness_IllFormedLinesAreRefused :
    Params.default.Valid ∧ decode 0x0900 = .ok (.toalias 9) ∧ decode 0x1000 = .ok (.toalias 16) ∧
    decode 0x0002 = .ok .pinlookup ∧
    decode 0x0001 = .ok .fromalias ∧ decode 0x0105 = .ok (.bitwr 1) ∧ decode 0x0006 = .ok (.srenc 0) ∧
    ((9 : BitVec 5).toNat < 16 ∧ ∀ base ∈ Params.default.gpioBases, ∀ x ∈ [0x40020000, 0x48020810],
      BitVec.ofNat 32 x ≠ BitVec.ofNat 32 (base + Params.default.off .idr) ∧
      BitVec.ofNat 32 x ≠ BitVec.ofNat 32 (base + Params.default.off .odr)) ∧ ¬ (16 : BitVec 5).toNat < 16 ∧
    (∀ y ∈ [0x42400024, 0x42400300], 0x42000000 ≤ y ∧ y < 0x42000000 + 32 * 0x100000 ∧ y % 4 = 0) ∧
    (∀ base ∈ Params.default.gpioBases, ∀ f ∈ layout,
      ¬ (f.width = .w1 ∧ 0x40000000 + (0x42400024 - 0x42000000) / 128 * 4 = base + Params.default.off f.reg ∧
        ∃ i < f.count, (0x42400024 - 0x42000000) / 4 % 32 = f.first + f.stride * i)) ∧
    0x40000000 + (0x42400300 - 0x42000000) / 128 * 4 = 0x40020000 + Params.default.off .bsrr ∧
    (0x42400300 - 0x42000000) / 4 % 32 = (0 : BitVec 5).toNat ∧
    decode 0x04A4 = .ok (.fset .w4 true 4) ∧ Params.default.valid.lookup (Reg.afrh, (4 : BitVec 5).toNat) ≠ some 0x1FFF ∧
    decode 0x0003 = .ok (.fget .w1 0) ∧ decode 0x1043 = .ok (.fget .w16 16) ∧ decode 0x0113 = .ok (.fget .w2 1) ∧
    decode 0x0005 = .ok (.bitwr 0) ∧ decode 0x0004 = .ok (.fset .w1 false 0) ∧ decode 0x1044 = .ok (.fset .w16 false 16) ∧
    (∀ x ∈ [(Reg.afrh, Width.w4, (4 : BitVec 5), Access.readWrite), (.bsrr, .w1, 0, .writeOnly), (.odr, .w16, 16, .none),
        (.idr, .w1, 0, .readOnly), (.odr, .w1, 0, .readWrite)],
      ∃ f ∈ layout, f.reg = x.1 ∧ f.width = x.2.1 ∧ f.access = x.2.2.2 ∧
        ∃ i < f.count, x.2.2.1.toNat = f.first + f.stride * i) ∧
    ¬ (0x42000000 ≤ (0x40020000 : Addr).toNat ∧ (0x40020000 : Addr).toNat < 0x42000000 + 32 * 0x100000) ∧
    (∀ base ∈ Params.default.gpioBases, ∀ f ∈ layout,
      ¬ (f.width = .w2 ∧ (0x40020000 : Addr) = BitVec.ofNat 32 (base + Params.default.off f.reg) ∧
        ∃ i < f.count, (1 : BitVec 5).toNat = f.first + f.stride * i)) :=
  have none1 := no_row 0x40020000 1 (by decide)
  by and_intros <;> first | exact none1 | decide

/-- A program whose first item is an access sequence and whose second a request over what the sequence named. -/
def afterSequence (q : AccessSeq) (c : Half) (a d : Operand) : State :=
  { State.reset with
    foreground := { code := [.seq q, .line (.request (.user 0) c a d (.lit 0) (.lit 0))] }
    sched := [.foreground] }

/-- For each clause in its order: a bit of OTYPER read; a field of MODER and a bit of ODR got, then a shift that starts no
field of width 2 and the placeholder of ODR. -/
theorem witness_NamesOfSequencesAreChecked :
    Params.default.Valid ∧ 0x40020000 ∈ Params.default.gpioBases ∧
    (∀ q c a d, (afterSequence q c a d).foreground.conf = none ∧ (afterSequence q c a d).foreground.code =
      .seq q :: .line (.request (.user 0) c a d (.lit 0) (.lit 0)) :: []) ∧
    (∀ x ∈ [(Reg.otyper, Width.w1, (9 : BitVec 5), Access.readWrite), (.moder, .w2, 0, .readWrite), (.odr, .w1, 0, .readWrite),
        (.odr, .w16, 16, .none)],
      ∃ f ∈ layout, f.reg = x.1 ∧ f.width = x.2.1 ∧ f.access = x.2.2.2 ∧
        ∃ i < f.count, x.2.2.1.toNat = f.first + f.stride * i) ∧
    decode 0x0002 = .ok .pinlookup ∧ decode 0x0113 = .ok (.fget .w2 1) ∧ decode 0x1043 = .ok (.fget .w16 16) ∧
    (∀ base ∈ Params.default.gpioBases, ∀ f ∈ layout,
      ¬ (f.width = .w2 ∧ (0x40020000 : Addr) = BitVec.ofNat 32 (base + Params.default.off f.reg) ∧
        ∃ i < f.count, (1 : BitVec 5).toNat = f.first + f.stride * i)) :=
  ⟨by decide, by decide, fun _ _ _ _ => ⟨rfl, rfl⟩, by decide, by decide, by decide, by decide, no_row _ _ (by decide)⟩

/-- The names a sequence binds are followed (R68, R70): the alias formed for a bit of OTYPER is no handle, the one for
IDR pin 9 is; the word got of MODER has no field of width 1; after `configure` the text gives no `$r`. -/
theorem test_sequence_names_checked :
    (∀ x ∈ [((0x40020004 : Addr), some (Refusal.illFormedProgram .wf6)), (0x40020010, none)],
      refusal? (step (afterSequence (.readBit x.1 9) 0x0002 (.y .r) (.lit 0))) = x.2) ∧
    refusal? (step (afterSequence (.get .w2 0x40020000 0) 0x0003 (.lit 0) (.word .t))) =
      some (.illFormedProgram .wf1) ∧
    checkAgent Params.default
      { code := [.configure ⟨0x40020000, 2, 0, 0, 0, 0, none⟩, .line (.stWe .r)] } = some .wf1 := by decide

/-- An agent whose bare line faults, one whose sequence does, and one that has stopped. -/
theorem witness_FaultStopsItsAgentForGood :
    let ag : Agent := { code := [.line (.request (.user 0) 1 (.lit 0) (.lit 0) (.lit 0) (.lit 0))] }
    let locking : Agent := { running := some ⟨.setBit 0x4002001C 0 1, [.stWe .r]⟩
                             responses := [(.r, { y := 0x42400380, wd := 1, ok := true, we := true })] }
    let s : State := { State.reset with handlers := [ag, locking, { ag with stopped := some .bsrrBothBits }]
                                        sched := [.handler 0] }
    checkProgram s = none ∧ s.sched = .handler 0 :: [] ∧ s.agent? (.handler 0) = some ag ∧ ag.stopped = none ∧
    ag.running = none ∧ ag.conf = none ∧
    ag.code = .line (.request (.user 0) 1 (.lit 0) (.lit 0) (.lit 0) (.lit 0)) :: [] ∧
    fault? (runLine (.handler 0) ag (.request (.user 0) 1 (.lit 0) (.lit 0) (.lit 0) (.lit 0)) s) =
      some (.preconditionViolation .fromalias .aliasOutsideWindow) ∧
    s.agent? (.handler 1) = some locking ∧ locking.running = some ⟨.setBit 0x4002001C 0 1, .stWe .r :: []⟩ ∧
    fault? (runLine (.handler 1) locking (.stWe .r) s) = some (.stuck .aliasWriteLckr) ∧
    s.agent? (.handler 2) = some { ag with stopped := some .bsrrBothBits } ∧
    (out? (step s)).isSome = true := by decide

/-- A step of a write, one turn of a multi-bit set from its end. -/
def holding : State :=
  { State.reset with
    handlers :=
      [{ running := some ⟨.set .w2 false 0x40020400 2 2 0, [.stWe .r]⟩
         responses := [(.r, { y := 0x40020400, wd := 0x288, ok := true, we := true })] }]
    foreground := { code := [.seq (.get .w2 0x40020400 0)] }
    sched := [.handler 0, .foreground] }

theorem witness_NoStepChangesTheConfiguration : ∃ t, step holding = .next t :=
  next_of_out (by decide)

theorem witness_OnlyTheScheduledAgentMoves :
    holding.sched = .handler 0 :: [.foreground] ∧ ∃ t, step holding = .next t := ⟨rfl, next_of_out (by decide)⟩

/-- The first and the last word of the region. -/
theorem witness_ReverseAfterForwardIsIdentity : ∀ a ∈ [0x40000000, 0x400FFFFC],
    (stAt a).cfg.RangesOk ∧ (stAt a).cfg.rb ≤ (stAt a).inp.a.toNat ∧
    (stAt a).inp.a.toNat < (stAt a).cfg.rb + (stAt a).cfg.rs ∧
    (stAt a).inp.a.toNat % 4 = 0 := by decide

theorem witness_ForwardAfterReverseIsIdentity : ∀ a ∈ [0x42000000, 0x43FFFFFC],
    (stAt a).cfg.RangesOk ∧ (stAt a).cfg.ab ≤ (stAt a).inp.a.toNat ∧
    (stAt a).inp.a.toNat < (stAt a).cfg.ab + 32 * (stAt a).cfg.rs ∧
    (stAt a).inp.a.toNat % 4 = 0 := by decide

/-- Two bits of one word. -/
theorem witness_DistinctBitsHaveDistinctAliases :
    (st { a := 0x40020014 }).cfg.RangesOk ∧ (st { a := 0x40020014 }).cfg = (st { a := 0x40020014 }).cfg ∧
    (∃ t, exec (.toalias 0) (st { a := 0x40020014 }) = .next t) ∧
    (∃ t, exec (.toalias 31) (st { a := 0x40020014 }) = .next t) ∧
    ((st { a := 0x40020014 }).inp.a, (0 : BitVec 5)) ≠ ((st { a := 0x40020014 }).inp.a, 31) :=
  ⟨by decide, rfl, next_of_out (by decide), next_of_out (by decide), by decide⟩

/-- An IDR handle of the first block of the region, an ODR handle of a listed block. -/
theorem witness_ReverseLookupInvertsTheHandle :
    ∀ x ∈ [(0x40000000, Reg.idr, (0 : BitVec 5)), (0x40022000, .odr, 15)],
      (st {}).cfg.Valid ∧ x.1 % (st {}).cfg.bs = 0 ∧ (st {}).cfg.rb ≤ x.1 ∧
      x.1 + (st {}).cfg.bs ≤ (st {}).cfg.rb + (st {}).cfg.rs ∧ (x.2.1 = .idr ∨ x.2.1 = .odr) ∧ x.2.2.toNat < 16 ∧
      (st { a := BitVec.ofNat 32 (x.1 + Params.default.off x.2.1) }).inp.a =
        BitVec.ofNat 32 (x.1 + (st {}).cfg.off x.2.1) := by decide

/-- Width 16 at shift 16, its greatest value; width 4 with an enumeration check. -/
theorem witness_FieldRoundTrip :
    (16 : BitVec 5).toNat + Width.bits .w16 ≤ 32 ∧ (st { v := 0xFFFF }).inp.v.toNat ≤ 2 ^ Width.bits .w16 - 1 ∧
    (28 : BitVec 5).toNat + Width.bits .w4 ≤ 32 ∧ (st { v := 15, m := 0x8000 }).inp.v.toNat ≤ 2 ^ Width.bits .w4 - 1 ∧
    (st { v := 15, m := 0x8000 }).inp.m.getLsbD (st { v := 15, m := 0x8000 }).inp.v.toNat = true := by decide

theorem witness_SiblingFieldsArePreserved :
    ∃ t, exec (.fset .w15 false 17) (st { d := 0xFFFFFFFF, v := 0 }) = .next t := next_of_out (by decide)

/-- A rejected value of each operation, and a response that asks for no write. -/
theorem witness_RejectionChangesNothing :
    (∀ p ∈ [(Instr.fset .w2 false 0, (4 : Half)), (.bitwr 5, 2), (.srenc 15, 2)],
      (out? (exec p.1 (st { a := 0x40020014, v := p.2 }))).map (·.ok) = some false) ∧
    ({ responses := [(.r, { y := 0x40020000 })] } : Agent).response? .r = some { y := 0x40020000 } ∧
    ({ y := 0x40020000 } : Response).we = false := by decide

theorem witness_EnumerationCheckReadsTheMarkedCode :
    (28 : BitVec 5).toNat + Width.bits .w4 ≤ 32 ∧
    ∀ k, k < 2 ^ Width.bits .w2 → (0xFFF0 : Half).getLsbD k = (st { m := 0 }).inp.m.getLsbD k := by decide

theorem witness_WordsAreLittleEndian : Memory.wf (im [(0x40020014, 0x8001)]).img := by decide

theorem witness_WordWritesReadBack :
    Memory.wf (im [(0x40020014, 0x8001)]).img ∧ Memory.wf (im [(0x40020014, 0x8001), (0x40020000, 0)]).img ∧
    (im [(0x40020014, 0x8001)]).img = (im [(0x40020014, 0x8001), (0x40020000, 0)]).img := by decide

theorem witness_RegisterWordsReadAndWrite :
    (im []).cfg.Valid ∧ Memory.wf (im []).img ∧ 0x40022000 ∈ (im []).cfg.gpioBases ∧ Reg.afrh ≠ .idr ∧
    Reg.afrh ≠ .bsrr ∧ Reg.afrh ≠ .lckr := by decide

/-- LCKR, which is read and not written, and the last word of a block, in which there is no register. -/
theorem witness_AliasReadReturnsOneBit :
    (im []).cfg.Valid ∧ 0x40020000 ∈ (im []).cfg.gpioBases ∧
    ∀ o ∈ [0x1C, 0x3FC], o % 4 = 0 ∧ o < (im []).cfg.bs ∧ o ≠ (im []).cfg.off .bsrr := by decide

/-- The last bit of ODR that is no placeholder, and the last bit of the last word of a block. -/
theorem witness_AliasWriteChangesOneBit :
    (im []).cfg.Valid ∧ Memory.wf (im []).img ∧ 0x40022000 ∈ (im []).cfg.gpioBases ∧
    ∀ x ∈ [(0x14, (15 : BitVec 5)), (0x3FC, 31)], x.1 % 4 = 0 ∧ x.1 < (im []).cfg.bs ∧ x.1 ≠ (im []).cfg.off .idr ∧
      x.1 ≠ (im []).cfg.off .bsrr ∧ x.1 ≠ (im []).cfg.off .lckr ∧
      ∀ r ∈ Reg.all, x.1 = (im []).cfg.off r → (placeholderMask r).getLsbD x.2.toNat = false := by decide

/-- A halfword access; a misaligned one; the first placeholder bit; one past the last block; the first and the last
alias word. -/
theorem witness_UnadmittedAccessesAreStuck :
    (im []).cfg.Valid ∧ 2 ≠ 4 ∧ (0x40020002 : Addr).toNat % 4 ≠ 0 ∧ 0x40020000 ∈ (im []).cfg.gpioBases ∧
    16 ≤ (16 : BitVec 5).toNat ∧
    (∀ n ∈ [0x4001FFFC, 0x40022400], (BitVec.ofNat 32 n).toNat % 4 = 0 ∧
      ¬ ((im []).cfg.ab ≤ (BitVec.ofNat 32 n).toNat ∧ (BitVec.ofNat 32 n).toNat < (im []).cfg.ab + 32 * (im []).cfg.rs) ∧
      ∀ base ∈ (im []).cfg.gpioBases, (BitVec.ofNat 32 n).toNat < base ∨ base + (im []).cfg.bs ≤ (BitVec.ofNat 32 n).toNat) ∧
    (∀ n ∈ [0x42000000, 0x43FFFFFC], (BitVec.ofNat 32 n).toNat % 4 = 0 ∧ (im []).cfg.ab ≤ (BitVec.ofNat 32 n).toNat ∧
      (BitVec.ofNat 32 n).toNat < (im []).cfg.ab + 32 * (im []).cfg.rs ∧
      ∀ base ∈ (im []).cfg.gpioBases, (im []).cfg.rb + ((BitVec.ofNat 32 n).toNat - (im []).cfg.ab) / 128 * 4 < base ∨
        base + (im []).cfg.bs ≤ (im []).cfg.rb + ((BitVec.ofNat 32 n).toNat - (im []).cfg.ab) / 128 * 4) := by decide

/-- Both bits of pin 15; the set bit of pin 15 beside the reset bit of pin 0. -/
theorem witness_SetResetWriteDrivesThePins :
    (im []).cfg.Valid ∧ Memory.wf (im []).img ∧ 0x40020000 ∈ (im []).cfg.gpioBases ∧
    (15 < 16 ∧ (0x80008000 : Word).getLsbD 15 = true ∧ (0x80008000 : Word).getLsbD (16 + 15) = true) ∧
    (∀ i, i < 16 → ¬ ((0x00018000 : Word).getLsbD i = true ∧ (0x00018000 : Word).getLsbD (16 + i) = true)) := by
  decide

theorem witness_WriteOnlyAndInputReadsAreDrawn :
    (im []).cfg.Valid ∧ 0x40022000 ∈ (im []).cfg.gpioBases := by decide

/-- ODR bit 15, with the word read from the image. -/
theorem witness_WidthOnePathsAgree :
    let s : State := { im [(0x40020014, 0x8001)] with
      inp := { a := 0x40020014, d := 0x8001, v := 1 } }
    s.cfg.Valid ∧ Memory.wf s.img ∧ 0x40020000 ∈ s.cfg.gpioBases ∧ Reg.odr ≠ .idr ∧ Reg.odr ≠ .bsrr ∧
    Reg.odr ≠ .lckr ∧ (placeholderMask .odr).getLsbD (15 : BitVec 5).toNat = false ∧ (1 : Half).toNat ≤ 1 ∧
    s.inp.v = 1 ∧ s.inp.a = BitVec.ofNat 32 (0x40020000 + s.cfg.off .odr) ∧ s.inp.d = Memory.word s.img s.inp.a ∧
    (out? (exec (.bitwr 15) s)).isSome = true ∧ (out? (exec (.fset .w1 false 15) s)).isSome = true := by decide

theorem witness_SetThenResetLeavesThePinLow :
    let s : State := { im [(0x40020014, 0x8001)] with inp := { a := 0x40020018 } }
    s.cfg.Valid ∧ Memory.wf s.img ∧ 0x40020000 ∈ s.cfg.gpioBases ∧
    s.inp.a = BitVec.ofNat 32 (0x40020000 + s.cfg.off .bsrr) ∧
    (out? (exec (.srenc 15) { s with inp := { s.inp with v := 1 } })).isSome = true ∧
    (out? (exec (.srenc 15) { s with inp := { s.inp with v := 0 } })).isSome = true := by decide

def twoPins : State := im [(0x40020014, 0x8000)]

/-- Pins 0 and 15, one set, one reset. -/
theorem witness_SingleBitWritersCommute :
    (twoPins.cfg.Valid ∧ Memory.wf twoPins.img ∧ 0x40020000 ∈ twoPins.cfg.gpioBases ∧ (1 : Half).toNat ≤ 1 ∧
      (0 : Half).toNat ≤ 1 ∧ Reg.odr ≠ .idr ∧ Reg.odr ≠ .bsrr ∧ Reg.odr ≠ .lckr ∧ (0 : BitVec 5) ≠ 15 ∧
      (placeholderMask .odr).getLsbD (0 : BitVec 5).toNat = false ∧
      (placeholderMask .odr).getLsbD (15 : BitVec 5).toNat = false) ∧
    ∀ p ∈ [((0 : BitVec 5), (1 : Half)), (15, 0)],
      (∃ t, exec (.bitwr p.1) { twoPins with
        inp := { twoPins.inp with a := BitVec.ofNat 32 (0x40020000 + twoPins.cfg.off .odr), v := p.2 } } = .next t) ∧
      (∃ t, exec (.srenc p.1) { twoPins with
        inp := { twoPins.inp with a := BitVec.ofNat 32 (0x40020000 + twoPins.cfg.off .bsrr), v := p.2 } } =
          .next t) := by
  refine ⟨by decide, fun p hp => ?_⟩
  simp only [List.mem_cons, List.not_mem_nil, or_false] at hp
  rcases hp with rfl | rfl
  · exact ⟨next_of_out (by decide), next_of_out (by decide)⟩
  · exact ⟨next_of_out (by decide), next_of_out (by decide)⟩

theorem witness_SecondEventOverwritesTheWord :
    ∃ ag, holding.Inv ∧ holding.sched = .handler 0 :: [.foreground] ∧ holding.agent? (.handler 0) = some ag ∧
      ag.stopped = none ∧ ag.running = some ⟨.set .w2 false 0x40020400 2 2 0, [.stWe .r]⟩ ∧
      ag.response? .r = some { y := 0x40020400, wd := 0x288, ok := true, we := true } ∧
      ({ y := 0x40020400, wd := 0x288, ok := true, we := true } : Response).we = true :=
  ⟨_, by decide, rfl, rfl, rfl, rfl, rfl, rfl⟩

/-- A handler that sets an output by the set/reset protocol while the foreground is inside a multi-bit set of
MODER. -/
def guarded : State :=
  { State.reset with
    foreground := { running := some ⟨.set .w2 false 0x40020400 0 1 0, [.stWe .r]⟩
                    responses := [(.r, { y := 0x40020400, wd := 1, ok := true, we := true })] }
    handlers := [{ code := [.seq (.writeSetReset ⟨0x40020400, 3, .output⟩ 1)] }]
    sched := [.handler 0] }

/-- The foreground stores a response where its text does not say; the handler writes nothing. -/
def anywhere : State :=
  { State.reset with
    foreground := { code := [.line (.st 4 (.word (.user 0)) (.wd (.user 0)))] }
    handlers := [{ code := [.seq (.pinOf 0x424002BC)] }]
    sched := [.handler 0] }

/-- The rule holds, with a word being set and a step that answers: a word that the text gives, and any word. -/
theorem witness_BootRuleProtectsTheWordsBeingSet :
    (guarded.Inv ∧ guarded.bootRule (.handler 0) ∧ (∃ t, step guarded = .next t) ∧ guarded.sched = .handler 0 :: [] ∧
    guarded.foreground ∈ guarded.agents ∧ some 0x40020400 ∈ guarded.foreground.sets guarded.cfg ∧
    (0x40020400 : Addr).toNat % 4 = 0) ∧
    anywhere.Inv ∧ anywhere.bootRule (.handler 0) ∧ (∃ t, step anywhere = .next t) ∧ anywhere.sched = .handler 0 :: [] ∧
    anywhere.foreground ∈ anywhere.agents ∧ none ∈ anywhere.foreground.sets anywhere.cfg :=
  ⟨⟨by decide, by decide, next_of_out (by decide), rfl, by decide, by decide, rfl⟩,
    by decide, by decide, next_of_out (by decide), rfl, by decide, by decide⟩

/-- The foreground's program and the first handler's. -/
def agents2 (f h : List Item) : State := { State.reset with foreground := { code := f }, handlers := [{ code := h }] }

/-- The lines of R50's set of a two-bit field, with no read of its own names. -/
def setLines (reg : Addr) (sh : BitVec 5) (v : Half) : List Item :=
  [.line (.ld (.user 0) 4 (.lit reg)),
   .line (.request (.user 1) (encode (.fset .w2 false sh)) (.lit reg) (.word (.user 0)) (.lit v) (.lit 0)),
   .line (.stWe (.user 1))]

/-- Program P4 (spec/95_test_vectors.md) breaks the boot rule, as it stands there and as access sequences. -/
theorem test_boot_rule_P4 :
    ¬ (agents2 (setLines 0x40020400 0 1) (setLines 0x40020400 2 2)).bootRule (.handler 0) ∧
    ¬ (agents2 (setLines 0x40020400 0 1) [.seq (.set .w2 false 0x40020400 2 2 0)]).bootRule (.handler 0) := by
  constructor <;> decide

/-- A DMA engine's plain store to the word breaks it, and an alias write of one of its bits; a store to another
word does not (R107, R34). -/
theorem test_boot_rule_store :
    ¬ (agents2 (setLines 0x40020400 0 1) [.line (.st 4 (.lit 0x42408004) (.lit 0))]).bootRule (.handler 0) ∧
    ¬ ({ agents2 (setLines 0x40020400 0 1) [] with dmas := [{ code := [.line (.st 4 (.lit 0x40020400) (.lit 0))] }] } : State).bootRule (.dma 0) ∧
    (agents2 (setLines 0x40020400 0 1) [.line (.st 4 (.lit 0x40020404) (.lit 0))]).bootRule (.handler 0) := by
  refine ⟨?_, ?_, ?_⟩ <;> decide

/-- An agent's own set breaks it, and a store through an address that the text does not give (R107). -/
theorem test_boot_rule_own_set :
    ¬ (agents2 [] (setLines 0x40020404 0 1)).bootRule (.handler 0) ∧
    ¬ (agents2 (setLines 0x40020400 0 1) [.line (.st 4 (.word (.user 3)) (.lit 0))]).bootRule (.handler 0) := by
  constructor <;> decide

/-- Program P5 meets both rules; an alias write of the pin that the foreground sets by set/reset does not (R111). -/
theorem test_usage_rules_P5 :
    let f : List Item := [.line (.request (.user 0) 0x0306 (.lit 0x40020018) (.lit 0) (.lit 1) (.lit 0)), .line (.stWe (.user 0))]
    let h (c : Half) : List Item := [.line (.request (.user 1) c (.lit 0x40020014) (.lit 0) (.lit 1) (.lit 0)), .line (.stWe (.user 1))]
    (agents2 f (h 0x0405)).bootRule (.handler 0) ∧ (agents2 f (h 0x0405)).sharedOutputRule 0 ∧
    ¬ (agents2 f (h 0x0305)).sharedOutputRule 0 := by
  refine ⟨?_, ?_, ?_⟩ <;> decide

/-! Each access sequence, as the foreground's whole program, with the turns it takes. -/

/-- An output-data bit and an input-data bit. -/
theorem witness_ReadBitSequenceReturnsTheBit : ∀ r ∈ [Reg.odr, .idr],
    let s := prog (.seq (.readBit (BitVec.ofNat 32 (0x40020000 + Params.default.off r)) 15)) 3
    s.Inv ∧ s.sched = .foreground :: .foreground :: .foreground :: [] ∧ s.foreground.stopped = none ∧
    s.foreground.running = none ∧ s.foreground.conf = none ∧
    s.foreground.code = .seq (.readBit (BitVec.ofNat 32 (0x40020000 + s.cfg.off r)) 15) :: [] ∧
    0x40020000 ∈ s.cfg.gpioBases := by decide

/-- An alternate-function field and an input-data bit. -/
theorem witness_GetSequenceReturnsTheField : ∀ x ∈ [(Reg.afrh, Width.w4, (28 : BitVec 5)), (.idr, .w1, 15)],
    let s := prog (.seq (.get x.2.1 (BitVec.ofNat 32 (0x40022000 + Params.default.off x.1)) x.2.2)) 3
    s.Inv ∧ s.sched = .foreground :: .foreground :: .foreground :: [] ∧ s.foreground.stopped = none ∧
    s.foreground.running = none ∧ s.foreground.conf = none ∧
    s.foreground.code = .seq (.get x.2.1 (BitVec.ofNat 32 (0x40022000 + s.cfg.off x.1)) x.2.2) :: [] ∧
    0x40022000 ∈ s.cfg.gpioBases := by decide

/-- A value that is written and the first that is not. -/
theorem witness_SetBitSequenceWritesOnce : ∀ n ∈ [1, 2],
    (prog (.seq (.setBit (BitVec.ofNat 32 (0x40020000 + Params.default.off .otyper)) 15 (BitVec.ofNat 16 n))) 3).Inv ∧
    (prog (.seq (.setBit (BitVec.ofNat 32 (0x40020000 + Params.default.off .otyper)) 15 (BitVec.ofNat 16 n))) 3).sched =
      .foreground :: .foreground :: .foreground :: [] ∧
    0x40020000 ∈ Params.default.gpioBases ∧ Reg.otyper ≠ .bsrr ∧ Reg.otyper ≠ .lckr ∧ ((BitVec.ofNat 16 n).toNat ≤ 1 ∨ 1 < (BitVec.ofNat 16 n).toNat) := by
  decide

/-- The greatest value that fits its field and the first that does not. -/
theorem witness_UninterruptedSetReplacesItsField : ∀ n ∈ [3, 4],
    (prog (.seq (.set .w2 false 0x40020000 30 (BitVec.ofNat 16 n) 0)) 4).Inv ∧
    (prog (.seq (.set .w2 false 0x40020000 30 (BitVec.ofNat 16 n) 0)) 4).sched =
      .foreground :: .foreground :: .foreground :: .foreground :: [] ∧
    (prog (.seq (.set .w2 false 0x40020000 30 (BitVec.ofNat 16 n) 0)) 4).foreground.code =
      .seq (.set .w2 false 0x40020000 30 (BitVec.ofNat 16 n) 0) :: [] := by decide

/-- Both protocols, pin 15, a value that is written and the first that is not. -/
theorem witness_OutputSequencesDriveTheirPin : ∀ n ∈ [1, 2],
    ∀ q ∈ [AccessSeq.writeDirect ⟨0x40020000, 15, .output⟩ (BitVec.ofNat 16 n), .writeSetReset ⟨0x40020000, 15, .output⟩ (BitVec.ofNat 16 n)],
      (prog (.seq q) 3).Inv ∧ (prog (.seq q) 3).sched = .foreground :: .foreground :: .foreground :: [] ∧
      (prog (.seq q) 3).foreground.code = .seq q :: [] ∧
      (q = .writeDirect ⟨0x40020000, 15, .output⟩ (BitVec.ofNat 16 n) ∨ q = .writeSetReset ⟨0x40020000, 15, .output⟩ (BitVec.ofNat 16 n)) := by decide

/-- The handle of ODR pin 15 looked up and read, the handle of IDR pin 0 read. -/
theorem witness_HandleSequencesReachTheirPin :
    ∀ x ∈ [(AccessSeq.pinOf 0x424002BC, Reg.odr, (15 : BitVec 5), (0x424002BC : Addr)),
        (.readOutput 0x424002BC, .odr, 15, 0x424002BC), (.readInput 0x42400200, .idr, 0, 0x42400200)],
      (prog (.seq x.1) 2).Inv ∧ (prog (.seq x.1) 2).sched = .foreground :: .foreground :: [] ∧
      (prog (.seq x.1) 2).foreground.code = .seq x.1 :: [] ∧ 0x40020000 ∈ Params.default.gpioBases ∧
      x.2.2.1.toNat < 16 ∧
      x.2.2.2 = BitVec.ofNat 32 (Params.default.ab +
        (0x40020000 + Params.default.off x.2.1 - Params.default.rb) * 32 + x.2.2.1.toNat * 4) := by decide

theorem witness_ConfigureStepsInOrder :
    (⟨0x40020000, 8, 0, 2, 0, 0, some 7⟩ : PinConfig).alternate = some 7 ∧ Params.default.valid = [] := by decide

/-- A set inside a `configure` whose value was rejected, at its last line; a `configure` that has failed, and one at
its end. -/
theorem witness_ConfigureIsNotTransactional :
    let ag : Agent := { running := some ⟨.set .w2 false 0x40020000 10 4 0, [.stWe .r]⟩
                        conf := some ⟨[.setBit 0x40020004 5 0], true⟩, responses := [(.r, { y := 0x40020000 })] }
    let ended : Agent := { conf := some ⟨[], false⟩ }
    let s : State := { State.reset with foreground := ag, handlers := [ended], sched := [.foreground] }
    s.Inv ∧ s.sched = .foreground :: [] ∧ s.agent? .foreground = some ag ∧ ag.stopped = none ∧
    ag.conf = some ⟨[.setBit 0x40020004 5 0], true⟩ ∧
    ag.running = some ⟨.set .w2 false 0x40020000 10 4 0, [.stWe .r]⟩ ∧ ag.response? .r = some { y := 0x40020000 } ∧
    ({ y := 0x40020000 } : Response).ok = false ∧ ({ y := 0x40020000 } : Response).we = false ∧
    s.agent? (.handler 0) = some ended ∧ ended.conf = some ⟨[], false⟩ ∧ ended.stopped = none ∧ ended.running = none ∧
    checkProgram { s with sched := [.handler 0] } = none ∧ (out? (step s)).isSome = true := by decide

theorem witness_ResetMeetsTheInvariant : Params.default.Valid ∧ Memory.wf Params.default.regReset := by decide

theorem witness_ResetImageIsTheParameter :
    Params.default.Valid ∧ 0x40020000 ∈ Params.default.gpioBases ∧ Reg.moder ≠ .idr ∧ Reg.moder ≠ .bsrr := by decide

theorem witness_StepsKeepTheInvariant : holding.Inv ∧ ∃ t, step holding = .next t :=
  ⟨by decide, next_of_out (by decide)⟩

theorem witness_NoStepChangesUnwritableState : guarded.Inv ∧ ∃ t, step guarded = .next t :=
  ⟨by decide, next_of_out (by decide)⟩

theorem guarded_sequencesOnly : ∀ ag ∈ guarded.agents, ag.sequencesOnly := by
  intro ag hag i hi
  simp only [State.agents, guarded, State.reset, State.resetOf, List.mem_cons, List.append_nil, List.not_mem_nil,
    or_false] at hag
  rcases hag with rfl | rfl
  · cases hi
  · simp only [List.mem_cons, List.not_mem_nil, or_false] at hi
    subst hi; trivial

/-- The set of a lock bit, at its conditional write. -/
def locked : State :=
  { State.reset with
    foreground := { running := some ⟨.setBit 0x4002001C 0 1, [.stWe .r]⟩
                    responses := [(.r, { y := 0x42400380, wd := 1, ok := true, we := true })] }
    sched := [.foreground] }

/-- A program that goes on, and one whose scheduled agent stops. -/
theorem witness_WellFormedProgramsMeetEveryPrecondition :
    guarded.Inv ∧ (∀ ag ∈ guarded.agents, ag.sequencesOnly) ∧ locked.Inv ∧
    (∀ ag ∈ locked.agents, ag.sequencesOnly) ∧
    locked.agent? .foreground = some locked.foreground ∧
    (∃ t new, step locked = .next t ∧ t.agent? .foreground = some new ∧ new.stopped ≠ locked.foreground.stopped) := by
  refine ⟨by decide, guarded_sequencesOnly, by decide, ?_, rfl, _, _, rfl, rfl, by decide⟩
  intro ag hag i hi
  simp only [State.agents, locked, State.reset, State.resetOf, List.mem_cons, List.append_nil, List.not_mem_nil,
    or_false] at hag
  subst hag
  cases hi

end Sys2Proof.Tests
end

/-! Proofs: a step of a bare request line, and the invariant at reset and along every step. -/

namespace Sys2Proof.Machine

/-! ### A bare request line -/

/-- A draw is used up or not, and nothing else of the state is touched. -/
theorem State.drawIf_eq (s : State) (b : Bool) :
    s.drawIf b = { s with draws := if b then s.draws + 1 else s.draws } := by
  cases b <;> rfl

/-- The ports and the count of draws are no part of an agent. -/
theorem State.setAgent_ports (s : State) (id : AgentId) (ag : Agent) (q : Request) (r : Response) (n : Nat) :
    State.setAgent { s with inp := q, out := r, draws := n } id ag =
      { s.setAgent id ag with inp := q, out := r, draws := n } := by
  cases id <;> rfl

/-- A meaning leaves the agents as they are. -/
theorem exec_agent? {i : Instr} {s t : State} (h : exec i s = .next t) (id : AgentId) : t.agent? id = s.agent? id := by
  obtain ⟨r, -, rfl⟩ := exec_eq_next_iff.1 h
  exact State.agent?_congr rfl rfl rfl id

section
variable {id : AgentId} {ag : Agent} {dst : Name} {ctrl : Half} {a d : Operand} {v m : NarrowOperand} {i : Instr}
  {s : State}

/-- The state in which a request line presents its request: the request on the input ports, and a draw used up where
the line reads a name that is not bound. -/
def presented (ag : Agent) (dst : Name) (ctrl : Half) (a d : Operand) (v m : NarrowOperand) (s : State) : State :=
  { s with
    inp := requestOf s.cfg s.draws ag ctrl a d v m
    draws := if Line.unbound ag (.request dst ctrl a d v m) then s.draws + 1 else s.draws }

/-- Presenting a request that decodes is running its instruction (R65). -/
theorem present_presented (hd : decode ctrl = .ok i) :
    present (presented ag dst ctrl a d v m s) = exec i (presented ag dst ctrl a d v m s) := by
  simp only [present, presented, requestOf, hd]

/-- A request line whose instruction answers names the response on the output ports (R69). -/
theorem runLine_request_of_exec_next {t : State} (hd : decode ctrl = .ok i)
    (h : exec i (presented ag dst ctrl a d v m s) = .next t) :
    runLine id ag (.request dst ctrl a d v m) s = .next (nameResponse id dst t) := by
  have hp := (present_presented hd).trans h
  unfold presented at hp
  simp only [runLine, State.drawIf_eq, hp]

/-- A request line whose instruction faults, faults. -/
theorem runLine_request_of_exec_fault {f : Fault} (hd : decode ctrl = .ok i)
    (h : exec i (presented ag dst ctrl a d v m s) = .fault f) :
    runLine id ag (.request dst ctrl a d v m) s = .fault f := by
  have hp := (present_presented hd).trans h
  unfold presented at hp
  simp only [runLine, State.drawIf_eq, hp]

end

section
variable {s : State} {id : AgentId} {rest : List AgentId} {ag : Agent} {l : Line} {code : List Item}

/-- The step of an agent between sequences whose next line goes on is that line. -/
theorem step_bareLine_next {t : State} (hc : checkProgram s = none) (hs : s.sched = id :: rest)
    (ha : s.agent? id = some ag) (hst : ag.stopped = none) (hr : ag.running = none) (hcf : ag.conf = none)
    (hcode : ag.code = .line l :: code)
    (h : runLine id ag l (State.setAgent { s with sched := rest } id { ag with code := code }) = .next t) :
    step s = .next t := by
  rw [step_eq_agentTurn hc hs ha hst, agentTurn_line hr hcf hcode, h]

/-- The step of an agent between sequences whose next line faults stops the agent at that line (R94). -/
theorem step_bareLine_fault {f : Fault} (hc : checkProgram s = none) (hs : s.sched = id :: rest)
    (ha : s.agent? id = some ag) (hst : ag.stopped = none) (hr : ag.running = none) (hcf : ag.conf = none)
    (hcode : ag.code = .line l :: code)
    (h : runLine id ag l (State.setAgent { s with sched := rest } id { ag with code := code }) = .fault f) :
    step s = .next (faulted id ag l f { s with sched := rest }) := by
  rw [step_eq_agentTurn hc hs ha hst, agentTurn_line hr hcf hcode, h]

end

/-- What a request that faults leaves, field by field (R78, R94). -/
theorem faulted_request {s : State} {id : AgentId} {ag : Agent} (ha : s.agent? id = some ag) (dst : Name)
    (ctrl : Half) (a d : Operand) (v m : NarrowOperand) (f : Fault) :
    faulted id ag (.request dst ctrl a d v m) f s =
      { s.setAgent id { ag with stopped := some f } with
        inp := requestOf s.cfg s.draws ag ctrl a d v m, out := freeResponse s.draws 0, draws := s.draws + 1 } := by
  have ha' : State.agent? { s with inp := requestOf s.cfg s.draws ag ctrl a d v m, out := freeResponse s.draws 0
                                   draws := s.draws + 1 } id = some ag :=
    (State.agent?_congr rfl rfl rfl id).trans ha
  simp only [faulted, State.stop, State.mapAgent_of_some ha', State.setAgent_ports]

/-- Settles O19: the line is run in the state that presents its request, and `exec` of the decoded request says
whether the line goes on or faults. -/
theorem stepRunsTheDecodedRequest : Obligations.StepRunsTheDecodedRequest := by
  intro s u id rest ag dst ctrl a d v m code i hc hs ha hst hr hcf hcode hd hu
  have hag : State.agent? { s with sched := rest } id = some ag :=
    (State.agent?_congr rfl rfl rfl id).trans ha
  have hpre : u = presented ag dst ctrl a d v m
      (State.setAgent { s with sched := rest } id { ag with code := code }) := by
    simp only [hu, presented, State.setAgent_cfg, State.setAgent_draws]
  refine ⟨fun t ht => ?_, fun f hf => ?_, exec_ne_refused i u⟩
  · have hnew : t.agent? id = some { ag with code := code } := by
      rw [exec_agent? ht, hpre]
      exact (State.agent?_congr rfl rfl rfl id).trans (State.agent?_setAgent_same hag _)
    rw [step_bareLine_next hc hs ha hst hr hcf hcode (runLine_request_of_exec_next hd (hpre ▸ ht)),
      nameResponse, State.mapAgent_of_some hnew]
  · rw [step_bareLine_fault hc hs ha hst hr hcf hcode (runLine_request_of_exec_fault hd (hpre ▸ hf)),
      faulted_request hag]

/-! ### The invariant -/

/-- The invariant, agent by agent. -/
theorem State.inv_iff {s : State} :
    s.Inv ↔ s.cfg.Valid ∧ Memory.wf s.img ∧ ∀ id ag, s.agent? id = some ag → AgentOk s.cfg ag := by
  refine and_congr_right fun _ => and_congr_right fun _ => ?_
  rw [checkProgram_eq_none]
  constructor
  · rintro ⟨hc, hm⟩ id ag ha
    exact ⟨hc id ag ha, hm ag (State.mem_agents.2 ⟨id, ha⟩)⟩
  · intro h
    refine ⟨fun id ag ha => (h id ag ha).1, fun ag hag => ?_⟩
    obtain ⟨id, ha⟩ := State.mem_agents.1 hag
    exact (h id ag ha).2

/-- A turn keeps what the invariant says of every agent: of its own (`agentTurn_ok`), and of the others, which it
leaves as they are. -/
theorem agentTurn_keeps_agentOk {id : AgentId} {ag : Agent} {s t : State} (ha : s.agent? id = some ag)
    (hok : ∀ id' old, s.agent? id' = some old → AgentOk s.cfg old) (h : agentTurn id ag s = .next t)
    {id' : AgentId} {new : Agent} (hn : t.agent? id' = some new) : AgentOk s.cfg new := by
  by_cases e : id = id'
  · subst e
    obtain ⟨mine, hm, hmine⟩ := agentTurn_ok ha (hok id ag ha) h
    obtain rfl := Option.some.inj (hm.symm.trans hn)
    exact hmine
  · exact hok id' new (((agentTurn_frame h).others id' e).symm.trans hn)

/-- A step keeps what the invariant says of every agent. -/
theorem step_keeps_agentOk {s t : State} (hok : ∀ id ag, s.agent? id = some ag → AgentOk s.cfg ag)
    (h : step s = .next t) {id : AgentId} {new : Agent} (hn : t.agent? id = some new) : AgentOk s.cfg new := by
  obtain ⟨-, ⟨-, rfl⟩ | ⟨id', rest, -, hturn⟩⟩ := step_next h
  · exact hok id new hn
  · have hok' : ∀ id ag, State.agent? { s with sched := rest } id = some ag → AgentOk s.cfg ag :=
      fun id ag ha => hok id ag ((State.agent?_congr rfl rfl rfl id).symm.trans ha)
    obtain ⟨-, rfl⟩ | ⟨ag, ha, -, hag⟩ := turn_next hturn
    · exact hok' id new hn
    · exact agentTurn_keeps_agentOk ha hok' hag hn

/-- Settles O58: a step keeps the parameters, writes at most one word of the image, and keeps what the invariant says
of each agent. -/
theorem stepsKeepTheInvariant : Obligations.StepsKeepTheInvariant := by
  intro s t hi h
  obtain ⟨hv, hm, hok⟩ := State.inv_iff.1 hi
  obtain ⟨hcfg, himg⟩ := step_image hv h
  refine State.inv_iff.2 ⟨hcfg ▸ hv, himg.wf hm, fun id ag ha => ?_⟩
  rw [hcfg]
  exact step_keeps_agentOk hok h ha

/-- The one agent there is at reset is a foreground without a program (log entry 1). -/
theorem State.mem_agents_resetOf {P : Params} {ag : Agent} : ag ∈ (State.resetOf P).agents ↔ ag = {} := by
  simp [State.agents, State.resetOf]

/-- An agent without a program meets the invariant's part on agents. -/
theorem agentOk_empty (P : Params) : AgentOk P {} := by
  refine ⟨rfl, fun run hr => ?_⟩
  cases hr

/-- Reset meets the invariant where the parameters are valid and the reset image is canonical (R4, R105). -/
theorem State.resetOf_inv {P : Params} (hv : P.Valid) (hm : Memory.wf P.regReset) : (State.resetOf P).Inv := by
  refine State.inv_iff.2 ⟨hv, hm, fun id ag ha => ?_⟩
  obtain rfl := State.mem_agents_resetOf.1 (State.mem_agents.2 ⟨id, ha⟩)
  exact agentOk_empty P

/-- At reset no agent has anything to run, and none has stopped. -/
theorem State.resetOf_final (P : Params) : (State.resetOf P).final := by
  intro ag hag
  obtain rfl := State.mem_agents_resetOf.1 hag
  exact ⟨⟨rfl, rfl, rfl⟩, rfl⟩

/-- R4's default parameters meet R4's constraints and log entry 5's. -/
theorem Params.default_valid : Params.default.Valid := by decide

/-- Settles O56: the clause on any valid parameters, and the default ones as a case of it. -/
theorem resetMeetsTheInvariant : Obligations.ResetMeetsTheInvariant :=
  ⟨State.resetOf_inv Params.default_valid (by decide),
    fun P hv hm => ⟨State.resetOf_inv hv hm, State.resetOf_final P⟩⟩

end Sys2Proof.Machine

/-! Proofs: what a request reads and changes, the ports it leaves at 0, the parameters along a step, and word writes. -/

namespace Sys2Proof.Machine

/-! ### The responses, inverted

`toaliasResponse_ok` is the like of these for `TOALIAS`. -/

section
variable {P : Params} {q : Request} {x : Response}

/-- A `FROMALIAS` that answers sets `Y` and `Z` alone (R72). -/
theorem fromaliasResponse_ok (h : fromaliasResponse P q = .ok x) :
    inWindow P q.a ∧ wordAligned q.a ∧ x = Response.done { y := aliasReg P q.a, z := aliasBit P q.a } := by
  unfold fromaliasResponse at h
  split at h
  · cases h
  · rename_i hw
    split at h
    · cases h
    · rename_i ha
      exact ⟨not_not.1 hw, not_not.1 ha, (Except.ok.inj h).symm⟩

/-- A `PINLOOKUP` that answers sets `Y` and `Z` alone (R73). -/
theorem pinlookupResponse_ok (h : pinlookupResponse P q = .ok x) :
    x = Response.done { y := blockBase P (aliasReg P q.a), z := aliasBit P q.a } := by
  simp only [pinlookupResponse] at h
  split at h
  · cases h
  · split at h
    · cases h
    · split at h
      · cases h
      · split at h
        · cases h
        · exact (Except.ok.inj h).symm

/-- An `FGET` that answers sets `RV` alone (R80). -/
theorem fgetResponse_ok {w : Width} {sh : BitVec 5} (h : fgetResponse w sh q = .ok x) :
    inWord sh w ∧ x = Response.done { rv := ((q.d >>> sh.toNat) &&& mask w).extractLsb' 0 16 } := by
  unfold fgetResponse at h
  split at h
  · cases h
  · rename_i hw
    exact ⟨not_not.1 hw, (Except.ok.inj h).symm⟩

end

/-- A set, accepted or rejected, sets neither `Z` nor `RV` (R17). -/
theorem accepted_or_rejected_unset (c : Prop) [Decidable c] (y wd wd' : Word) :
    (if c then Response.accepted { y := y, wd := wd } else Response.rejected { y := y, wd := wd' }).z = 0 ∧
    (if c then Response.accepted { y := y, wd := wd } else Response.rejected { y := y, wd := wd' }).rv = 0 := by
  split
  · exact ⟨rfl, rfl⟩
  · exact ⟨rfl, rfl⟩

/-- Settles O16: the response is never the ILLEGAL one, and each operation's is built from the ports its rule sets. -/
theorem unsetOutputPortsHoldZero : Obligations.UnsetOutputPortsHoldZero := by
  intro i s t h
  obtain ⟨r, hr, rfl⟩ := exec_eq_next_iff.1 h
  refine ⟨respond_ill hr, ?_⟩
  cases i with
  | toalias b =>
    obtain ⟨-, -, rfl⟩ := toaliasResponse_ok hr
    exact ⟨rfl, rfl, rfl, rfl⟩
  | fromalias =>
    obtain ⟨-, -, rfl⟩ := fromaliasResponse_ok hr
    exact ⟨rfl, rfl, rfl⟩
  | pinlookup =>
    obtain rfl := pinlookupResponse_ok hr
    exact ⟨rfl, rfl, rfl⟩
  | fget w sh =>
    obtain ⟨-, rfl⟩ := fgetResponse_ok hr
    exact ⟨rfl, rfl, rfl, rfl⟩
  | fset w e sh =>
    obtain ⟨hw, -⟩ := fsetResponse_ok hr
    obtain rfl := Except.ok.inj ((fsetResponse_eq hw).symm.trans hr)
    exact accepted_or_rejected_unset ..
  | bitwr b =>
    obtain ⟨hreg, hal, -⟩ := bitwrResponse_ok hr
    obtain rfl := Except.ok.inj ((bitwrResponse_eq hreg hal).symm.trans hr)
    exact accepted_or_rejected_unset ..
  | srenc p =>
    obtain ⟨hp, -, -⟩ := srencResponse_ok hr
    obtain rfl := Except.ok.inj ((srencResponse_eq hp).symm.trans hr)
    exact accepted_or_rejected_unset ..

/-! ### `exec` and `bbfp` through `respond` -/

section
variable {P : Params} {q : Request} {i : Instr} {s : State} {r : Response} {op : Op} {name : Precondition}

/-- `bbfp` answers with the response of the decoded request. -/
theorem bbfp_eq_response_iff (hd : decode q.ctrl = .ok i) : bbfp P q = .response r ↔ respond P i q = .ok r := by
  simp only [bbfp, hd]
  cases respond P i q with
  | ok x => simp
  | error c => simp

/-- `bbfp` is PRE with the precondition the decoded request violates. -/
theorem bbfp_eq_pre_iff (hd : decode q.ctrl = .ok i) :
    bbfp P q = .pre op name ↔ respond P i q = .error name ∧ op = i.op := by
  simp only [bbfp, hd]
  cases respond P i q with
  | ok x => simp
  | error c => simp [and_comm, eq_comm]

/-- A meaning puts `r` on the output ports exactly where `r` is its response. -/
theorem exec_eq_next_out_iff : exec i s = .next { s with out := r } ↔ respond s.cfg i s.inp = .ok r := by
  refine exec_eq_next_iff.trans ⟨?_, fun hr => ⟨r, hr, rfl⟩⟩
  rintro ⟨x, hx, he⟩
  obtain rfl : r = x := congrArg State.out he
  exact hx

/-- A meaning faults with a violated precondition of its own operation. -/
theorem exec_eq_preconditionViolation_iff :
    exec i s = .fault (.preconditionViolation op name) ↔ respond s.cfg i s.inp = .error name ∧ op = i.op := by
  refine exec_eq_fault_iff.trans ⟨?_, fun ⟨hr, ho⟩ => ⟨name, hr, by rw [ho]⟩⟩
  rintro ⟨c, hc, he⟩
  obtain ⟨rfl, rfl⟩ := Fault.preconditionViolation.inj he
  exact ⟨hc, rfl⟩

end

/-- Settles O18: both read off the response of the decoded request, or the precondition it violates. -/
theorem meaningsAgreeWithBbfp : Obligations.MeaningsAgreeWithBbfp := fun _ _ hd =>
  ⟨fun _ => (bbfp_eq_response_iff hd).trans exec_eq_next_out_iff.symm,
    fun _ _ => (bbfp_eq_pre_iff hd).trans exec_eq_preconditionViolation_iff.symm⟩

/-- Settles O14: the response, or the violated precondition, is a function of the parameters and the request. -/
theorem requestsSeeNoState : Obligations.RequestsSeeNoState := by
  intro i s s' hcfg hinp
  have hresp : respond s'.cfg i s'.inp = respond s.cfg i s.inp := by rw [hcfg, hinp]
  cases hr : respond s.cfg i s.inp with
  | ok r => exact .inl ⟨r, exec_eq_next_out_iff.2 hr, exec_eq_next_out_iff.2 (hresp.trans hr)⟩
  | error c => exact .inr ⟨_, exec_eq_fault_iff.2 ⟨c, hr, rfl⟩, exec_eq_fault_iff.2 ⟨c, hresp.trans hr, rfl⟩⟩

/-- Settles O15: the next state is the state before with a response on its output ports. -/
theorem requestsChangeOnlyTheOutputPorts : Obligations.RequestsChangeOnlyTheOutputPorts := by
  intro i s t h
  obtain ⟨r, -, rfl⟩ := exec_eq_next_iff.1 h
  exact ⟨rfl, rfl, rfl, rfl, rfl, rfl, rfl, rfl, rfl, fun _ => rfl⟩

/-! ### The parameters and the image -/

/-- Settles O25: a turn keeps the parameters, and so does a step in which no agent has a turn (`step_frame`). -/
theorem noStepChangesTheConfiguration : Obligations.NoStepChangesTheConfiguration := fun _ _ h =>
  (step_frame h).1

/-- Settles O36: the laws of a word write on a canonical image, and extensionality of canonical images. -/
theorem wordWritesReadBack : Obligations.WordWritesReadBack := fun _ _ a w hm hn =>
  ⟨Memory.setWord_wf hm a w, Memory.word_setWord_same hm a w, fun _ hx => Memory.get_setWord_outside hm a w hx,
    Memory.ext hm hn⟩

end Sys2Proof.Machine

/-! Proofs: what no step writes (IDR, BSRR, LCKR, placeholder bits, bytes outside the blocks), and the agents that a
step leaves alone. -/

namespace Sys2Proof.Machine

variable {P : Params}

/-- The parameters of a state that meets the invariant are valid (R4). -/
theorem State.Inv.valid {s : State} (hi : s.Inv) : s.cfg.Valid := hi.1

/-- Its image is canonical. -/
theorem State.Inv.wf {s : State} (hi : s.Inv) : Memory.wf s.img := hi.2.1

/-- Its program is well-formed (R68). -/
theorem State.Inv.checked {s : State} (hi : s.Inv) : checkProgram s = none := hi.2.2.1

/-- Registers of listed blocks at one address are one register of one block. -/
theorem regAddr_inj (hv : P.Valid) {base base' : Nat} (hb : base ∈ P.gpioBases) (hb' : base' ∈ P.gpioBases)
    {r r' : Reg} (e : regAddr P (BitVec.ofNat 32 base) r = regAddr P (BitVec.ofNat 32 base') r') :
    base = base' ∧ r = r' := by
  obtain ⟨hblock, hreg⟩ := locate_regAddr hv hb r
  obtain ⟨hblock', hreg'⟩ := locate_regAddr hv hb' r'
  rw [e] at hblock hreg
  obtain rfl := Option.some.inj (hblock.symm.trans hblock')
  exact ⟨rfl, Option.some.inj (hreg.symm.trans hreg')⟩

/-! ### Where a write may go -/

section
variable {m : List Host.Cell} {base : Nat} {a : Addr} {w : Word}

/-- A word that a write may change is an aligned one of its block. -/
theorem WordWritten.inBlock (hv : P.Valid) (hb : base ∈ P.gpioBases) (h : WordWritten P m base a w) :
    a.toNat % 4 = 0 ∧ base ≤ a.toNat ∧ a.toNat + 4 ≤ base + P.bs := by
  cases h with
  | register r hidr hbsrr hlckr ha hw =>
    subst ha
    have haddr := regAddr_toNat hv hb r
    have hoff := Params.off_lt hv r
    exact ⟨regAddr_aligned hv hb r, by omega, by omega⟩
  | spare hblock h4 hr =>
    obtain ⟨-, hlo, hhi⟩ := blockOf_some hblock
    obtain ⟨hn, -, hal⟩ := block_offset hv.1 hb (Nat.zero_mod 4) (Params.bs_pos hv.1)
    have hbs := Params.bs_mod_four hv.1
    exact ⟨h4, hlo, by omega⟩

/-- A write leaves every byte outside the listed blocks (R54). -/
theorem WordWritten.keeps_get (hv : P.Valid) (hm : Memory.wf m) (hb : base ∈ P.gpioBases)
    (h : WordWritten P m base a w) {x : Nat} (hx : ∀ base ∈ P.gpioBases, x < base ∨ base + P.bs ≤ x) :
    Memory.get (Memory.setWord m a w) x = Memory.get m x := by
  obtain ⟨-, hlo, hhi⟩ := h.inBlock hv hb
  have hout := hx base hb
  exact Memory.get_setWord_outside hm a w (by omega)

/-- A write leaves the placeholder bits of every register (R32), and the words of IDR, BSRR and LCKR (R36, R39, R40). -/
theorem WordWritten.keeps_word (hv : P.Valid) (hm : Memory.wf m) (hb : base ∈ P.gpioBases)
    (h : WordWritten P m base a w) {base' : Nat} (hb' : base' ∈ P.gpioBases) (r : Reg) :
    Memory.word (Memory.setWord m a w) (regAddr P (BitVec.ofNat 32 base') r) &&& placeholderMask r =
        Memory.word m (regAddr P (BitVec.ofNat 32 base') r) &&& placeholderMask r ∧
      ((r = .idr ∨ r = .bsrr ∨ r = .lckr) →
        Memory.word (Memory.setWord m a w) (regAddr P (BitVec.ofNat 32 base') r) =
          Memory.word m (regAddr P (BitVec.ofNat 32 base') r)) := by
  have other : a ≠ regAddr P (BitVec.ofNat 32 base') r →
      Memory.word (Memory.setWord m a w) (regAddr P (BitVec.ofNat 32 base') r) =
        Memory.word m (regAddr P (BitVec.ofNat 32 base') r) :=
    Memory.word_setWord_other hm w (h.inBlock hv hb).1 (regAddr_aligned hv hb' r)
  by_cases e : a = regAddr P (BitVec.ofNat 32 base') r
  · cases h with
    | register r' hidr hbsrr hlckr ha hw =>
      obtain ⟨-, rfl⟩ := regAddr_inj hv hb hb' (ha.symm.trans e)
      rw [← e, Memory.word_setWord_same hm]
      refine ⟨hw, ?_⟩
      rintro (rfl | rfl | rfl)
      · exact absurd rfl hidr
      · exact absurd rfl hbsrr
      · exact absurd rfl hlckr
    | spare hblock h4 hr => exact absurd e (spare_ne hv hblock hr hb' r)
  · rw [other e]
    exact ⟨rfl, fun _ => rfl⟩

end

/-- A step of an agent that runs access sequences alone leaves every byte that lies in no register of a listed
block. -/
theorem step_sequences_keeps_get {s t : State} {id : AgentId} {rest : List AgentId} {ag : Agent} (hi : s.Inv)
    (hs : s.sched = id :: rest) (ha : s.agent? id = some ag) (hso : ag.sequencesOnly) (ht : step s = .next t) {x : Nat}
    (hx : ∀ base ∈ s.cfg.gpioBases, ∀ r : Reg, x < base + s.cfg.off r ∨ base + s.cfg.off r + 4 ≤ x) :
    Memory.get t.img x = Memory.get s.img x := by
  obtain himg | ⟨a, w, ⟨q, -, hword, hcheck⟩, -, himg⟩ := step_sequences_image hi hs ha hso ht
  · rw [himg]
  · obtain ⟨base, r, hb, rfl⟩ := seqWord_reg hi.valid hcheck hword
    have haddr := regAddr_toNat hi.valid hb r
    have hout := hx base hb r
    rw [himg, Memory.get_setWord_outside hi.wf _ _ (by omega)]

/-- Settles O59: a step writes one word at most, that of a register that may be written or of a word of a block without
a register (`step_image`); an agent that runs access sequences writes registers only. -/
theorem noStepChangesUnwritableState : Obligations.NoStepChangesUnwritableState := by
  intro s t hi ht
  obtain ⟨-, himg⟩ := step_image hi.valid ht
  refine ⟨fun base hb r => ?_, fun x hx => ?_, fun _ _ _ _ hs ha hso hx => step_sequences_keeps_get hi hs ha hso ht hx⟩
  · rw [ofNat_regAddr]
    obtain himg | ⟨base', a, w, hb', himg, hw⟩ := himg
    · rw [himg]
      exact ⟨rfl, fun _ => rfl⟩
    · rw [himg]
      exact hw.keeps_word hi.valid hi.wf hb' hb r
  · obtain himg | ⟨base', a, w, hb', himg, hw⟩ := himg
    · rw [himg]
    · rw [himg]
      exact hw.keeps_get hi.valid hi.wf hb' hx

/-- Settles O26: what a step leaves of the schedule and of the agents that are not at its head (`step_frame`). -/
theorem onlyTheScheduledAgentMoves : Obligations.OnlyTheScheduledAgentMoves := by
  intro s t id rest hs ht
  obtain ⟨hsched, hothers⟩ := (step_frame ht).2 id rest hs
  exact ⟨hsched, fun id' hne => hothers id' hne.symm⟩

end Sys2Proof.Machine

/-! Proofs: the bus, access by access: what a read answers, what a write stores, and the accesses that have no step. -/

namespace Sys2Proof.Machine

variable {P : Params} {s : State}

/-- Settles O35: the bit of a word is the bit of its byte (`Memory.word_getLsbD`), and a word written is read back. -/
theorem wordsAreLittleEndian : Obligations.WordsAreLittleEndian := by
  intro m a w hm b hb
  refine ⟨Memory.word_getLsbD m a hb, ?_⟩
  rw [← Memory.word_getLsbD _ a hb, Memory.word_setWord_same hm]

/-! ### Register words -/

/-- The word a write stores, bit by bit (R32). -/
theorem storedWord_getLsbD (r : Reg) (old v : Word) {b : Nat} (hb : b < 32) :
    (storedWord r old v).getLsbD b = if (placeholderMask r).getLsbD b then old.getLsbD b else v.getLsbD b := by
  simp only [storedWord, BitVec.getLsbD_or, BitVec.getLsbD_and, BitVec.getLsbD_not, hb, decide_true, Bool.true_and]
  cases (placeholderMask r).getLsbD b
  · simp
  · simp

/-- What a write stores does not depend on the placeholder bits of its data (R32). -/
theorem storedWord_congr {r : Reg} {v v' : Word} (h : v' &&& ~~~placeholderMask r = v &&& ~~~placeholderMask r)
    (old : Word) : storedWord r old v' = storedWord r old v := by
  unfold storedWord
  rw [h]

/-- A word all of whose bits are drawn is the word drawn. -/
theorem mixDrawn_allOnes (x free : Word) : mixDrawn x free (BitVec.allOnes 32) = free := by
  refine BitVec.eq_of_getLsbD_eq fun b hb => ?_
  rw [mixDrawn_getLsbD, BitVec.getLsbD_allOnes, decide_eq_true hb, if_pos rfl]

/-- A word none of whose bits is drawn is the word itself. -/
theorem mixDrawn_zero (x free : Word) : mixDrawn x free 0 = x := if_pos rfl

/-- A key just bound is found. -/
theorem lookup_bindKey_same {κ α : Type} [DecidableEq κ] (k : κ) (x : α) (l : List (κ × α)) :
    (bindKey k x l).lookup k = some x := by
  simp [bindKey]

/-- The pin levels of a block are those last drawn by a read of its IDR (R20, R39). -/
theorem afterRead_idr_lookup (s : State) (base : Nat) :
    (afterRead s base (some .idr)).pinIn.lookup base = some ((Config.freeWord s.draws).extractLsb' 0 16) :=
  lookup_bindKey_same ..

/-- Settles O37: a read mixes the word of the image with the draw under the placeholder mask, a write stores the data
beside that mask. -/
theorem registerWordsReadAndWrite : Obligations.RegisterWordsReadAndWrite := by
  intro s base r v hv hm hb hidr hbsrr
  have haddr := regAddr_toNat hv hb r
  rw [ofNat_regAddr]
  refine ⟨⟨_, _, memRead_regAddr hv hb r, afterRead_of_ne s base (by simpa using hidr), fun b hbit => ?_⟩, fun hlckr =>
    ⟨_, memWrite_regAddr hv hb hidr hbsrr hlckr v, fun b hbit hp => ?_, fun v' hv' => ?_, fun x hx => ?_⟩⟩
  · rw [regWord, mixDrawn_getLsbD, drawMask_of_ne hidr hbsrr]
  · rw [Memory.word_setWord_same hm, storedWord_getLsbD r _ v hbit, hp]
    rfl
  · rw [memWrite_regAddr hv hb hidr hbsrr hlckr, storedWord_congr hv']
  · exact Memory.get_setWord_outside hm _ _ (by omega)

/-- Settles O42: a read of BSRR or of IDR draws every bit, and keeps IDR's draw as the levels of the block's pins. -/
theorem writeOnlyAndInputReadsAreDrawn : Obligations.WriteOnlyAndInputReadsAreDrawn := by
  intro s base hv hb
  have hread : ∀ r, drawMask (some r) = BitVec.allOnes 32 → memRead s 4 (regAddr s.cfg (BitVec.ofNat 32 base) r) =
      .ok (Config.freeWord s.draws, afterRead s base (some r)) := by
    intro r hr
    rw [memRead_regAddr hv hb, regWord, hr, mixDrawn_allOnes]
  simp only [ofNat_regAddr]
  refine ⟨?_, _, hread .idr rfl, afterRead_idr_lookup s base, rfl, fun v => ?_⟩
  · rw [hread .bsrr rfl, afterRead_of_ne s base (by decide)]
  · simp only [memWrite, target_regAddr hv hb, writeReg]

/-! ### Aliases of the words of a block -/

/-- The alias of a bit of an aligned word of a listed block, as a number. -/
theorem ofNat_aliasOf_offset (h : P.RangesOk) {base o : Nat} (hb : base ∈ P.gpioBases) (h4 : o % 4 = 0) (ho : o < P.bs)
    (b : BitVec 5) : BitVec.ofNat 32 (P.ab + (base + o - P.rb) * 32 + b.toNat * 4) =
      aliasOf P (BitVec.ofNat 32 (base + o)) b := by
  simp only [aliasOf, (block_offset h hb h4 ho).1]

section
variable {a : Addr} {base : Nat} (hv : s.cfg.Valid) (hb : blockOf s.cfg a = some base) (h4 : wordAligned a)
include hv hb h4

/-- A read of an aligned word of a block (R32, R38 to R40). -/
theorem memRead_block : memRead s 4 a =
    .ok (regWord s (regAt s.cfg (a.toNat - base)) a, afterRead s base (regAt s.cfg (a.toNat - base))) := by
  simp only [memRead, target_block hv hb h4]

/-- A read of the alias of one of its bits (R33). -/
theorem memRead_alias_block (hr : regAt s.cfg (a.toNat - base) ≠ some .bsrr) (b : BitVec 5) :
    memRead s 4 (aliasOf s.cfg a b) =
      .ok (zextBit (regBit s (regAt s.cfg (a.toNat - base)) a b), afterRead s base (regAt s.cfg (a.toNat - base))) := by
  simp only [memRead, target_alias_block hv hb h4, if_neg hr]

/-- A write of the alias of one of its bits, where it has a step (R34). -/
theorem memWrite_alias_block {b : BitVec 5} (hr : bitWriteRefused (regAt s.cfg (a.toNat - base)) b = none) (v : Word) :
    memWrite s 4 (aliasOf s.cfg a b) v =
      .ok { s with img := Memory.setWord s.img a (putBit (Memory.word s.img a) b (v.getLsbD 0)) } := by
  simp only [memWrite, target_alias_block hv hb h4, writeBit, hr]

end

/-- Settles O38: the read of the word and the read of the alias have one target's register and one draw
(`regWord_getLsbD`). -/
theorem aliasReadReturnsOneBit : Obligations.AliasReadReturnsOneBit := by
  intro s base o b hv hb h4 ho hne
  obtain ⟨haddr, hblock, hal⟩ := block_offset hv.1 hb h4 ho
  have hr : regAt s.cfg ((BitVec.ofNat 32 (base + o)).toNat - base) ≠ some .bsrr := fun e => by
    have hoff := regAt_some e
    omega
  refine ⟨_, _, memRead_block hv hblock hal, ?_⟩
  rw [ofNat_aliasOf_offset hv.1 hb h4 ho, memRead_alias_block hv hblock hal hr, regWord_getLsbD]
  rfl

/-- Settles O39: the alias write has a step, at a word with a register and at one without, and puts one bit. -/
theorem aliasWriteChangesOneBit : Obligations.AliasWriteChangesOneBit := by
  intro s base o b v hv hm hb h4 ho hidr hbsrr hlckr hp
  obtain ⟨haddr, hblock, hal⟩ := block_offset hv.1 hb h4 ho
  have hr : bitWriteRefused (regAt s.cfg ((BitVec.ofNat 32 (base + o)).toNat - base)) b = none := by
    cases hreg : regAt s.cfg ((BitVec.ofNat 32 (base + o)).toNat - base) with
    | none => rfl
    | some r =>
      obtain rfl : o = s.cfg.off r := by
        have hoff := regAt_some hreg
        omega
      exact bitWriteRefused_eq_none (fun e => hidr (by rw [e])) (fun e => hbsrr (by rw [e]))
        (fun e => hlckr (by rw [e])) (hp r rfl)
  rw [ofNat_aliasOf_offset hv.1 hb h4 ho]
  refine ⟨_, memWrite_alias_block hv hblock hal hr v, fun k hk => ?_, fun x hx => ?_⟩
  · rw [Memory.word_setWord_same hm, putBit_getLsbD]
  · exact Memory.get_setWord_outside hm _ _ (by omega)

/-! ### The set/reset register -/

/-- Settles O41: both bits of a pin fault (`bothBits_iff`), and any other word sets and resets pin by pin
(`setReset_getLsbD`). -/
theorem setResetWriteDrivesThePins : Obligations.SetResetWriteDrivesThePins := by
  intro s base v hv hm hb
  have haddr := regAddr_toNat hv hb .odr
  simp only [ofNat_regAddr]
  refine ⟨fun hboth => ?_, fun hnone => ?_⟩
  · simp only [memWrite, target_regAddr hv hb, writeReg, (bothBits_iff v).2 hboth, if_true]
  · have hbits : bothBits v = false := by
      rw [← Bool.not_eq_true, bothBits_iff]
      rintro ⟨i, hi, hset⟩
      exact hnone i hi hset
    refine ⟨_, memWrite_bsrr hv hb hbits, fun k hk => ?_, fun x hx => ?_⟩
    · rw [Memory.word_setWord_same hm, setReset_getLsbD hk]
      by_cases h16 : k < 16
      · cases hset : v.getLsbD k with
        | false => simp [h16]
        | true =>
          have hreset : v.getLsbD (16 + k) = false := by simpa [hset] using hnone k h16
          simp [h16, hreset]
      · simp [h16]
    · exact Memory.get_setWord_outside hm _ _ (by omega)

/-! ### Accesses that have no step -/

/-- An access without a target is stuck, read or written. -/
theorem stuck_of_target {n : Nat} {addr : Addr} {e : NoStep} (h : target s.cfg n addr = .error e) (v : Word) :
    memRead s n addr = .error (.stuck e) ∧ memWrite s n addr v = .error (.stuck e) := by
  simp only [memRead, memWrite, h, and_self]

/-- R31: only accesses of 4 bytes have a target. -/
theorem target_accessWidth {n : Nat} (hn : n ≠ 4) (addr : Addr) : target P n addr = .error .accessWidth := if_pos hn

/-- R31: a misaligned address has none. -/
theorem target_misaligned {addr : Addr} (h : ¬ wordAligned addr) : target P 4 addr = .error .misaligned := by
  rw [target, if_neg (not_not.2 rfl), if_pos h]

/-- An address in no listed block. -/
theorem blockOf_eq_none {a : Addr} (h : ∀ base ∈ P.gpioBases, a.toNat < base ∨ base + P.bs ≤ a.toNat) :
    blockOf P a = none := by
  cases hf : blockOf P a with
  | none => rfl
  | some base =>
    obtain ⟨hb, hlo, hhi⟩ := blockOf_some hf
    have hout := h base hb
    omega

/-- R54: an address in no block and outside the alias window has no target. -/
theorem target_outsideModel {addr : Addr} (h4 : wordAligned addr) (hw : ¬ inWindow P addr)
    (hb : blockOf P addr = none) : target P 4 addr = .error .outsideModel := by
  rw [target, if_neg (not_not.2 rfl), if_neg (not_not.2 h4), if_neg hw, hb]

/-- R35(e): an alias of a word in no block has none. -/
theorem target_aliasOutsideBlocks {addr : Addr} (h4 : wordAligned addr) (hw : inWindow P addr)
    (hb : blockOf P (aliasReg P addr) = none) : target P 4 addr = .error .aliasOutsideBlocks := by
  rw [target, if_neg (not_not.2 rfl), if_neg (not_not.2 h4), if_pos hw, hb]

/-- The upper half of OTYPER and of ODR is placeholder bits (R21). -/
theorem placeholderMask_upper : ∀ b : Fin 32, 16 ≤ b.val →
    (placeholderMask .odr).getLsbD b.val = true ∧ (placeholderMask .otyper).getLsbD b.val = true := by decide

/-- An alias write that R35 refuses is stuck under R35's name for it. -/
theorem memWrite_aliasOf_refused (hv : s.cfg.Valid) {base : Nat} (hb : base ∈ s.cfg.gpioBases) {r : Reg} {b : BitVec 5}
    {e : NoStep} (hr : bitWriteRefused (some r) b = some e) (v : Word) :
    memWrite s 4 (aliasOf s.cfg (regAddr s.cfg (BitVec.ofNat 32 base) r) b) v = .error (.stuck e) := by
  simp only [memWrite, target_aliasOf hv hb, writeBit, hr]

/-- Settles O40: accesses without a target (`stuck_of_target`), alias accesses that R35 refuses, and writes to IDR and
LCKR. -/
theorem unadmittedAccessesAreStuck : Obligations.UnadmittedAccessesAreStuck := by
  intro s n addr v hv
  refine ⟨fun hn => stuck_of_target (target_accessWidth hn addr) v, fun h4 => stuck_of_target (target_misaligned h4) v,
    fun base b y hb hy => ?_, fun h4 hw hout => ?_, fun h4 hlo hhi hout => ?_⟩
  · have hy' : ∀ r, y r = aliasOf s.cfg (regAddr s.cfg (BitVec.ofNat 32 base) r) b :=
      fun r => (hy r).trans (ofNat_aliasOf hv hb r b)
    simp only [hy', ofNat_regAddr]
    refine ⟨?_, memWrite_aliasOf_refused hv hb rfl v, memWrite_aliasOf_refused hv hb rfl v,
      memWrite_aliasOf_refused hv hb rfl v, fun h16 => ?_, ?_, ?_⟩
    · simp only [memRead, target_aliasOf hv hb, if_true]
    · obtain ⟨hodr, hotyper⟩ := placeholderMask_upper ⟨b.toNat, b.isLt⟩ h16
      exact ⟨memWrite_aliasOf_refused (r := .odr) hv hb (if_pos hodr) v,
        memWrite_aliasOf_refused (r := .otyper) hv hb (if_pos hotyper) v⟩
    · simp only [memWrite, target_regAddr hv hb, writeReg]
    · simp only [memWrite, target_regAddr hv hb, writeReg]
  · exact stuck_of_target (target_outsideModel h4 hw (blockOf_eq_none hout)) v
  · refine stuck_of_target (target_aliasOutsideBlocks h4 ⟨hlo, hhi⟩ (blockOf_eq_none ?_)) v
    rwa [aliasReg_toNat hv.1 ⟨hlo, hhi⟩]

end Sys2Proof.Machine

/-! Proofs: access sequences run by an agent that nothing falls into: what they leave in the image, and
their results. -/

namespace Sys2Proof.Machine

/-! ### Runs of a sequence -/

/-- The agent `id` is between sequences, and is about to take up `q`. -/
structure AboutTo (s : State) (id : AgentId) (ag : Agent) (q : AccessSeq) (code : List Item) : Prop where
  inv : s.Inv
  agent : s.agent? id = some ag
  stopped : ag.stopped = none
  running : ag.running = none
  conf : ag.conf = none
  code : ag.code = .seq q :: code

/-- The agent `id` has ended a sequence: `rest` of the schedule and `code` of its program are left, and it has these
results. -/
structure Ended (t : State) (id : AgentId) (rest : List AgentId) (new : Agent) (code : List Item)
    (results : List SeqResult) : Prop where
  sched : t.sched = rest
  agent : t.agent? id = some new
  code : new.code = code
  running : new.running = none
  results : new.results = results

/-- Nothing that a bus access looks at differs between the states. -/
structure SameBus (s u : State) : Prop where
  cfg : u.cfg = s.cfg
  img : u.img = s.img
  pinIn : u.pinIn = s.pinIn
  draws : u.draws = s.draws

section
variable {s t u : State} {id : AgentId} {rest : List AgentId} {ag new : Agent} {q : AccessSeq} {code : List Item}

theorem SameBus.trans (h : SameBus s t) (h' : SameBus t u) : SameBus s u :=
  ⟨h'.cfg.trans h.cfg, h'.img.trans h.img, h'.pinIn.trans h.pinIn, h'.draws.trans h.draws⟩

/-- A read answers the same word, or is stuck as it is, and leaves the same draws and pin levels. -/
theorem SameBus.memRead_eq (h : SameBus s u) (n : Nat) (a : Addr) : memRead u n a =
    (memRead s n a).map fun x => (x.1, { u with draws := x.2.draws, pinIn := x.2.pinIn }) := by
  unfold memRead regWord regBit afterRead
  rw [h.cfg, h.img, h.draws, h.pinIn]
  cases target s.cfg n a with
  | error e => rfl
  | ok x =>
    cases x with
    | reg base r a => rfl
    | bit base r a b =>
      dsimp only
      split
      · rfl
      · rfl

/-- A read that answers, answers the same word. -/
theorem SameBus.memRead_ok (h : SameBus s u) {n : Nat} {a : Addr} {w : Word} (hr : memRead s n a = .ok (w, t)) :
    ∃ t', memRead u n a = .ok (w, t') ∧ t'.pinIn = t.pinIn :=
  ⟨{ u with draws := t.draws, pinIn := t.pinIn }, by rw [h.memRead_eq, hr]; rfl, rfl⟩

/-- A write sees nothing but the parameters and the image. -/
theorem memWrite_eq_map (hcfg : u.cfg = s.cfg) (himg : u.img = s.img) (n : Nat) (a : Addr) (v : Word) :
    memWrite u n a v = (memWrite s n a v).map fun t => { u with img := t.img } := by
  unfold memWrite
  rw [hcfg]
  cases target s.cfg n a with
  | error e => rfl
  | ok x =>
    cases x with
    | reg base r a =>
      dsimp only
      unfold writeReg
      rw [hcfg, himg]
      split
      any_goals rfl
      split
      · rfl
      · rfl
    | bit base r a b =>
      dsimp only
      unfold writeBit
      rw [hcfg, himg]
      split
      · rfl
      · rfl

/-- A write that has a step leaves the same image. -/
theorem memWrite_congr (hcfg : u.cfg = s.cfg) (himg : u.img = s.img) {n : Nat} {a : Addr} {v : Word}
    {m : List Host.Cell} (hw : memWrite s n a v = .ok { s with img := m }) :
    memWrite u n a v = .ok { u with img := m } := by
  rw [memWrite_eq_map hcfg himg, hw]
  rfl

/-- A run of the machine, its first step known. -/
theorem run_succ (h : step s = .next t) (k : Nat) : Host.Core.run core (k + 1) s = Host.Core.run core k t := by
  simp only [Host.Core.run, show core.step s = .next t from h]

theorem run_two {s1 : State} (h1 : step s = .next s1) (h2 : step s1 = .next t) :
    Host.Core.run core 2 s = .next t := (run_succ h1 1).trans (run_succ h2 0)

theorem run_three {s1 s2 : State} (h1 : step s = .next s1) (h2 : step s1 = .next s2) (h3 : step s2 = .next t) :
    Host.Core.run core 3 s = .next t := (run_succ h1 2).trans (run_two h2 h3)

theorem run_four {s1 s2 s3 : State} (h1 : step s = .next s1) (h2 : step s1 = .next s2) (h3 : step s2 = .next s3)
    (h4 : step s3 = .next t) : Host.Core.run core 4 s = .next t := (run_succ h1 3).trans (run_three h2 h3 h4)

/-- Steps keep the invariant, so the step after one is not refused. -/
theorem Stepped.inv (h : Stepped s t id rest new) (hi : s.Inv) : t.Inv := stepsKeepTheInvariant s t hi h.step

/-- A step at which a sequence ends. -/
theorem Stepped.ended {o : Option SeqResult} {stop : Bool} {res : SeqResult}
    (h : Stepped s t id rest (ag.finish o stop)) (ho : o = some res) :
    Ended t id rest (ag.finish o stop) ag.code (ag.results ++ [res]) := by
  subst ho
  exact ⟨h.sched, h.agent, rfl, rfl, rfl⟩

/-- The sequence that a well-formed program takes up is well-formed. -/
theorem AboutTo.checked (h : AboutTo s id ag q code) : checkSeq s.cfg q = none := code_checked h.inv h.agent h.code

/-- The first step takes the sequence up. -/
theorem AboutTo.start (h : AboutTo s id ag q code) (hs : s.sched = id :: rest) :
    ∃ t, Stepped s t id rest (startSeq s.cfg q { ag with code := code }) ∧ SameBus s t := by
  obtain ⟨t, ht, himg, hpin, hdraws⟩ := step_start h.inv.checked hs h.agent h.stopped h.running h.conf h.code
  exact ⟨t, ht, ht.cfg, himg, hpin, hdraws⟩

end

/-! ### The sequences, one by one -/

section
variable {s t : State} {id : AgentId} {rest : List AgentId} {ag : Agent} {q : AccessSeq} {code : List Item}
  {reg y : Addr} {d w : Word} {m : List Host.Cell}

/-- A sequence that is one read (R47). -/
theorem AboutTo.read (h : AboutTo s id ag q code) (hs : s.sched = id :: id :: rest)
    (hq : expand s.cfg q = [.ld .t 4 (.lit y)])
    (hres : ∀ b, seqResult b q = (b.word? .t).map fun t => .bit (t.getLsbD 0)) (hr : memRead s 4 y = .ok (w, t)) :
    ∃ u new, Host.Core.run core 2 s = .next u ∧ u.img = s.img ∧ u.pinIn = t.pinIn ∧
      Ended u id rest new code (ag.results ++ [.bit (w.getLsbD 0)]) := by
  obtain ⟨s1, h1, b1⟩ := h.start hs
  obtain ⟨t', hr', hpin⟩ := b1.memRead_ok hr
  obtain ⟨s2, stop, h2, himg, hpin'⟩ := step_ld_last (h1.inv h.inv).checked h1.sched h1.agent h.stopped
    (congrArg (fun ls => some (Running.mk q ls)) hq) rfl rfl hr'
  exact ⟨s2, _, run_two h1.step h2.step, himg.trans b1.img, hpin'.trans hpin, h2.ended (hres _)⟩

/-- The read-bit sequence: `TOALIAS`, then the read of the alias (R47). -/
theorem AboutTo.readBit {b : BitVec 5} (h : AboutTo s id ag (.readBit reg b) code)
    (hs : s.sched = id :: id :: id :: rest)
    (hreg : inRegion s.cfg reg) (h4 : wordAligned reg) (hr : memRead s 4 (aliasOf s.cfg reg b) = .ok (w, t)) :
    ∃ u new, Host.Core.run core 3 s = .next u ∧ u.img = s.img ∧ u.pinIn = t.pinIn ∧
      Ended u id rest new code (ag.results ++ [.bit (w.getLsbD 0)]) := by
  obtain ⟨s1, h1, b1⟩ := h.start hs
  obtain ⟨s2, h2, himg, hpin, hdraws⟩ := step_request (h1.inv h.inv).checked h1.sched h1.agent h.stopped rfl
    (decode_encode_toalias b) rfl rfl (by rw [b1.cfg]; exact toaliasResponse_eq hreg h4)
  obtain ⟨t', hr', hpin'⟩ := (b1.trans ⟨h2.cfg, himg, hpin, hdraws⟩).memRead_ok hr
  obtain ⟨s3, stop, h3, himg3, hpin3⟩ := step_ld_last (h2.inv (h1.inv h.inv)).checked h2.sched h2.agent h.stopped
    rfl rfl rfl hr'
  exact ⟨s3, _, run_three h1.step h2.step h3.step, himg3.trans (himg.trans b1.img), hpin3.trans hpin',
    h3.ended rfl⟩

/-- The get sequence: the read of the word, then `FGET` (R48). -/
theorem AboutTo.get {n : Width} {sh : BitVec 5} (h : AboutTo s id ag (.get n reg sh) code)
    (hs : s.sched = id :: id :: id :: rest) (hin : inWord sh n) (hr : memRead s 4 reg = .ok (d, t)) :
    ∃ u new, Host.Core.run core 3 s = .next u ∧ u.img = s.img ∧ u.pinIn = t.pinIn ∧
      Ended u id rest new code (ag.results ++ [.value (((d >>> sh.toNat) &&& mask n).extractLsb' 0 16)]) := by
  obtain ⟨s1, h1, b1⟩ := h.start hs
  obtain ⟨t', hr', hpin⟩ := b1.memRead_ok hr
  obtain ⟨s2, h2, himg2, hpin2⟩ := step_ld (h1.inv h.inv).checked h1.sched h1.agent h.stopped rfl rfl rfl hr'
  obtain ⟨s3, stop, h3, himg3, hpin3⟩ := step_request_last (h2.inv (h1.inv h.inv)).checked h2.sched h2.agent h.stopped
    rfl (decode_encode_fget n sh) rfl rfl (fgetResponse_eq hin)
  exact ⟨s3, _, run_three h1.step h2.step h3.step, himg3.trans (himg2.trans b1.img), hpin3.trans (hpin2.trans hpin),
    h3.ended rfl⟩

/-- `pin` of a handle: `PINLOOKUP` (R53). -/
theorem AboutTo.pinOf {x : Response} (h : AboutTo s id ag (.pinOf y) code) (hs : s.sched = id :: id :: rest)
    (hx : pinlookupResponse s.cfg { ctrl := encode .pinlookup, a := y } = .ok x) :
    ∃ u new, Host.Core.run core 2 s = .next u ∧ u.img = s.img ∧
      Ended u id rest new code (ag.results ++ [.pin x.y x.z]) := by
  obtain ⟨s1, h1, b1⟩ := h.start hs
  obtain ⟨s2, stop, h2, himg, -⟩ := step_request_last (h1.inv h.inv).checked h1.sched h1.agent h.stopped rfl
    decode_encode_pinlookup rfl rfl (by rw [b1.cfg]; exact hx)
  exact ⟨s2, _, run_two h1.step h2.step, himg.trans b1.img, h2.ended rfl⟩

/-- A response is accepted or rejected as its `OK` says (R95). -/
theorem accepted_or_rejected_ok (c : Prop) [Decidable c] (x x' : Response) :
    (if c then x.accepted else x'.rejected).ok = decide c := by
  split
  · exact (decide_eq_true ‹c›).symm
  · exact (decide_eq_false ‹¬ c›).symm

/-- The conditional write that ends a set: it makes its event where the response was accepted, and none where it was
rejected (R87). -/
theorem step_stWe {c : Prop} [Decidable c] {wd' : Word} (hi : s.Inv) (hs : s.sched = id :: rest)
    (ha : s.agent? id = some ag) (hst : ag.stopped = none) (hr : ag.running = some ⟨q, [.stWe .r]⟩)
    (hres : seqResult ag q = (ag.response? .r).map fun r => .success r.ok)
    (hx : ag.response? .r =
      some (if c then Response.accepted { y := y, wd := w } else Response.rejected { y := y, wd := wd' }))
    (hw : memWrite s 4 y w = .ok { s with img := m }) :
    ∃ t stop, Stepped s t id rest (ag.finish (some (.success (decide c))) stop) ∧ t.img = if c then m else s.img := by
  rw [hx, Option.map_some, accepted_or_rejected_ok] at hres
  rw [← hres]
  have hw' : memWrite { s with sched := rest } 4 y w = .ok { s with sched := rest, img := m } :=
    memWrite_congr (s := s) (u := { s with sched := rest }) rfl rfl hw
  by_cases hc : c
  · simp only [if_pos hc] at hx ⊢
    exact step_stWe_last hi.checked hs ha hst hr hx rfl hw'
  · simp only [if_neg hc] at hx ⊢
    exact step_stWe_skip hi.checked hs ha hst hr hx rfl

/-- A set of one bit, by `BITWR` or by `SRENC`: the request, then the conditional write (R49, R51, R52). -/
theorem AboutTo.setOneBit {i : Instr} {v : Half} (h : AboutTo s id ag q code) (hs : s.sched = id :: id :: id :: rest)
    (hq : expand s.cfg q = [reqLine i (.lit reg) (.lit 0) (.lit v), .stWe .r]) (hd : decode (encode i) = .ok i)
    (hres : ∀ b, seqResult b q = (b.response? .r).map fun r => .success r.ok)
    (hx : respond s.cfg i { ctrl := encode i, a := reg, v := v } = .ok
      (if v.toNat ≤ 1 then Response.accepted { y := y, wd := w } else Response.rejected { y := y, wd := 0 }))
    (hw : memWrite s 4 y w = .ok { s with img := m }) :
    ∃ t1 t2 t new, step s = .next t1 ∧ step t1 = .next t2 ∧ step t2 = .next t ∧ t1.img = s.img ∧ t2.img = s.img ∧
      t.img = (if v.toNat ≤ 1 then m else s.img) ∧
      Ended t id rest new code (ag.results ++ [.success (decide (v.toNat ≤ 1))]) := by
  obtain ⟨s1, h1, b1⟩ := h.start hs
  obtain ⟨s2, h2, himg, hpin, hdraws⟩ := step_request (h1.inv h.inv).checked h1.sched h1.agent h.stopped
    (congrArg (fun ls => some (Running.mk q ls)) hq) hd rfl rfl (by rw [b1.cfg]; exact hx)
  have b2 := b1.trans ⟨h2.cfg, himg, hpin, hdraws⟩
  obtain ⟨s3, stop, h3, himg3⟩ := step_stWe (h2.inv (h1.inv h.inv)) h2.sched h2.agent h.stopped rfl (hres _)
    (Agent.response?_bindResponse_same ..) (memWrite_congr b2.cfg b2.img hw)
  rw [b2.img] at himg3
  exact ⟨s1, s2, s3, _, h1.step, h2.step, h3.step, b1.img, b2.img, himg3, h3.ended rfl⟩

/-- The multi-bit set: the read of the word, `FSET`, then the conditional write (R50). -/
theorem AboutTo.set {n : Width} {e : Bool} {sh : BitVec 5} {v vm : Half}
    (h : AboutTo s id ag (.set n e reg sh v vm) code)
    (hs : s.sched = id :: id :: id :: id :: rest) (hd : decode (encode (.fset n e sh)) = .ok (.fset n e sh))
    (hin : inWord sh n) (hr : memRead s 4 reg = .ok (d, t))
    (hw : memWrite s 4 reg (insertField n sh d v) = .ok { s with img := m }) :
    ∃ u new, Host.Core.run core 4 s = .next u ∧
      u.img = (if v.toNat < 2 ^ n.bits ∧ (e = true → vm.getLsbD v.toNat = true) then m else s.img) ∧
      Ended u id rest new code
        (ag.results ++ [.success (decide (v.toNat < 2 ^ n.bits ∧ (e = true → vm.getLsbD v.toNat = true)))]) := by
  obtain ⟨s1, h1, b1⟩ := h.start hs
  obtain ⟨t', hr', -⟩ := b1.memRead_ok hr
  obtain ⟨s2, h2, himg2, -⟩ := step_ld (h1.inv h.inv).checked h1.sched h1.agent h.stopped rfl rfl rfl hr'
  obtain ⟨s3, h3, himg3, -, -⟩ := step_request (h2.inv (h1.inv h.inv)).checked h2.sched h2.agent h.stopped
    rfl hd rfl rfl (fsetResponse_eq hin)
  have himg : s3.img = s.img := himg3.trans (himg2.trans b1.img)
  have hcfg : s3.cfg = s.cfg := h3.cfg.trans (h2.cfg.trans b1.cfg)
  obtain ⟨s4, stop, h4, himg4⟩ := step_stWe (h3.inv (h2.inv (h1.inv h.inv))) h3.sched h3.agent h.stopped rfl rfl
    (Agent.response?_bindResponse_same ..) (memWrite_congr hcfg himg hw)
  rw [himg] at himg4
  exact ⟨s4, _, run_four h1.step h2.step h3.step h4.step, himg4, h4.ended rfl⟩

end

/-! ### What a get or a set of a listed register addresses -/

section
variable {P : Params} {base : Nat} {r : Reg} {sh : BitVec 5} {w : Width}

/-- No field of R21 that may be accessed holds a placeholder bit (R23). -/
theorem layout_field_not_placeholder : ∀ f ∈ layout, f.access ≠ .none → ∀ i < f.count, ∀ k < f.width.bits,
    (placeholderMask f.reg).getLsbD (f.first + f.stride * i + k) = false := by decide

/-- The fields of BSRR are write-only, and those of IDR read-only or placeholders (R21). -/
theorem layout_access : ∀ f ∈ layout, (f.reg = .bsrr → f.access = .writeOnly) ∧
    (f.reg = .idr → f.access = .readOnly ∨ f.access = .none) := by decide

/-- A get that passes the checks reads a field in its word, without placeholder bits, of another register than BSRR. -/
theorem checkGet_regAddr (hv : P.Valid) (hb : base ∈ P.gpioBases)
    (hq : checkGet P (regAddr P (BitVec.ofNat 32 base) r) sh w = none) :
    r ≠ .bsrr ∧ inWord sh w ∧ ∀ k < w.bits, (placeholderMask r).getLsbD (sh.toNat + k) = false := by
  obtain ⟨f, hf, hnone, hwo⟩ := checkGet_ok hq
  obtain ⟨rfl, hfl, rfl, i, hi, hsh⟩ := fieldAt_regAddr hv hb hf
  rw [inWord, hsh]
  exact ⟨fun e => hwo ((layout_access f hfl).1 e), layout_inWord f hfl i hi,
    layout_field_not_placeholder f hfl hnone i hi⟩

/-- A set of one bit that passes the checks writes no placeholder bit, of another register than IDR. -/
theorem checkSet_bit_regAddr (hv : P.Valid) (hb : base ∈ P.gpioBases)
    (hq : checkSet P (regAddr P (BitVec.ofNat 32 base) r) sh .w1 = none) :
    r ≠ .idr ∧ (placeholderMask r).getLsbD sh.toNat = false := by
  obtain ⟨f, hf, hnone, hro⟩ := checkSet_ok hq
  obtain ⟨rfl, hfl, hfw, i, hi, hsh⟩ := fieldAt_regAddr hv hb hf
  rw [hsh]
  exact ⟨fun e => ((layout_access f hfl).2 e).elim hro hnone, layout_bit_not_placeholder f hfl hfw i hi⟩

end

/-! ### The values -/

/-- A bit as a word: its bit 0. -/
theorem zextBit_getLsbD_zero (v : Bool) : (zextBit v).getLsbD 0 = v := by
  cases v <;> rfl

/-- A field as a number: the word shifted right, modulo the field's range (R48, R80). -/
theorem field_eq_ofNat (d : Word) (n : Nat) (w : Width) :
    ((d >>> n) &&& mask w).extractLsb' 0 16 = BitVec.ofNat 16 (d.toNat / 2 ^ n % 2 ^ w.bits) := by
  refine BitVec.eq_of_toNat_eq ?_
  simp only [BitVec.extractLsb'_toNat, BitVec.toNat_and, mask_toNat, Nat.and_two_pow_sub_one_eq_mod,
    BitVec.toNat_ushiftRight, Nat.shiftRight_eq_div_pow, Nat.pow_zero, Nat.div_one, BitVec.toNat_ofNat]

/-- A field depends on its own bits alone. -/
theorem field_congr {d d' : Word} {n : Nat} {w : Width} (h : ∀ k < w.bits, d.getLsbD (n + k) = d'.getLsbD (n + k)) :
    ((d >>> n) &&& mask w).extractLsb' 0 16 = ((d' >>> n) &&& mask w).extractLsb' 0 16 := by
  have hshift : (d >>> n) &&& mask w = (d' >>> n) &&& mask w := by
    refine BitVec.eq_of_getLsbD_eq fun k _ => ?_
    simp only [BitVec.getLsbD_and, BitVec.getLsbD_ushiftRight, mask_getLsbD]
    by_cases hk : k < w.bits
    · rw [h k hk]
    · simp [hk]
  rw [hshift]

section
variable (s : State) (a : Addr)

/-- A bit that no read draws is the image's (R32). -/
theorem regWord_getLsbD_image {r : Reg} (hidr : r ≠ .idr) (hbsrr : r ≠ .bsrr) {b : Nat}
    (hp : (placeholderMask r).getLsbD b = false) :
    (regWord s (some r) a).getLsbD b = (Memory.word s.img a).getLsbD b := by
  rw [regWord, mixDrawn_getLsbD, drawMask_of_ne hidr hbsrr, hp]
  rfl

/-- A read of IDR is a draw (R39). -/
theorem regWord_idr : regWord s (some .idr) a = Config.freeWord s.draws := mixDrawn_allOnes ..

end

/-! ### Read-bit and get -/

/-- Settles O48: three steps, the last of which reads the alias of the bit. -/
theorem readBitSequenceReturnsTheBit : Obligations.ReadBitSequenceReturnsTheBit := by
  intro s id rest ag base r b code hi hs ha hst hr hcf hcode hb
  rw [ofNat_regAddr] at hcode ⊢
  have h : AboutTo s id ag _ code := ⟨hi, ha, hst, hr, hcf, hcode⟩
  obtain ⟨hbsrr, -, hp⟩ := checkGet_regAddr hi.valid hb h.checked
  obtain ⟨t, new, hrun, himg, hpin, hend⟩ := h.readBit hs (regAddr_inRegion hi.valid hb r)
    (regAddr_aligned hi.valid hb r) (memRead_aliasOf hi.valid hb hbsrr b)
  have hres := hend.results
  rw [zextBit_getLsbD_zero, ← regWord_getLsbD] at hres
  refine ⟨t, new, hrun, himg, hend.sched, hend.agent, hend.code, hend.running, fun hidr => ⟨?_, ?_⟩, ?_⟩
  · rw [hpin, afterRead_of_ne s base (by simpa using hidr)]
  · rw [hres, regWord_getLsbD_image s _ hidr hbsrr (b := b.toNat) (hp 0 Nat.one_pos)]
  · rintro rfl
    rw [hpin, hres, regWord_idr]
    exact ⟨afterRead_idr_lookup s base, rfl⟩

/-- Settles O49: three steps, of which the second reads the word and the third extracts the field. -/
theorem getSequenceReturnsTheField : Obligations.GetSequenceReturnsTheField := by
  intro s id rest ag base r w sh code hi hs ha hst hr hcf hcode hb
  rw [ofNat_regAddr] at hcode ⊢
  have h : AboutTo s id ag _ code := ⟨hi, ha, hst, hr, hcf, hcode⟩
  obtain ⟨hbsrr, hin, hp⟩ := checkGet_regAddr hi.valid hb h.checked
  obtain ⟨t, new, hrun, himg, hpin, hend⟩ := h.get hs hin (memRead_regAddr hi.valid hb r)
  refine ⟨t, new, hrun, himg, hend.sched, hend.agent, hend.code, hend.running, fun hidr => ⟨?_, ?_⟩, ?_⟩
  · rw [hpin, afterRead_of_ne s base (by simpa using hidr)]
  · rw [hend.results, field_congr fun k hk => regWord_getLsbD_image s _ hidr hbsrr (hp k hk), field_eq_ofNat]
  · rintro rfl
    rw [hpin, hend.results, regWord_idr, field_eq_ofNat]
    exact ⟨afterRead_idr_lookup s base, rfl⟩

/-! ### Sets -/

/-- A word write, as the statements on sets speak of it: the new word, bit by bit, and the other bytes. -/
theorem setWord_changes {m : List Host.Cell} (hm : Memory.wf m) {a : Addr} {w : Word} {bit : Nat → Bool} {n : Nat}
    (hn : a.toNat = n) (hbit : ∀ k, k < 32 → w.getLsbD k = bit k) :
    (∀ k, k < 32 → (Memory.word (Memory.setWord m a w) a).getLsbD k = bit k) ∧
      ∀ x, x < n ∨ n + 4 ≤ x → Memory.get (Memory.setWord m a w) x = Memory.get m x := by
  subst hn
  rw [Memory.word_setWord_same hm]
  exact ⟨hbit, fun x hx => Memory.get_setWord_outside hm a w hx⟩

/-- Settles O50: `BITWR` asks for the alias write of the bit, which is the last of three steps. -/
theorem setBitSequenceWritesOnce : Obligations.SetBitSequenceWritesOnce := by
  intro s id rest ag base r b v code hi hs ha hst hr hcf hcode hb hbsrr hlckr
  rw [ofNat_regAddr] at hcode ⊢
  have h : AboutTo s id ag _ code := ⟨hi, ha, hst, hr, hcf, hcode⟩
  obtain ⟨hidr, hp⟩ := checkSet_bit_regAddr hi.valid hb h.checked
  obtain ⟨t1, t2, t, new, h1, h2, h3, himg1, himg2, himg, hend⟩ := h.setOneBit hs rfl (decode_encode_bitwr b)
    (fun _ => rfl) (bitwrResponse_eq (regAddr_inRegion hi.valid hb r) (regAddr_aligned hi.valid hb r))
    (memWrite_aliasOf hi.valid hb hidr hbsrr hlckr hp _)
  refine ⟨t1, t2, t, new, h1, h2, h3, himg1, himg2, hend.sched, hend.agent, hend.code, hend.running,
    fun hle => ?_, fun hgt => ?_⟩
  · rw [hend.results, himg, if_pos hle, decide_eq_true hle, zextBit_getLsbD_zero]
    exact ⟨rfl, setWord_changes hi.wf (regAddr_toNat hi.valid hb r) fun k _ => putBit_getLsbD ..⟩
  · rw [hend.results, himg, if_neg (Nat.not_le.2 hgt), decide_eq_false (Nat.not_le.2 hgt)]
    exact ⟨rfl, rfl⟩

/-- Settles O51: the word that is read is the image's, for the register holds no placeholder bit, and `FSET` asks for
the write of that word with its field replaced. -/
theorem uninterruptedSetReplacesItsField : Obligations.UninterruptedSetReplacesItsField := by
  intro s id rest ag w e reg sh v m code hi hs ha hst hr hcf hcode
  have h : AboutTo s id ag _ code := ⟨hi, ha, hst, hr, hcf, hcode⟩
  obtain ⟨base, r, hb, rfl, hidr, hbsrr, hlckr, hmask, hin, hbits⟩ := checkSet_multiBit hi.valid h.checked
  have hd : decode (encode (.fset w e sh)) = .ok (.fset w e sh) := by
    rw [decode_encode_fset, if_neg fun hwide => Nat.not_le.2 hbits hwide.2]
  obtain ⟨t, new, hrun, himg, hend⟩ := h.set hs hd hin (memRead_regAddr hi.valid hb r)
    (memWrite_regAddr hi.valid hb hidr hbsrr hlckr _)
  rw [storedWord_of_no_placeholder hmask, regWord, drawMask_of_ne hidr hbsrr, hmask, mixDrawn_zero] at himg
  refine ⟨t, new, hrun, hend.sched, hend.agent, hend.code, hend.running, fun hok => ?_, fun hno => ?_⟩
  · rw [hend.results, himg, if_pos hok, decide_eq_true hok]
    exact ⟨rfl, setWord_changes hi.wf rfl fun k hk => insertField_getLsbD hin hok.1 hk⟩
  · rw [hend.results, himg, if_neg hno, decide_eq_false hno]
    exact ⟨rfl, rfl⟩

/-- The bit a set stores of a value that is 0 or 1. -/
theorem getLsbD_zero_of_le_one {v : Half} (h : v.toNat ≤ 1) : v.getLsbD 0 = decide (v.toNat = 1) := by
  rw [BitVec.getLsbD, Nat.testBit_zero, Nat.mod_eq_of_lt (by omega)]

/-- The pins are no placeholder bits of ODR (R21). -/
theorem placeholderMask_odr_pin : ∀ p : Fin 16, (placeholderMask .odr).getLsbD p.val = false := by decide

/-- Both variants of `write_output` leave the output-data word with the pin's bit replaced, or nothing written. -/
theorem AboutTo.writeOutput {s : State} {id : AgentId} {rest : List AgentId} {ag : Agent} {q : AccessSeq}
    {code : List Item} {h : PinHandle} {v : Half} (hq : AboutTo s id ag q code) (hs : s.sched = id :: id :: id :: rest)
    (hvar : q = .writeDirect h v ∨ q = .writeSetReset h v) :
    ∃ t new w, Host.Core.run core 3 s = .next t ∧ h.base.toNat ∈ s.cfg.gpioBases ∧
      t.img = (if v.toNat ≤ 1 then Memory.setWord s.img (regAddr s.cfg h.base .odr) w else s.img) ∧
      (∀ k, k < 32 → w.getLsbD k =
        if k = h.pin.val then v.getLsbD 0 else (Memory.word s.img (regAddr s.cfg h.base .odr)).getLsbD k) ∧
      Ended t id rest new code (ag.results ++ [.success (decide (v.toNat ≤ 1))]) := by
  have hv := hq.inv.valid
  have hpin := pin_toNat h.pin
  have hbase := ofNat_base h.base
  have hb : h.base.toNat ∈ s.cfg.gpioBases := by
    obtain rfl | rfl := hvar
    · exact checkOutput_ok hq.checked
    · exact checkOutput_ok hq.checked
  obtain rfl | rfl := hvar
  · have hin := regAddr_inRegion hv hb .odr
    have hal := regAddr_aligned hv hb .odr
    have hw := memWrite_aliasOf hv hb (r := .odr) (by decide) (by decide) (by decide) (b := BitVec.ofNat 5 h.pin.val)
      (by rw [hpin]; exact placeholderMask_odr_pin h.pin) (zextBit (v.getLsbD 0))
    rw [hbase] at hin hal hw
    obtain ⟨t1, t2, t, new, h1, h2, h3, -, -, himg, hend⟩ := hq.setOneBit hs rfl (decode_encode_bitwr _) (fun _ => rfl)
      (bitwrResponse_eq hin hal) hw
    exact ⟨t, new, _, run_three h1 h2 h3, hb, himg, fun k _ => by rw [putBit_getLsbD, hpin, zextBit_getLsbD_zero], hend⟩
  · have hlt : (BitVec.ofNat 5 h.pin.val).toNat < 16 := by rw [hpin]; exact h.pin.isLt
    have hshift : (if v.getLsbD 0 then h.pin.val else h.pin.val + 16) < 32 := by split <;> omega
    have hw := memWrite_bsrr hv hb (bothBits_one_shift _ hshift)
    rw [hbase] at hw
    obtain ⟨t1, t2, t, new, h1, h2, h3, -, -, himg, hend⟩ := hq.setOneBit hs rfl (decode_encode_srenc _) (fun _ => rfl)
      (srencResponse_eq hlt) (by rw [hpin]; exact hw)
    exact ⟨t, new, _, run_three h1 h2 h3, hb, himg, fun k hk => setReset_one_shift h.pin.isLt _ hk, hend⟩

/-- Settles O52: either variant replaces the pin's bit of the output-data word (`AboutTo.writeOutput`). -/
theorem outputSequencesDriveTheirPin : Obligations.OutputSequencesDriveTheirPin := by
  intro s id rest ag h v q code hi hs ha hst hr hcf hcode hvar
  have hq : AboutTo s id ag q code := ⟨hi, ha, hst, hr, hcf, hcode⟩
  obtain ⟨t, new, w, hrun, hb, himg, hw, hend⟩ := hq.writeOutput hs hvar
  refine ⟨t, new, hrun, hend.sched, hend.agent, hend.code, hend.running, fun hle => ?_, fun hgt => ?_⟩
  · have haddr := regAddr_toNat hi.valid hb .odr
    rw [ofNat_base] at haddr
    rw [hend.results, himg, if_pos hle, decide_eq_true hle, ← getLsbD_zero_of_le_one hle]
    exact ⟨rfl, setWord_changes hi.wf haddr hw⟩
  · rw [hend.results, himg, if_neg (Nat.not_le.2 hgt), decide_eq_false (Nat.not_le.2 hgt)]
    exact ⟨rfl, rfl⟩

/-! ### Handles -/

/-- Settles O53: `PINLOOKUP` inverts the handle, and the two reads through a handle are reads of its bit. -/
theorem handleSequencesReachTheirPin : Obligations.HandleSequencesReachTheirPin := by
  intro s id rest ag base r p h code hi hs ha hst hr hcf hb hp hh
  have hv := hi.valid
  have habout : ∀ q, ag.code = .seq q :: code → AboutTo s id ag q code :=
    fun _ hcode => ⟨hi, ha, hst, hr, hcf, hcode⟩
  rw [ofNat_aliasOf hv hb] at hh
  refine ⟨fun hreg hcode => ?_, ?_, ?_⟩
  · obtain ⟨hmod, hlo, hhi⟩ := Params.base_spec hv.1 hb
    have hx := pinlookup_ok hv hmod hlo hhi hreg p.toNat hp { ctrl := encode .pinlookup, a := h }
      (by rw [ofNat_regAddr, BitVec.ofNat_toNat, BitVec.setWidth_eq]; exact hh)
    obtain ⟨t, new, hrun, himg, hend⟩ := (habout _ hcode).pinOf hs hx
    exact ⟨t, new, hrun, himg, hend.agent, hend.code, hend.running, by simpa [Response.done] using hend.results⟩
  · rintro rfl hcode
    obtain ⟨t, new, hrun, himg, -, hend⟩ := (habout _ hcode).read hs rfl (fun _ => rfl)
      (hh ▸ memRead_aliasOf hv hb (by decide) p)
    have hpin := placeholderMask_odr_pin ⟨p.toNat, hp⟩
    refine ⟨t, new, hrun, himg, hend.agent, hend.code, hend.running, hend.results.trans ?_⟩
    rw [zextBit_getLsbD_zero, ← regWord_getLsbD, regWord_getLsbD_image s _ (by decide) (by decide) hpin, ofNat_regAddr]
  · rintro rfl hcode
    obtain ⟨t, new, hrun, himg, hpin, hend⟩ := (habout _ hcode).read hs rfl (fun _ => rfl)
      (hh ▸ memRead_aliasOf hv hb (by decide) p)
    refine ⟨t, new, hrun, himg, hend.agent, hend.code, hend.running, hend.results.trans ?_, ?_⟩
    · rw [zextBit_getLsbD_zero, ← regWord_getLsbD, regWord_idr]
    · rw [hpin]
      exact afterRead_idr_lookup s base

end Sys2Proof.Machine

/-! Proofs: what control words decode to, and which of their bits and operands a request's outcome depends on. -/

namespace Sys2Proof.Machine

/-! ### Decoding, condition by condition (R58, R59, R63) -/

/-- The reserved operation codes (R58). -/
theorem opOfCode_eq_none_iff : ∀ {n : BitVec 4}, opOfCode n = none ↔ 7 ≤ n.toNat := by decide

/-- The width codes that name no width (R59). -/
theorem widthOfCode_eq_none_iff : ∀ {n : BitVec 3}, widthOfCode n = none ↔ 5 ≤ n.toNat := by decide

/-- The widths an enumeration check does not go with are those of codes 3 and 4 (R60). -/
theorem fifteen_le_bits_iff {w : Width} : 15 ≤ w.bits ↔ w.code = 3 ∨ w.code = 4 := by
  cases w <;> decide

/-- R59's table: the code, the width and the mask of each row. -/
theorem widthTable_iff {n : BitVec 3} {w : Width} :
    ((n = 0 ∧ w.bits = 1 ∧ mask w = 0x1) ∨ (n = 1 ∧ w.bits = 2 ∧ mask w = 0x3) ∨
      (n = 2 ∧ w.bits = 4 ∧ mask w = 0xF) ∨ (n = 3 ∧ w.bits = 15 ∧ mask w = 0x7FFF) ∨
      (n = 4 ∧ w.bits = 16 ∧ mask w = 0xFFFF)) ↔ n = w.code := by
  cases w <;> simp [Width.bits, mask, Width.code]

section
variable {c c' : Half} {w : Width} {e : Bool}

/-- R63.1. -/
theorem decode_reservedBits (hr : ctrlRSV c ≠ 0) : decode c = .error .reservedBits := if_pos hr

/-- R63.2. -/
theorem decode_reservedOp (hr : ctrlRSV c = 0) (ho : opOfCode (ctrlOp c) = none) :
    decode c = .error .reservedOp := by
  simp [decode, hr, ho]

/-- R63.3. -/
theorem decode_reservedWidth (hr : ctrlRSV c = 0) (ho : ctrlOp c = Op.fget.code ∨ ctrlOp c = Op.fset.code)
    (hw : 5 ≤ (ctrlWC c).toNat) : decode c = .error .reservedWidth := by
  have hw' := widthOfCode_eq_none_iff.2 hw
  obtain ho | ho := ho
  · simp [decode, hr, ho, hw']
  · simp [decode, hr, ho, hw']

/-- R63.4. -/
theorem decode_enumWidth (hr : ctrlRSV c = 0) (ho : ctrlOp c = Op.fset.code) (hw : ctrlWC c = w.code)
    (he : ctrlE c = true) (hwide : 15 ≤ w.bits) : decode c = .error .enumWidth := by
  simp [decode, hr, ho, hw, he, hwide]

/-- An operation without a width decodes, whatever the other fields are. -/
theorem decode_of_op_without_width {op : Op} (hr : ctrlRSV c = 0) (ho : ctrlOp c = op.code) (hget : op ≠ .fget)
    (hset : op ≠ .fset) : ∃ i, decode c = .ok i := by
  cases op with
  | fget => exact absurd rfl hget
  | fset => exact absurd rfl hset
  | _ => simp [decode, hr, ho]

/-- `FGET`, by its width code. -/
theorem decode_eq_fget_iff (hr : ctrlRSV c = 0) (ho : ctrlOp c = Op.fget.code) :
    decode c = .ok (.fget w (ctrlB c)) ↔ ctrlWC c = w.code := by
  rw [← widthOfCode_eq_some]
  cases hw : widthOfCode (ctrlWC c) with
  | none => simp [decode, hr, ho, hw]
  | some w' => simp [decode, hr, ho, hw]

/-- `FSET`, by its width code and its enumeration bit. -/
theorem decode_eq_fset_iff (hr : ctrlRSV c = 0) (ho : ctrlOp c = Op.fset.code) :
    decode c = .ok (.fset w e (ctrlB c)) ↔ ctrlWC c = w.code ∧ ctrlE c = e ∧ ¬ (e = true ∧ 15 ≤ w.bits) := by
  rw [← widthOfCode_eq_some]
  cases hw : widthOfCode (ctrlWC c) with
  | none => simp [decode, hr, ho, hw]
  | some w' =>
    by_cases hc : ctrlE c = true ∧ 15 ≤ w'.bits
    · have hd : decode c = .error .enumWidth :=
        decode_enumWidth hr ho (widthOfCode_eq_some.1 hw) hc.1 hc.2
      rw [hd]
      refine iff_of_false (by simp) ?_
      rintro ⟨hw', he, hne⟩
      obtain rfl := Option.some.inj hw'
      exact hne ⟨he ▸ hc.1, hc.2⟩
    · have hd : decode c = .ok (.fset w' (ctrlE c) (ctrlB c)) := by simp [decode, hr, ho, hw, hc]
      rw [hd]
      simp only [Except.ok.injEq, Instr.fset.injEq, and_true, Option.some.injEq]
      constructor
      · rintro ⟨rfl, rfl⟩
        exact ⟨rfl, rfl, hc⟩
      · rintro ⟨rfl, rfl, -⟩
        exact ⟨rfl, rfl⟩

/-- R63: a control word is ILLEGAL on one of the four conditions, and on no other. -/
theorem decode_eq_error_iff : (∃ e, decode c = .error e) ↔
    (ctrlRSV c ≠ 0 ∨ 7 ≤ (ctrlOp c).toNat ∨
      ((ctrlOp c = Op.fget.code ∨ ctrlOp c = Op.fset.code) ∧ 5 ≤ (ctrlWC c).toNat) ∨
      (ctrlOp c = Op.fset.code ∧ ctrlE c = true ∧ (ctrlWC c = 3 ∨ ctrlWC c = 4))) := by
  constructor
  · rintro ⟨e, he⟩
    by_contra hno
    simp only [not_or, not_and, not_not] at hno
    obtain ⟨hr, hop, hwidth, henum⟩ := hno
    obtain ⟨op, ho⟩ := Option.ne_none_iff_exists'.1 (mt opOfCode_eq_none_iff.1 hop)
    have ho := opOfCode_eq_some.1 ho
    have legal : ∀ i, decode c ≠ .ok i := fun i hi => by rw [hi] at he; cases he
    by_cases hget : op = .fget
    · subst hget
      obtain ⟨w, hw⟩ := Option.ne_none_iff_exists'.1 (mt widthOfCode_eq_none_iff.1 (hwidth (.inl ho)))
      exact legal _ ((decode_eq_fget_iff hr ho).2 (widthOfCode_eq_some.1 hw))
    by_cases hset : op = .fset
    · subst hset
      obtain ⟨w, hw⟩ := Option.ne_none_iff_exists'.1 (mt widthOfCode_eq_none_iff.1 (hwidth (.inr ho)))
      have hw := widthOfCode_eq_some.1 hw
      refine legal _ ((decode_eq_fset_iff hr ho).2 ⟨hw, rfl, fun ⟨hE, hwide⟩ => ?_⟩)
      rw [fifteen_le_bits_iff, ← hw] at hwide
      exact hwide.elim (henum ho hE).1 (henum ho hE).2
    · obtain ⟨i, hi⟩ := decode_of_op_without_width hr ho hget hset
      exact legal i hi
  · intro h
    by_cases hr : ctrlRSV c = 0
    · obtain h | h | ⟨ho, hw⟩ | ⟨ho, hE, hw⟩ := h
      · exact absurd hr h
      · exact ⟨_, decode_reservedOp hr (opOfCode_eq_none_iff.2 h)⟩
      · exact ⟨_, decode_reservedWidth hr ho hw⟩
      · obtain hw | hw := hw
        · exact ⟨_, decode_enumWidth (w := .w15) hr ho hw hE (by decide)⟩
        · exact ⟨_, decode_enumWidth (w := .w16) hr ho hw hE (by decide)⟩
    · exact ⟨_, decode_reservedBits hr⟩

/-- The operations without a width ignore the width code and the enumeration bit (R59, R64). -/
theorem decode_congr_of_op_without_width (hr : ctrlRSV c' = ctrlRSV c) (ho : ctrlOp c' = ctrlOp c)
    (hb : ctrlB c' = ctrlB c) (hget : ctrlOp c ≠ Op.fget.code) (hset : ctrlOp c ≠ Op.fset.code) :
    decode c' = decode c := by
  by_cases h0 : ctrlRSV c = 0
  · cases hop : opOfCode (ctrlOp c) with
    | none => rw [decode_reservedOp h0 hop, decode_reservedOp (hr.trans h0) (by rw [ho, hop])]
    | some op =>
      have hcode := opOfCode_eq_some.1 hop
      cases op with
      | fget => exact absurd hcode hget
      | fset => exact absurd hcode hset
      | _ => simp [decode, hr, ho, hb, h0, hop]
  · rw [decode_reservedBits h0, decode_reservedBits (hr ▸ h0)]

/-- Control words that agree beside the width code have the other fields alike. -/
theorem ctrl_fields_of_agree (h : c' &&& 0xFF8F = c &&& 0xFF8F) :
    ctrlRSV c' = ctrlRSV c ∧ ctrlB c' = ctrlB c ∧ ctrlOp c' = ctrlOp c := by
  have keep3 : ∀ x : BitVec 3, x &&& ctrlRSV 0xFF8F = x := by decide
  have keep5 : ∀ x : BitVec 5, x &&& ctrlB 0xFF8F = x := by decide
  have keep4 : ∀ x : BitVec 4, x &&& ctrlOp 0xFF8F = x := by decide
  obtain ⟨hr, hb, -, -, ho⟩ := ctrl_and c 0xFF8F
  obtain ⟨hr', hb', -, -, ho'⟩ := ctrl_and c' 0xFF8F
  rw [h] at hr' hb' ho'
  rw [keep3] at hr hr'
  rw [keep5] at hb hb'
  rw [keep4] at ho ho'
  exact ⟨hr'.symm.trans hr, hb'.symm.trans hb, ho'.symm.trans ho⟩

end

/-- `FSET` reads `M` with the enumeration check alone (R64, R84). -/
theorem fsetResponse_congr {w : Width} {e : Bool} {sh : BitVec 5} {q q' : Request} (ha : q'.a = q.a) (hd : q'.d = q.d)
    (hv : q'.v = q.v) (hm : e = true → q'.m = q.m) : fsetResponse w e sh q' = fsetResponse w e sh q := by
  have hlegal : legal w e q.v q'.m = legal w e q.v q.m := by
    cases e with
    | false => rfl
    | true => rw [hm rfl]
  simp only [fsetResponse, ha, hd, hv, hlegal]

/-! ### The statements on control words -/

/-- Settles O8, operation by operation (`Laws.RoundTrip`). -/
theorem decodeInvertsEncode : Obligations.DecodeInvertsEncode := by
  intro i hi
  cases i with
  | toalias b => exact Laws.RoundTrip.toalias b hi
  | fromalias => exact Laws.RoundTrip.fromalias hi
  | pinlookup => exact Laws.RoundTrip.pinlookup hi
  | fget w sh => exact Laws.RoundTrip.fget w sh hi
  | fset w e sh => exact Laws.RoundTrip.fset w e sh hi
  | bitwr b => exact Laws.RoundTrip.bitwr b hi
  | srenc p => exact Laws.RoundTrip.srenc p hi

/-- Settles O10: a word decodes to an instruction where the bits it reads are those of the instruction's encoding
(`decode_eq_ok_iff`). -/
theorem decodingDependsOnReadBitsAlone : Obligations.DecodingDependsOnReadBitsAlone := by
  intro c c' i hd
  obtain ⟨hwf, hbits⟩ := decode_eq_ok_iff.1 hd
  refine ⟨hwf, ?_⟩
  rw [decode_eq_ok_iff, hbits]
  exact and_iff_right hwf

/-- Settles O9: `bbfp` and `present` ask `decode` first, which fails on R63's conditions alone. -/
theorem illegalExactlyWhenListed : Obligations.IllegalExactlyWhenListed := by
  intro P q
  refine ⟨?_, ?_, decode_eq_error_iff⟩
  · cases hd : decode q.ctrl with
    | error e => simp [bbfp, hd]
    | ok i =>
      simp only [bbfp, hd]
      cases respond P i q <;> simp
  · rintro s rfl ⟨e, he⟩
    simp only [present, he, Response.illegal]

/-- Settles O11: the request decodes to the same instruction, and its operation reads the same operands. -/
theorem ignoredOperandsChangeNothing : Obligations.IgnoredOperandsChangeNothing := by
  intro P q q' i hd hbits hops
  have hd' : decode q'.ctrl = .ok i := (decodingDependsOnReadBitsAlone _ _ _ hd).2.2 hbits
  have hresp : respond P i q' = respond P i q := by
    cases i with
    | toalias b => simp only [respond, toaliasResponse, hops]
    | fromalias => simp only [respond, fromaliasResponse, hops]
    | pinlookup => simp only [respond, pinlookupResponse, hops]
    | fget w sh => simp only [respond, fgetResponse, hops]
    | fset w e sh =>
      obtain ⟨ha, hd, hv, hm⟩ := hops
      exact fsetResponse_congr ha hd hv hm
    | bitwr b => simp only [respond, bitwrResponse, hops]
    | srenc p => simp only [respond, srencResponse, hops]
  simp only [bbfp, hd, hd', hresp]

/-- Settles O13: the width code of an `FGET` or `FSET` is the one of R59's row, and the other operations do not read
it. -/
theorem widthCodesNameTheFiveWidths : Obligations.WidthCodesNameTheFiveWidths := by
  intro c names hr hnames
  have hcode : ∀ w, names w ↔ ctrlWC c = w.code := fun w => (hnames w).trans widthTable_iff
  refine ⟨fun ho => ⟨fun w => (decode_eq_fget_iff hr ho).trans (hcode w).symm, decode_reservedWidth hr (.inl ho)⟩,
    fun ho => ⟨fun he w => ?_, fun he w => ?_, decode_reservedWidth hr (.inr ho)⟩, fun hget hset c' hc' => ?_⟩
  · refine (decode_eq_fset_iff hr ho).trans ?_
    rw [hcode]
    exact and_iff_left ⟨he, by simp⟩
  · refine (decode_eq_fset_iff hr ho).trans ?_
    rw [hcode]
    exact and_congr_right fun _ => ⟨fun ⟨_, hnarrow⟩ => Nat.not_le.1 fun hwide => hnarrow ⟨rfl, hwide⟩,
      fun hlt => ⟨he, fun hwide => Nat.not_le.2 hlt hwide.2⟩⟩
  · obtain ⟨hr', hb', ho'⟩ := ctrl_fields_of_agree hc'
    exact decode_congr_of_op_without_width hr' ho' hb' hget hset

/-- Settles O12, word by word. -/
theorem writtenOutWordsDecode : Obligations.WrittenOutWordsDecode := by
  unfold Obligations.WrittenOutWordsDecode
  decide

end Sys2Proof.Machine

/-! Proofs: agents that run well-formed access sequences go on, but for an alias write that has no step. -/

namespace Sys2Proof.Machine

/-! ### Agents that run access sequences alone -/

/-- What is left of such a program holds no bare line either. -/
theorem Agent.sequencesOnly_of_suffix {a b : Agent} (h : a.sequencesOnly) (hs : b.code <:+ a.code) : b.sequencesOnly :=
  fun i hi => h i (hs.subset hi)

/-- A step leaves no agent a bare line that it did not have. -/
theorem step_keeps_sequencesOnly {s t : State} (hso : ∀ ag ∈ s.agents, ag.sequencesOnly) (ht : step s = .next t) :
    ∀ ag ∈ t.agents, ag.sequencesOnly := by
  intro ag hag
  obtain ⟨id, ha⟩ := State.mem_agents.1 hag
  obtain ⟨old, hold, hshrinks⟩ := step_program ht ha
  exact Agent.sequencesOnly_of_suffix (hso old (State.mem_agents.2 ⟨id, hold⟩)) hshrinks.code

/-- The next line of an agent without bare lines is one of the sequence in progress. -/
theorem Agent.running_of_nextLine {ag : Agent} {l : Line} (hso : ag.sequencesOnly) (h : ag.nextLine = some l) :
    ∃ q ls, ag.running = some ⟨q, l :: ls⟩ := by
  unfold Agent.nextLine at h
  split at h
  · rename_i run hr
    obtain ⟨ls, hls⟩ := List.head?_eq_some_iff.1 h
    exact ⟨run.seq, ls, by rw [hr, ← hls]⟩
  · split at h
    · rename_i hcode
      exact False.elim (hso _ (by rw [hcode]; exact List.mem_cons_self))
    · cases h

/-! ### Where a step stops an agent -/

/-- An agent that a step stops is the scheduled one, which had not stopped, and the line it runs faults. -/
theorem step_stops {s t : State} (ht : step s = .next t) {id : AgentId} {old new : Agent}
    (hold : s.agent? id = some old) (hnew : t.agent? id = some new) (hne : new.stopped ≠ old.stopped) :
    s.sched.head? = some id ∧ ∃ l f, old.nextLine = some l ∧ runLine id old l s = .fault f ∧ new.stopped = some f := by
  obtain ⟨-, ⟨-, rfl⟩ | ⟨id', rest, hs, hturn⟩⟩ := step_next ht
  · obtain rfl := Option.some.inj (hold.symm.trans hnew)
    exact absurd rfl hne
  have hold' : State.agent? { s with sched := rest } id = some old := (State.agent?_congr rfl rfl rfl id).trans hold
  have same : t.agent? id = State.agent? { s with sched := rest } id → False := fun e => by
    obtain rfl := Option.some.inj (hnew.symm.trans (e.trans hold'))
    exact hne rfl
  obtain ⟨-, rfl⟩ | ⟨ag, ha, hst, hag⟩ := turn_next hturn
  · exact (same rfl).elim
  by_cases hid : id' = id
  · subst hid
    obtain rfl := Option.some.inj (ha.symm.trans hold')
    refine ⟨by rw [hs]; rfl, ?_⟩
    obtain ⟨mine, hm, hms⟩ | ⟨l, f, u, hl, hu, hf, rfl⟩ := agentTurn_stopped ha hst hag
    · obtain rfl := Option.some.inj (hm.symm.trans hnew)
      exact absurd (hms.trans hst.symm) hne
    · obtain rfl := Option.some.inj ((faulted_agent?_same ha ..).symm.trans hnew)
      have hcfg : u.cfg = s.cfg ∧ u.draws = s.draws := by
        obtain rfl | ⟨ag', rfl⟩ := hu
        · exact ⟨rfl, rfl⟩
        · exact ⟨by simp, by simp⟩
      exact ⟨l, f, hl, runLine_fault_congr hcfg.1.symm hcfg.2.symm hf, rfl⟩
  · exact (same ((agentTurn_frame hag).others id hid)).elim

/-- A line of a well-formed sequence that faults is the alias write of a lock bit or of a set/reset bit
(`runLine_progress`). -/
theorem runLine_fault_unadmittedSet {s : State} (hi : s.Inv) {id : AgentId} {ag : Agent} (ha : s.agent? id = some ag)
    {q : AccessSeq} {l : Line} {ls : List Line} (hr : ag.running = some ⟨q, l :: ls⟩) {f : Fault}
    (hf : runLine id ag l s = .fault f) : UnadmittedSet s.cfg ag q l ls f := by
  obtain ⟨hq, -, hsuf, hholds⟩ := hi.2.2.2 ag (State.mem_agents.2 ⟨id, ha⟩) _ hr
  obtain ⟨u, hu⟩ | ⟨f', hf', hset⟩ := runLine_progress hi.valid hq hsuf hholds
  · rw [hu] at hf
    cases hf
  · obtain rfl := Host.Outcome.fault.inj (hf'.symm.trans hf)
    exact hset

/-- Settles O60: a step always answers and keeps the invariant, and an agent it stops was at a line of a sequence that
faults. -/
theorem wellFormedProgramsMeetEveryPrecondition : Obligations.WellFormedProgramsMeetEveryPrecondition := by
  intro s hi hso
  obtain ⟨t, ht⟩ := step_ok hi.checked
  refine ⟨t, ht, stepsKeepTheInvariant s t hi ht, step_keeps_sequencesOnly hso ht, fun id old new hold hnew hne => ?_⟩
  obtain ⟨hhead, l, f, hl, hf, hstop⟩ := step_stops ht hold hnew hne
  obtain ⟨q, ls, hr⟩ := Agent.running_of_nextLine (hso old (State.mem_agents.2 ⟨id, hold⟩)) hl
  obtain ⟨⟨base, r, b, v, x, hb, hreg, rfl, hx, hwe, rfl⟩, rfl, rfl⟩ := runLine_fault_unadmittedSet hi hold hr hf
  exact ⟨hhead, base, r, b, v, x, hb, hreg, by rw [hr, ofNat_regAddr], hx, hwe, hstop⟩

end Sys2Proof.Machine

/-! Proofs: the checks of R68 in the rule's own terms, and the programs of access sequences that fail them. -/

namespace Sys2Proof.Machine

variable {P : Params}

/-! ### Rows of R21 by address (WF1) -/

/-- The row `f` of R21 names the field of width `w` at shift `sh` of the register at `reg`, which lies in the listed
block at `base` (R68 WF1). -/
def FieldNamed (P : Params) (reg : Addr) (sh : BitVec 5) (w : Width) (base : Nat) (f : FieldRow) : Prop :=
  base ∈ P.gpioBases ∧ f ∈ layout ∧ f.width = w ∧ reg = BitVec.ofNat 32 (base + P.off f.reg) ∧
    ∃ i < f.count, sh.toNat = f.first + f.stride * i

section
variable {reg : Addr} {sh : BitVec 5} {w : Width} {base : Nat} {f : FieldRow}

/-- The address of a named field is its register's. -/
theorem FieldNamed.regAddr (h : FieldNamed P reg sh w base f) : reg = regAddr P (BitVec.ofNat 32 base) f.reg := by
  obtain ⟨-, -, -, rfl, -⟩ := h
  exact ofNat_regAddr P base f.reg

/-- The row that names a field is the one that is found. -/
theorem FieldNamed.fieldAt (hv : P.Valid) (h : FieldNamed P reg sh w base f) : fieldAt P reg sh w = some f := by
  have hreg := h.regAddr
  obtain ⟨hb, hf, rfl, -, i, hi, hsh⟩ := h
  rw [hreg]
  exact fieldAt_row hv hb hf hi hsh

/-- Where no row names the field, none is found. -/
theorem fieldAt_eq_none (hv : P.Valid) (h : ∀ base f, ¬ FieldNamed P reg sh w base f) : fieldAt P reg sh w = none := by
  cases hf : fieldAt P reg sh w with
  | none => rfl
  | some f =>
    obtain ⟨base, hb, hreg, hfl, hfw, hi⟩ := fieldAt_some hv hf
    exact absurd ⟨hb, hfl, hfw, hreg.trans (ofNat_regAddr P base f.reg).symm, hi⟩ (h base f)

/-- The block and register of a named field. -/
theorem FieldNamed.locate (hv : P.Valid) (h : FieldNamed P reg sh w base f) : locate P reg = some (base, f.reg) := by
  obtain ⟨hblock, hreg⟩ := locate_regAddr hv h.1 f.reg
  rw [h.regAddr]
  simp only [Machine.locate, hblock, hreg]

/-! ### Gets and sets (WF1 to WF4, WF7, R23) -/

theorem checkGet_unnamed (hv : P.Valid) (h : ∀ base f, ¬ FieldNamed P reg sh w base f) :
    checkGet P reg sh w = some .wf1 := by
  simp only [checkGet, fieldAt_eq_none hv h]

theorem checkGet_writeOnly (hv : P.Valid) (h : FieldNamed P reg sh w base f) (ha : f.access = .writeOnly) :
    checkGet P reg sh w = some .wf3 := by
  simp only [checkGet, h.fieldAt hv, ha]

theorem checkGet_placeholder (hv : P.Valid) (h : FieldNamed P reg sh w base f) (ha : f.access = .none) :
    checkGet P reg sh w = some .placeholderTarget := by
  simp only [checkGet, h.fieldAt hv, ha]

theorem checkGet_readable (hv : P.Valid) (h : FieldNamed P reg sh w base f)
    (ha : f.access = .readOnly ∨ f.access = .readWrite) : checkGet P reg sh w = none := by
  obtain ha | ha := ha
  · simp only [checkGet, h.fieldAt hv, ha]
  · simp only [checkGet, h.fieldAt hv, ha]

theorem checkSet_unnamed (hv : P.Valid) (h : ∀ base f, ¬ FieldNamed P reg sh w base f) :
    checkSet P reg sh w = some .wf1 := by
  simp only [checkSet, fieldAt_eq_none hv h]

theorem checkSet_unwritable (hv : P.Valid) (h : FieldNamed P reg sh w base f)
    (ha : f.access = .readOnly ∨ f.access = .none) : checkSet P reg sh w = some .wf2 := by
  obtain ha | ha := ha
  · simp only [checkSet, h.fieldAt hv, ha]
  · simp only [checkSet, h.fieldAt hv, ha]

theorem checkSet_writable (hv : P.Valid) (h : FieldNamed P reg sh w base f)
    (ha : f.access = .readWrite ∨ f.access = .writeOnly) : checkSet P reg sh w = none := by
  obtain ha | ha := ha
  · simp only [checkSet, h.fieldAt hv, ha]
  · simp only [checkSet, h.fieldAt hv, ha]

/-- A set by `FSET` fails the checks of any set. -/
theorem checkWideSet_of_checkSet {c : ProgramCheck} (h : checkSet P reg sh w = some c) (e : Bool)
    (valid : Option ProgramCheck) : checkWideSet P w e reg sh valid = some c := by
  simp only [checkWideSet, h]

/-- One of width 1 fails WF4. -/
theorem checkWideSet_w1 (h : checkSet P reg sh .w1 = none) (e : Bool) (valid : Option ProgramCheck) :
    checkWideSet P .w1 e reg sh valid = some .wf4 := by
  simp only [checkWideSet, h, if_true]

/-- A wider one with `E = 1` is left to WF7. -/
theorem checkWideSet_enum (h : checkSet P reg sh w = none) (hw : w ≠ .w1) (valid : Option ProgramCheck) :
    checkWideSet P w true reg sh valid = valid := by
  simp only [checkWideSet, h, if_neg hw, if_true]

/-- A mask that is not the field's valid set fails WF7. -/
theorem checkValid_wf7 (hv : P.Valid) (h : FieldNamed P reg sh w base f) {m : Half}
    (hm : P.valid.lookup (f.reg, sh.toNat) ≠ some m) : checkValid P reg sh m = some .wf7 := by
  simp only [checkValid, h.locate hv]
  exact if_neg hm

end

/-! ### Handles (WF5, WF6) -/

/-- A handle made from register `r`, as R71's formula has it. -/
theorem isSlot_iff (hv : P.Valid) {r : Reg} {h : Addr} : isSlot P r h = true ↔
    ∃ base ∈ P.gpioBases, ∃ p < 16, h.toNat = P.ab + (base + P.off r - P.rb) * 32 + p * 4 := by
  simp only [isSlot, List.any_eq_true, List.mem_range, decide_eq_true_eq]
  refine exists_congr fun base => and_congr_right fun hb => exists_congr fun p => and_congr_right fun hp => ?_
  have hpin : (BitVec.ofNat 5 p).toNat = p := pin_toNat ⟨p, hp⟩
  rw [← BitVec.toNat_inj, aliasOf_toNat hv.1 (regAddr_inRegion hv hb r) _ (regAddr_aligned hv hb r),
    regAddr_toNat hv hb, hpin, eq_comm]

/-- A handle made from neither data array fails WF6. -/
theorem checkHandle_wf6 {h : Addr} (hidr : isSlot P .idr h ≠ true) (hodr : isSlot P .odr h ≠ true) :
    checkHandle P h = some .wf6 := by
  simp [checkHandle, hidr, hodr]

/-- A `write_output` of a block that is not listed. -/
theorem checkOutput_unlisted {h : PinHandle} (hb : h.base.toNat ∉ P.gpioBases) : checkOutput P h = some .wf1 :=
  if_pos hb

/-- A `write_output` with an input's handle. -/
theorem checkOutput_input {h : PinHandle} (hb : h.base.toNat ∈ P.gpioBases)
    (hr : h.role = .input ∨ h.role = .alternateInput) : checkOutput P h = some .wf5 := by
  rw [checkOutput, if_neg (not_not.2 hb)]
  obtain hr | hr := hr
  · rw [hr]
  · rw [hr]

/-! ### Refusals -/

section
variable {s : State} {i : Item} {code : List Item} {c : ProgramCheck}

/-- The foreground's first item fails a check. -/
theorem step_refused_first (hcf : s.foreground.conf = none) (hcode : s.foreground.code = i :: code)
    (h : checkItem s.cfg (namesOf s.cfg s.foreground) i = some c) : step s = .refused (.illFormedProgram c) :=
  step_refused_of_foreground (checkAgent_first hcf hcode h)

/-- A program with a failed check is refused. -/
theorem step_refused_of_checkProgram (h : checkProgram s ≠ none) : ∃ c, step s = .refused (.illFormedProgram c) := by
  obtain ⟨c, hc⟩ := Option.ne_none_iff_exists'.1 h
  exact ⟨c, by simp only [step, machineStep, hc]⟩

end

/-- A sequence of a list that passes passes. -/
theorem checkSeqs_mem {q : AccessSeq} : ∀ {qs : List AccessSeq}, checkSeqs P qs = none → q ∈ qs → checkSeq P q = none
  | [], _, hq => by cases hq
  | x :: qs, h, hq => by
    obtain ⟨hx, hqs⟩ := checkSeqs_cons.1 h
    obtain rfl | hq := List.mem_cons.1 hq
    · exact hx
    · exact checkSeqs_mem hqs hq

/-- A sequence that an agent with a well-formed program has still to begin passes: one of its program, of a
`configure` in it, or of the `configure` in progress. -/
theorem checkSeq_of_checkAgent {ag : Agent} {q : AccessSeq} (h : checkAgent P ag = none)
    (hq : .seq q ∈ ag.code ∨ (∃ cf, .configure cf ∈ ag.code ∧ q ∈ configureSteps P cf) ∨
      ∃ cf, ag.conf = some cf ∧ q ∈ cf.steps) : checkSeq P q = none := by
  obtain ⟨hconf, hcode⟩ := checkAgent_eq_none.1 h
  obtain hq | ⟨cf, hcf, hq⟩ | ⟨cf, hcf, hq⟩ := hq
  · exact (checkItems_mem hcode hq).choose_spec
  · exact checkSeqs_mem (checkItems_mem hcode hcf).choose_spec hq
  · rw [Agent.confSteps, hcf] at hconf
    exact checkSeqs_mem hconf hq

/-- A sequence that is refused as the whole program of an agent fails a check. -/
theorem checkSeq_of_refused_alone {q : AccessSeq} {r : Refusal}
    (h : step { State.resetOf P with foreground := { code := [.seq q] } } = .refused r) : checkSeq P q ≠ none := by
  intro hq
  have hc : checkProgram { State.resetOf P with foreground := { code := [.seq q] } } = none :=
    checkAgents_eq_none.2 fun ag hag => by
      obtain rfl := List.mem_singleton.1 hag
      exact checkAgent_eq_none.2 ⟨rfl, checkItems_cons.2 ⟨hq, rfl⟩⟩
  obtain ⟨t, ht⟩ := step_ok hc
  rw [ht] at h
  cases h

/-- Settles O21: the sequence is the foreground's first item, so its check names the refusal; and a program passes
only if each of its sequences does. -/
theorem illFormedProgramsAreRefused : Obligations.IllFormedProgramsAreRefused := by
  refine ⟨fun s q code row gets sets slot refused hv hcf hcode hrow hgets hsets hslot hrefused => ?_,
    fun s ag q c hag hq halone => ?_⟩
  · have fails : ∀ {c}, checkSeq s.cfg q = some c → refused c := fun h =>
      (hrefused _).2 (step_refused_first hcf hcode h)
    have named : ∀ {base f reg sh w}, row base f reg sh w → FieldNamed s.cfg reg sh w base f := (hrow _ _ _ _ _).1
    have unnamed : ∀ {reg sh w}, (∀ base f, ¬ row base f reg sh w) → ∀ base f, ¬ FieldNamed s.cfg reg sh w base f :=
      fun h base f hf => h base f ((hrow _ _ _ _ _).2 hf)
    have get : ∀ {reg sh w}, gets reg sh w → checkSeq s.cfg q = checkGet s.cfg reg sh w := fun h => by
      obtain rfl | ⟨rfl, rfl⟩ := (hgets _ _ _).1 h
      · rfl
      · rfl
    have set : ∀ {reg sh w c}, sets reg sh w → checkSet s.cfg reg sh w = some c → checkSeq s.cfg q = some c :=
      fun h hc => by
        obtain ⟨e, v, m, rfl⟩ | ⟨rfl, v, rfl⟩ := (hsets _ _ _).1 h
        · exact checkWideSet_of_checkSet hc ..
        · exact hc
    have noSlot : ∀ {r h}, ¬ slot r h → isSlot s.cfg r h ≠ true := fun h hs =>
      h ((hslot _ _).2 ((isSlot_iff hv).1 hs))
    refine ⟨fun reg sh w h hno => ?_,
      fun reg sh w base f h hf ha => fails (set h (checkSet_unwritable hv (named hf) ha)),
      fun reg sh w base f h hf ha => fails ((get h).trans (checkGet_writeOnly hv (named hf) ha)),
      fun reg sh w base f h hf ha => fails ((get h).trans (checkGet_placeholder hv (named hf) ha)),
      ?_, ?_, ?_, ?_, ?_, ?_⟩
    · obtain h | h := h
      · exact fails ((get h).trans (checkGet_unnamed hv (unnamed hno)))
      · exact fails (set h (checkSet_unnamed hv (unnamed hno)))
    · rintro reg sh e v m base f rfl hf ha
      exact fails (checkWideSet_w1 (checkSet_writable hv (named hf) ha) ..)
    · intro h v hq
      have hout : checkSeq s.cfg q = checkOutput s.cfg h := by
        obtain rfl | rfl := hq
        · rfl
        · rfl
      exact ⟨fun hb => fails (hout.trans (checkOutput_unlisted hb)),
        fun hb hr => fails (hout.trans (checkOutput_input hb hr))⟩
    · rintro h rfl hno
      exact fails (if_neg (noSlot hno))
    · rintro h rfl hno
      exact fails (if_neg (noSlot hno))
    · rintro h rfl hidr hodr
      exact fails (checkHandle_wf6 (noSlot hidr) (noSlot hodr))
    · rintro w reg sh v m base f rfl hw hf ha hm
      exact fails ((checkWideSet_enum (checkSet_writable hv (named hf) ha) hw _).trans
        (checkValid_wf7 hv (named hf) hm))
  · exact step_refused_of_checkProgram fun hc =>
      checkSeq_of_refused_alone halone (checkSeq_of_checkAgent (checkAgents_eq_none.1 hc ag hag) hq)

end Sys2Proof.Machine

/-! Proofs: the sequences that bare lines make up, with the names that lines and access sequences bind, are held to
the checks of R68. -/

namespace Sys2Proof.Machine

variable {P : Params} {env : StaticNames}

/-! ### What lines bind -/

section
variable {x : Name} {c : Half} {i : Instr} {a d : Operand} {v m : NarrowOperand}

/-- After a request its name stands for the operation asked. -/
theorem asked_after_request (hd : decode c = .ok i) :
    (env.after P (.request x c a d v m)).asked x = .known (some i) := by
  simp [StaticNames.after, bindName, hd]

/-- And for its `A`, where that is a literal. -/
theorem addr_after_request (reg : Addr) : (env.after P (.request x c (.lit reg) d v m)).addr x = .known reg := by
  simp [StaticNames.after, bindName, Operand.static]

/-- After a read from a literal address its name stands for that address. -/
theorem source_after_ld (n : Nat) (reg : Addr) : (env.after P (.ld x n (.lit reg))).source x = .known reg := by
  simp [StaticNames.after, bindName, Operand.static]

/-- After a bit read, `$r` stands for its `TOALIAS` (R47, R70). -/
theorem asked_after_readBit (reg : Addr) (b : BitVec 5) :
    (env.afterItem P (.seq (.readBit reg b))).asked .r = .known (some (.toalias b)) ∧
      (env.afterItem P (.seq (.readBit reg b))).addr .r = .known reg :=
  ⟨asked_after_request (env := env) (P := P) (x := .r) (a := .lit reg) (d := .lit 0) (v := .lit 0) (m := .lit 0)
      (decode_encode_toalias b),
    addr_after_request (env := env) (P := P) (x := .r) (c := encode (.toalias b)) (d := .lit 0) (v := .lit 0)
      (m := .lit 0) reg⟩

/-- After a get, `$t` stands for the word it reads (R48, R70). -/
theorem source_after_get (w : Width) (reg : Addr) (sh : BitVec 5) :
    (env.afterItem P (.seq (.get w reg sh))).source .t = .known reg :=
  source_after_ld (env := env) (P := P) (x := .t) 4 reg

/-! ### The check of each line -/

/-- A `TOALIAS`, `FROMALIAS`, `BITWR` or `SRENC` completes no sequence. -/
theorem checkLine_request_none (hd : decode c = .ok i) (hop : i.op ∉ [Op.pinlookup, .fget, .fset]) :
    checkLine P env (.request x c a d v m) = none := by
  simp only [checkLine, hd]
  cases i with
  | pinlookup => simp [Instr.op] at hop
  | fget w sh => simp [Instr.op] at hop
  | fset w e sh => simp [Instr.op] at hop
  | _ => rfl

/-- Nor does an `FSET` with `E = 0`. -/
theorem checkLine_fset_none {w : Width} {sh : BitVec 5} (hd : decode c = .ok (.fset w false sh)) :
    checkLine P env (.request x c a d v m) = none := by
  simp only [checkLine, hd]

/-- One with `E = 1` is held to WF7 where it stands. -/
theorem checkLine_fset_enum {w : Width} {sh : BitVec 5} (hd : decode c = .ok (.fset w true sh)) {reg : Addr} {m : Half}
    {base : Nat} {r : Reg} (hl : locate P reg = some (base, r)) :
    checkLine P env (.request x c (.lit reg) d v (.lit m)) = checkValid P reg sh m := by
  simp only [checkLine, hd, checkMask, Operand.static, hl, NarrowOperand.static, Static.check]

/-- A `PINLOOKUP` is held to WF6. -/
theorem checkLine_pinlookup (hd : decode c = .ok .pinlookup) :
    checkLine P env (.request x c a d v m) = (handleOf P env a).check .wf6 (checkHandle P) := by
  simp only [checkLine, hd]

/-- An `FGET` of a word read from a known address is a get from there. -/
theorem checkLine_fget {w : Width} {sh : BitVec 5} (hd : decode c = .ok (.fget w sh)) {y : Name} {reg : Addr}
    (hs : env.source y = .known reg) : checkLine P env (.request x c a (.word y) v m) = checkGet P reg sh w := by
  simp only [checkLine, hd, hs, Static.check]

/-- The conditional write of a `BITWR` is a set of width 1. -/
theorem checkLine_stWe_bitwr {b : BitVec 5} {reg : Addr} (hasked : env.asked x = .known (some (.bitwr b)))
    (haddr : env.addr x = .known reg) : checkLine P env (.stWe x) = checkSet P reg b .w1 := by
  simp only [checkLine, hasked, haddr, Static.check]

/-- That of an `FSET` is a set by `FSET`. -/
theorem checkLine_stWe_fset {w : Width} {sh : BitVec 5} {reg : Addr}
    (hasked : env.asked x = .known (some (.fset w false sh))) (haddr : env.addr x = .known reg) :
    ∃ valid, checkLine P env (.stWe x) = checkWideSet P w false reg sh valid := by
  simp only [checkLine, hasked, haddr, Static.check]
  exact ⟨_, rfl⟩

/-- A read outside the alias window is checked with the request that uses its word. -/
theorem checkAliasRead_outside {y : Addr} (h : ¬ inWindow P y) : checkAliasRead P y = none :=
  if_neg fun hy => h hy.1

/-- The read of an alias word is a get of its bit. -/
theorem checkAliasRead_inside {y : Addr} (hw : inWindow P y) (h4 : wordAligned y) :
    checkAliasRead P y = checkGet P (aliasReg P y) (aliasBit P y) .w1 := if_pos ⟨hw, h4⟩

end

/-- The row that names the bit of an alias word, by R72's formulas. -/
theorem fieldNamed_alias_iff (hv : P.Valid) {y : Addr} (hw : inWindow P y) {base : Nat} {f : FieldRow} :
    FieldNamed P (aliasReg P y) (aliasBit P y) .w1 base f ↔ base ∈ P.gpioBases ∧ f ∈ layout ∧ f.width = .w1 ∧
      P.rb + (y.toNat - P.ab) / 128 * 4 = base + P.off f.reg ∧
      ∃ i < f.count, (y.toNat - P.ab) / 4 % 32 = f.first + f.stride * i := by
  refine and_congr_right fun hb => and_congr_right fun _ => and_congr_right fun _ => and_congr ?_ ?_
  · rw [← aliasReg_toNat hv.1 hw, ofNat_regAddr, ← regAddr_toNat hv hb, BitVec.toNat_inj]
  · rw [aliasBit_toNat]

/-! ### Handles by value -/

section
variable {x : Name} {reg : Addr} {b : BitVec 5} {i : Instr}

/-- The `Y` of a request other than `TOALIAS` is no handle. -/
theorem handleOf_y_other (hasked : env.asked x = .known (some i)) (h : ∀ b, i ≠ .toalias b) :
    handleOf P env (.y x) = .notStatic := by
  simp only [handleOf, hasked, Static.bind]
  split
  · rename_i b hi
    exact absurd (Option.some.inj hi) (h b)
  · rfl

/-- That of a `TOALIAS` of a known address is one where its preconditions are met. -/
theorem handleOf_y_toalias (hasked : env.asked x = .known (some (.toalias b))) (haddr : env.addr x = .known reg) :
    handleOf P env (.y x) = staticY P (some (.toalias b)) reg := by
  simp only [handleOf, hasked, haddr, Static.bind]

/-- The alias of a bit of a region word is a handle of register `r` only if the word is that register of a listed
block and the bit is a pin's (R71, R74). -/
theorem isSlot_aliasOf (hv : P.Valid) (hin : inRegion P reg) (h4 : wordAligned reg) {r : Reg}
    (h : isSlot P r (aliasOf P reg b) = true) :
    b.toNat < 16 ∧ ∃ base ∈ P.gpioBases, reg = regAddr P (BitVec.ofNat 32 base) r := by
  obtain ⟨base, hb, p, hp, e⟩ := isSlot_ok h
  have hreg := congrArg (aliasReg P) e
  have hbit := congrArg (aliasBit P) e
  rw [aliasReg_aliasOf hv.1 hin h4, aliasReg_aliasOf hv.1 (regAddr_inRegion hv hb r) (regAddr_aligned hv hb r)] at hreg
  rw [aliasBit_aliasOf hv.1 hin h4, aliasBit_aliasOf hv.1 (regAddr_inRegion hv hb r) (regAddr_aligned hv hb r)] at hbit
  have hpin : (BitVec.ofNat 5 p).toNat = p := pin_toNat ⟨p, hp⟩
  exact ⟨by rw [hbit, hpin]; exact hp, base, hb, hreg⟩

/-- The `Y` of a `TOALIAS` of anything but a pin of IDR or ODR of a listed block fails WF6, a violated precondition
included. -/
theorem check_toalias_wf6 (hv : P.Valid)
    (h : b.toNat < 16 → ∀ base ∈ P.gpioBases, reg ≠ regAddr P (BitVec.ofNat 32 base) .idr ∧
      reg ≠ regAddr P (BitVec.ofNat 32 base) .odr) :
    (staticY P (some (.toalias b)) reg).check .wf6 (checkHandle P) = some .wf6 := by
  by_cases hpre : inRegion P reg ∧ wordAligned reg
  · rw [staticY_toalias hpre.1 hpre.2]
    refine checkHandle_wf6 (fun hs => ?_) fun hs => ?_
    · obtain ⟨hb, base, hbase, e⟩ := isSlot_aliasOf hv hpre.1 hpre.2 hs
      exact (h hb base hbase).1 e
    · obtain ⟨hb, base, hbase, e⟩ := isSlot_aliasOf hv hpre.1 hpre.2 hs
      exact (h hb base hbase).2 e
  · rw [staticY_toalias_violated hpre]
    rfl

end

/-! ### Refusals of lines -/

section
variable {s : State} {q : AccessSeq} {l l' : Line} {code : List Item} {k : ProgramCheck}

/-- The foreground's first line fails a check. -/
theorem step_refused_line (hcf : s.foreground.conf = none) (hcode : s.foreground.code = .line l :: code)
    (h : checkLine s.cfg (namesOf s.cfg s.foreground) l = some k) : step s = .refused (.illFormedProgram k) :=
  step_refused_first hcf hcode h

/-- Its first line passes, and its second fails a check with the names that the first binds. -/
theorem step_refused_line_line (hcf : s.foreground.conf = none)
    (hcode : s.foreground.code = .line l :: .line l' :: code)
    (hl : checkLine s.cfg (namesOf s.cfg s.foreground) l = none)
    (h : checkLine s.cfg ((namesOf s.cfg s.foreground).after s.cfg l) l' = some k) :
    step s = .refused (.illFormedProgram k) :=
  step_refused_of_foreground (checkAgent_second hcf hcode hl h)

/-- Its first sequence passes, and the line after it fails a check with the names that the sequence binds. -/
theorem step_refused_seq_line (hcf : s.foreground.conf = none) (hcode : s.foreground.code = .seq q :: .line l :: code)
    (hq : checkSeq s.cfg q = none)
    (h : checkLine s.cfg ((namesOf s.cfg s.foreground).afterItem s.cfg (.seq q)) l = some k) :
    step s = .refused (.illFormedProgram k) :=
  step_refused_of_foreground (checkAgent_second hcf hcode hq h)

end

/-- The `Y` of a request that makes no handle of a pin, given to `PINLOOKUP`, is refused (WF6). -/
theorem step_refused_pinlookup {s : State} {code : List Item} {x y : Name} {c c' : Half} {reg : Addr} {d d' : Operand}
    {v v' m m' : NarrowOperand} {i : Instr} (hv : s.cfg.Valid) (hcf : s.foreground.conf = none)
    (hcode : s.foreground.code =
      .line (.request x c (.lit reg) d v m) :: .line (.request y c' (.y x) d' v' m') :: code)
    (hc : decode c = .ok i) (hop : i.op ∉ [Op.pinlookup, .fget, .fset]) (hc' : decode c' = .ok .pinlookup)
    (h : ∀ b, i = .toalias b → b.toNat < 16 → ∀ base ∈ s.cfg.gpioBases,
      reg ≠ regAddr s.cfg (BitVec.ofNat 32 base) .idr ∧ reg ≠ regAddr s.cfg (BitVec.ofNat 32 base) .odr) :
    step s = .refused (.illFormedProgram .wf6) := by
  refine step_refused_line_line hcf hcode (checkLine_request_none hc hop) ?_
  rw [checkLine_pinlookup hc']
  by_cases ht : ∃ b, i = .toalias b
  · obtain ⟨b, rfl⟩ := ht
    rw [handleOf_y_toalias (asked_after_request hc) (addr_after_request reg)]
    exact check_toalias_wf6 hv (h b rfl)
  · rw [handleOf_y_other (asked_after_request hc) fun b hi => ht ⟨b, hi⟩]
    rfl

/-! ### The statements -/

/-- Settles O22: each line's check, with what the line before it binds. -/
theorem illFormedLinesAreRefused : Obligations.IllFormedLinesAreRefused := by
  intro s code x y c c' reg sh w d d' a' v v' m' m row refused hv hcf hrow hrefused
  have named : ∀ {base f}, row base f → FieldNamed s.cfg reg sh w base f := (hrow _ _).1
  have unnamed : (∀ base f, ¬ row base f) → ∀ base f, ¬ FieldNamed s.cfg reg sh w base f :=
    fun h base f hf => h base f ((hrow _ _).2 hf)
  refine ⟨fun b hcode hc hc' hreg => (hrefused _).2 ?_, fun base f hcode hc hf hm => (hrefused _).2 ?_,
    fun hcode hc => ?_, ?_, fun hcode hc => ?_⟩
  · simp only [ofNat_regAddr] at hreg
    obtain hc | hc | hc | hc := hc
    · exact step_refused_pinlookup hv hcf hcode hc (by simp [Instr.op]) hc' fun b' hb' => by cases hb'; exact hreg hc
    · exact step_refused_pinlookup hv hcf hcode hc (by simp [Instr.op]) hc' (by simp)
    · exact step_refused_pinlookup hv hcf hcode hc (by simp [Instr.op]) hc' (by simp)
    · exact step_refused_pinlookup hv hcf hcode hc (by simp [Instr.op]) hc' (by simp)
  · exact step_refused_line hcf hcode
      ((checkLine_fset_enum hc ((named hf).locate hv)).trans (checkValid_wf7 hv (named hf) hm))
  · have second : ∀ {k}, ¬ inWindow s.cfg reg → checkGet s.cfg reg sh w = some k → refused k := fun hout hk =>
      (hrefused _).2 (step_refused_line_line hcf hcode (checkAliasRead_outside hout)
        ((checkLine_fget hc (source_after_ld 4 reg)).trans hk))
    have outside : ∀ {base f}, row base f → ¬ inWindow s.cfg reg := fun hf => by
      rw [(named hf).regAddr]
      exact inRegion_not_inWindow hv (regAddr_inRegion hv (named hf).1 _)
    refine ⟨fun base f hf ha => second (outside hf) (checkGet_writeOnly hv (named hf) ha),
      fun base f hf ha => second (outside hf) (checkGet_placeholder hv (named hf) ha), fun hno => ?_⟩
    have hwf1 := checkGet_unnamed hv (unnamed hno)
    refine ⟨?_, fun hout => second hout hwf1⟩
    cases hfirst : checkAliasRead s.cfg reg with
    | some k => exact ⟨k, (hrefused _).2 (step_refused_line hcf hcode hfirst)⟩
    | none => exact ⟨.wf1, (hrefused _).2 (step_refused_line_line hcf hcode hfirst
        ((checkLine_fget hc (source_after_ld 4 reg)).trans hwf1))⟩
  · rintro n b hcode hlo hhi h4 rfl rfl
    have hw : inWindow s.cfg reg := ⟨hlo, hhi⟩
    have first : ∀ {k}, checkGet s.cfg (aliasReg s.cfg reg) (aliasBit s.cfg reg) .w1 = some k → refused k := fun hk =>
      (hrefused _).2 (step_refused_line hcf hcode ((checkAliasRead_inside hw h4).trans hk))
    refine ⟨fun hno => first (checkGet_unnamed hv fun base f hf => ?_),
      fun base hb f hf hfw hn hbit ha =>
        first (checkGet_writeOnly hv ((fieldNamed_alias_iff hv hw).2 ⟨hb, hf, hfw, hn, hbit⟩) ha)⟩
    obtain ⟨hb, hfl, hfw, hn, hbit⟩ := (fieldNamed_alias_iff hv hw).1 hf
    exact hno base hb f hfl ⟨hfw, hn, hbit⟩
  · have set : ∀ {k}, checkSet s.cfg reg sh w = some k → refused k := fun hk => by
      refine (hrefused _).2 ?_
      obtain ⟨hc, rfl⟩ | hc := hc
      · refine step_refused_line_line hcf hcode (checkLine_request_none hc (by simp [Instr.op])) ?_
        exact (checkLine_stWe_bitwr (asked_after_request hc) (addr_after_request reg)).trans hk
      · refine step_refused_line_line hcf hcode (checkLine_fset_none hc) ?_
        obtain ⟨valid, hline⟩ := checkLine_stWe_fset (P := s.cfg) (asked_after_request hc) (addr_after_request reg)
        exact hline.trans (checkWideSet_of_checkSet hk ..)
    refine ⟨fun hno => set (checkSet_unnamed hv (unnamed hno)),
      fun base f hf ha => set (checkSet_unwritable hv (named hf) ha), fun base f hfset hf hw ha => ?_⟩
    subst hw
    obtain ⟨valid, hline⟩ := checkLine_stWe_fset (P := s.cfg) (asked_after_request hfset) (addr_after_request reg)
    exact (hrefused _).2 (step_refused_line_line hcf hcode (checkLine_fset_none hfset)
      (hline.trans (checkWideSet_w1 (checkSet_writable hv (named hf) ha) ..)))

/-- Settles O23: the sequence passes, and the line after it is checked with the names the sequence binds. -/
theorem namesOfSequencesAreChecked : Obligations.NamesOfSequencesAreChecked := by
  intro s code y c reg sh sh' w w' a d v m row refused hv hcf hrow hrefused base f hf ha
  have hf := (hrow _ _ _ _).1 hf
  have hpass := checkGet_readable hv hf ha
  refine ⟨fun hcode hw hc hidr hodr => (hrefused _).2 ?_, fun hcode hc => ?_⟩
  · subst hw
    obtain ⟨hasked, haddr⟩ := asked_after_readBit (P := s.cfg) (env := namesOf s.cfg s.foreground) reg sh
    refine step_refused_seq_line hcf hcode hpass ?_
    rw [checkLine_pinlookup hc, handleOf_y_toalias hasked haddr]
    refine check_toalias_wf6 hv fun _ base' hb' => ⟨fun e => hidr ?_, fun e => hodr ?_⟩
    · exact (regAddr_inj hv hf.1 hb' (FieldNamed.regAddr hf ▸ e)).2
    · exact (regAddr_inj hv hf.1 hb' (FieldNamed.regAddr hf ▸ e)).2
  · have second : ∀ {k}, checkGet s.cfg reg sh' w' = some k → refused k := fun hk =>
      (hrefused _).2 (step_refused_seq_line hcf hcode hpass ((checkLine_fget hc (source_after_get w reg sh)).trans hk))
    exact ⟨fun hno => second (checkGet_unnamed hv fun base f hf => hno base f ((hrow _ _ _ _).2 hf)),
      fun base f hf ha => second (checkGet_placeholder hv ((hrow _ _ _ _).1 hf) ha)⟩

end Sys2Proof.Machine

/-! Proofs: the bit-band translator: the encodings, preconditions and responses of its three operations, and the laws
by which its two maps invert one another. -/

namespace Sys2Proof.Machine

/-! ### Encodings (R71 to R73) -/

section
variable {c : Half}

theorem decode_eq_toalias (hr : ctrlRSV c = 0) (ho : ctrlOp c = Op.toalias.code) :
    decode c = .ok (.toalias (ctrlB c)) := by
  simp [decode, hr, ho]

theorem decode_eq_fromalias (hr : ctrlRSV c = 0) (ho : ctrlOp c = Op.fromalias.code) : decode c = .ok .fromalias := by
  simp [decode, hr, ho]

theorem decode_eq_pinlookup (hr : ctrlRSV c = 0) (ho : ctrlOp c = Op.pinlookup.code) : decode c = .ok .pinlookup := by
  simp [decode, hr, ho]

end

/-! ### Preconditions, in their order

`toaliasResponse_eq` and `fromaliasResponse_eq` are the responses where they are met. -/

section
variable {P : Params} {q : Request} {b : BitVec 5}

theorem toaliasResponse_outside (h : ¬ inRegion P q.a) : toaliasResponse P b q = .error .addrOutsideRegion := if_pos h

theorem toaliasResponse_misaligned (hr : inRegion P q.a) (h4 : ¬ wordAligned q.a) :
    toaliasResponse P b q = .error .addrMisaligned := by
  unfold toaliasResponse
  rw [if_neg (not_not.2 hr), if_pos h4]

theorem fromaliasResponse_outside (h : ¬ inWindow P q.a) : fromaliasResponse P q = .error .aliasOutsideWindow :=
  if_pos h

theorem fromaliasResponse_misaligned (hw : inWindow P q.a) (h4 : ¬ wordAligned q.a) :
    fromaliasResponse P q = .error .aliasMisaligned := by
  unfold fromaliasResponse
  rw [if_neg (not_not.2 hw), if_pos h4]

theorem pinlookupResponse_outside (h : ¬ inWindow P q.a) : pinlookupResponse P q = .error .aliasOutsideWindow :=
  if_pos h

theorem pinlookupResponse_misaligned (hw : inWindow P q.a) (h4 : ¬ wordAligned q.a) :
    pinlookupResponse P q = .error .aliasMisaligned := by
  unfold pinlookupResponse
  rw [if_neg (not_not.2 hw), if_pos h4]

/-- The offset of an address in its block is its remainder by the block size (R73). -/
theorem sub_blockBase_toNat (h : P.RangesOk) (a : Addr) : (a - blockBase P a).toNat = a.toNat % P.bs := by
  have hbase := blockBase_toNat h a
  have hle : blockBase P a ≤ a := by rw [BitVec.le_def]; omega
  have hmod := Nat.mod_le a.toNat P.bs
  rw [BitVec.toNat_sub_of_le hle]
  omega

/-- `PINLOOKUP` of a window word goes by the offset in its block of the register that R72 recovers, then by the bit. -/
theorem pinlookupResponse_eq (h : P.RangesOk) (hw : inWindow P q.a) (h4 : wordAligned q.a) :
    pinlookupResponse P q =
      if ¬ ((aliasReg P q.a).toNat % P.bs = P.off .idr ∨ (aliasReg P q.a).toNat % P.bs = P.off .odr) then
        .error .notDataArray
      else if ¬ (aliasBit P q.a).toNat < 16 then .error .pinOutOfRange
      else .ok (Response.done { y := blockBase P (aliasReg P q.a), z := aliasBit P q.a }) := by
  unfold pinlookupResponse
  rw [if_neg (not_not.2 hw), if_neg (not_not.2 h4)]
  simp only [sub_blockBase_toNat h]

end

/-! ### The meanings -/

section
variable {s : State}

/-- A violated precondition is the fault of its operation (R94). -/
theorem exec_of_violation {i : Instr} {name : Precondition} (h : respond s.cfg i s.inp = .error name) :
    exec i s = .fault (.preconditionViolation i.op name) := exec_eq_preconditionViolation_iff.2 ⟨h, rfl⟩

theorem exec_toalias {b : BitVec 5} (hin : inRegion s.cfg s.inp.a) (h4 : wordAligned s.inp.a) :
    exec (.toalias b) s = .next { s with out := { y := aliasOf s.cfg s.inp.a b, ok := true } } :=
  exec_eq_next_out_iff.2 (toaliasResponse_eq hin h4)

theorem exec_fromalias (hw : inWindow s.cfg s.inp.a) (h4 : wordAligned s.inp.a) :
    exec .fromalias s =
      .next { s with out := { y := aliasReg s.cfg s.inp.a, z := aliasBit s.cfg s.inp.a, ok := true } } :=
  exec_eq_next_out_iff.2 (fromaliasResponse_eq hw h4)

end

/-- Settles O1: `toaliasResponse` case by case, and where the alias of a region word lies. -/
theorem toaliasMapsBitToItsAlias : Obligations.ToaliasMapsBitToItsAlias := by
  intro c s hop hrsv
  refine ⟨decode_eq_toalias hrsv hop, fun hout => exec_of_violation (toaliasResponse_outside hout),
    fun hlo hhi h4 => exec_of_violation (toaliasResponse_misaligned ⟨hlo, hhi⟩ h4),
    fun hlo hhi h4 h => ?_⟩
  have hin : inRegion s.cfg s.inp.a := ⟨hlo, hhi⟩
  obtain ⟨hfirst, hlast⟩ := aliasOf_inWindow h hin h4 (ctrlB c)
  exact ⟨_, aliasOf_toNat h hin (ctrlB c) h4, aliasOf_aligned h hin h4 _, hfirst, hlast, exec_toalias hin h4⟩

/-- Settles O2: `fromaliasResponse` case by case, and what register and bit a window word recovers. -/
theorem fromaliasRecoversRegisterAndBit : Obligations.FromaliasRecoversRegisterAndBit := by
  intro c s hop hrsv
  refine ⟨decode_eq_fromalias hrsv hop, fun hout => exec_of_violation (fromaliasResponse_outside hout),
    fun hlo hhi h4 => exec_of_violation (fromaliasResponse_misaligned ⟨hlo, hhi⟩ h4),
    fun hlo hhi h4 h => ?_⟩
  have hw : inWindow s.cfg s.inp.a := ⟨hlo, hhi⟩
  obtain ⟨hfirst, hlast⟩ := aliasReg_inRegion h hw
  exact ⟨_, _, aliasReg_toNat h hw, aliasBit_toNat _, aliasReg_aligned h hw, hfirst, hlast, exec_fromalias hw h4⟩

/-- Settles O3: inside the window, `reg` and `bit` are the register and the bit that `PINLOOKUP` goes by
(`pinlookupResponse_eq`). -/
theorem pinlookupRecoversBlockAndPin : Obligations.PinlookupRecoversBlockAndPin := by
  intro c s reg bit hop hrsv h hreg hbit
  refine ⟨decode_eq_pinlookup hrsv hop,
    fun hout => exec_of_violation (pinlookupResponse_outside hout), fun hlo hhi => ?_⟩
  have hw : inWindow s.cfg s.inp.a := ⟨hlo, hhi⟩
  rw [← aliasReg_toNat h hw] at hreg
  rw [← aliasBit_toNat] at hbit
  subst hreg hbit
  refine ⟨fun h4 => exec_of_violation (pinlookupResponse_misaligned hw h4),
    fun h4 hidr hodr => exec_of_violation ?_, fun h4 hslot hbit => exec_of_violation ?_,
    fun h4 hslot hbit => exec_eq_next_out_iff.2 ?_⟩
  · exact (pinlookupResponse_eq h hw h4).trans (if_pos (not_or.2 ⟨hidr, hodr⟩))
  · exact (pinlookupResponse_eq h hw h4).trans ((if_neg (not_not.2 hslot)).trans (if_pos (Nat.not_lt.2 hbit)))
  · rw [← blockBase_toNat h, BitVec.ofNat_toNat, BitVec.ofNat_toNat, BitVec.setWidth_eq, BitVec.setWidth_eq]
    exact (pinlookupResponse_eq h hw h4).trans ((if_neg (not_not.2 hslot)).trans (if_neg (not_not.2 hbit)))

/-! ### Laws of the translator (R74 to R77) -/

/-- Settles O27: `aliasReg` and `aliasBit` after `aliasOf`. -/
theorem reverseAfterForwardIsIdentity : Obligations.ReverseAfterForwardIsIdentity := by
  intro s b h hlo hhi h4
  have hin : inRegion s.cfg s.inp.a := ⟨hlo, hhi⟩
  exact ⟨_, _, exec_toalias hin h4, exec_fromalias (aliasOf_inWindow h hin h4 b) (aliasOf_aligned h hin h4 b),
    aliasReg_aliasOf h hin h4 b, aliasBit_aliasOf h hin h4 b⟩

/-- Settles O28: `aliasOf` after `aliasReg` and `aliasBit`. -/
theorem forwardAfterReverseIsIdentity : Obligations.ForwardAfterReverseIsIdentity := by
  intro s h hlo hhi h4
  have hw : inWindow s.cfg s.inp.a := ⟨hlo, hhi⟩
  have hin := aliasReg_inRegion h hw
  have hal := aliasReg_aligned h hw
  exact ⟨_, _, exec_fromalias hw h4, exec_toalias hin hal, aliasOf_aliasReg h hw h4, hin.1, hin.2, hal⟩

/-- The alias of a bit determines its register word and the bit (R76): the reverse maps give them back. -/
theorem aliasOf_inj {P : Params} (h : P.RangesOk) {a a' : Addr} {b b' : BitVec 5} (ha : inRegion P a)
    (h4 : wordAligned a) (ha' : inRegion P a') (h4' : wordAligned a') (e : aliasOf P a b = aliasOf P a' b') :
    a = a' ∧ b = b' := by
  have hreg := congrArg (aliasReg P) e
  have hbit := congrArg (aliasBit P) e
  rw [aliasReg_aliasOf h ha h4, aliasReg_aliasOf h ha' h4'] at hreg
  rw [aliasBit_aliasOf h ha h4, aliasBit_aliasOf h ha' h4'] at hbit
  exact ⟨hreg, hbit⟩

/-- Settles O29: requests that answer meet their preconditions, and there `aliasOf` is injective. -/
theorem distinctBitsHaveDistinctAliases : Obligations.DistinctBitsHaveDistinctAliases := by
  intro s1 s2 t1 t2 b1 b2 h hcfg h1 h2 hne hy
  obtain ⟨r1, hr1, rfl⟩ := exec_eq_next_iff.1 h1
  obtain ⟨r2, hr2, rfl⟩ := exec_eq_next_iff.1 h2
  obtain ⟨hin1, hal1, rfl⟩ := toaliasResponse_ok hr1
  obtain ⟨hin2, hal2, rfl⟩ := toaliasResponse_ok hr2
  rw [hcfg] at hin2
  have e : aliasOf s1.cfg s1.inp.a b1 = aliasOf s1.cfg s2.inp.a b2 := hcfg ▸ hy
  obtain ⟨ha, hb⟩ := aliasOf_inj h hin1 hal1 hin2 hal2 e
  exact hne (Prod.ext ha hb)

/-- An aligned offset of an aligned block of the region, listed or not, is an aligned address of the region. -/
theorem ofNat_block_inRegion {P : Params} (h : P.RangesOk) {base o : Nat} (hm : base % P.bs = 0) (hlo : P.rb ≤ base)
    (hhi : base + P.bs ≤ P.rb + P.rs) (h4 : o % 4 = 0) (ho : o < P.bs) :
    inRegion P (BitVec.ofNat 32 (base + o)) ∧ wordAligned (BitVec.ofNat 32 (base + o)) := by
  have hl := Params.region_le h
  have e : (BitVec.ofNat 32 (base + o)).toNat = base + o := by rw [BitVec.toNat_ofNat]; omega
  have hbase : 4 ∣ base := (Nat.dvd_of_mod_eq_zero (Params.bs_mod_four h)).trans (Nat.dvd_of_mod_eq_zero hm)
  simp only [inRegion, wordAligned, e]
  omega

/-- Settles O30: the register word is in the region, so `TOALIAS` answers, and `pinlookup_ok` inverts the handle. -/
theorem reverseLookupInvertsTheHandle : Obligations.ReverseLookupInvertsTheHandle := by
  intro s base r p hv hm hlo hhi hr hp ha
  have hoff := Params.off_lt hv r
  obtain ⟨hin, h4⟩ := ofNat_block_inRegion hv.1 hm hlo hhi (Params.off_aligned hv r) (by omega)
  rw [← ha] at hin h4
  have hpin : BitVec.ofNat 5 p.toNat = p := by rw [BitVec.ofNat_toNat, BitVec.setWidth_eq]
  refine ⟨_, _, exec_toalias hin h4,
    exec_eq_next_out_iff.2 (pinlookup_ok hv hm hlo hhi hr p.toNat hp _ ?_), rfl, hpin⟩
  rw [hpin, ← ha]

end Sys2Proof.Machine

/-! Proofs: the field-packing datapath: the encodings, preconditions and responses of its four operations, the laws of
a field, and the writes that `BITWR`, `FSET` and `SRENC` ask for. -/

namespace Sys2Proof.Machine

/-! ### Encodings (R82, R83)

`decode_eq_fget_iff` and `decode_eq_fset_iff` are those of `FGET` and `FSET`. -/

section
variable {c : Half}

theorem decode_eq_bitwr (hr : ctrlRSV c = 0) (ho : ctrlOp c = Op.bitwr.code) : decode c = .ok (.bitwr (ctrlB c)) := by
  simp [decode, hr, ho]

theorem decode_eq_srenc (hr : ctrlRSV c = 0) (ho : ctrlOp c = Op.srenc.code) : decode c = .ok (.srenc (ctrlB c)) := by
  simp [decode, hr, ho]

end

/-! ### Preconditions, in their order -/

section
variable {P : Params} {q : Request} {w : Width} {e : Bool} {sh b p : BitVec 5}

theorem fgetResponse_straddling (h : ¬ inWord sh w) : fgetResponse w sh q = .error .fieldOutOfWord := if_pos h

theorem fsetResponse_straddling (h : ¬ inWord sh w) : fsetResponse w e sh q = .error .fieldOutOfWord := if_pos h

theorem bitwrResponse_outside (h : ¬ inRegion P q.a) : bitwrResponse P b q = .error .addrOutsideRegion := if_pos h

theorem bitwrResponse_misaligned (hr : inRegion P q.a) (h4 : ¬ wordAligned q.a) :
    bitwrResponse P b q = .error .addrMisaligned := by
  unfold bitwrResponse
  rw [if_neg (not_not.2 hr), if_pos h4]

theorem srencResponse_outOfRange (h : ¬ p.toNat < 16) : srencResponse p q = .error .pinOutOfRange := if_pos h

end

/-! ### The meanings: when an operation answers, and what -/

section
variable {s t : State} {w : Width} {e : Bool} {sh b p : BitVec 5}

/-- A meaning whose response is known where the precondition `c` is met, and which answers only there. -/
theorem exec_eq_next_iff_of_respond {i : Instr} {c : Prop} {r : Response} (heq : c → respond s.cfg i s.inp = .ok r)
    (hok : ∀ x, respond s.cfg i s.inp = .ok x → c) : exec i s = .next t ↔ c ∧ t = { s with out := r } := by
  rw [exec_eq_next_iff]
  constructor
  · rintro ⟨x, hx, rfl⟩
    have hc := hok x hx
    obtain rfl := Except.ok.inj ((heq hc).symm.trans hx)
    exact ⟨hc, rfl⟩
  · rintro ⟨hc, rfl⟩
    exact ⟨r, heq hc, rfl⟩

/-- `FGET` answers for a field in its word (R80). -/
theorem exec_fget_eq_next_iff : exec (.fget w sh) s = .next t ↔ inWord sh w ∧ t =
    { s with out := Response.done { rv := ((s.inp.d >>> sh.toNat) &&& mask w).extractLsb' 0 16 } } :=
  exec_eq_next_iff_of_respond fgetResponse_eq fun _ h => (fgetResponse_ok h).1

/-- `FSET` answers for a field in its word: an accepted set, or a rejected one (R81, R84). -/
theorem exec_fset_eq_next_iff : exec (.fset w e sh) s = .next t ↔ inWord sh w ∧ t =
    { s with
      out :=
        if s.inp.v.toNat < 2 ^ w.bits ∧ (e = true → s.inp.m.getLsbD s.inp.v.toNat = true) then
          Response.accepted { y := s.inp.a, wd := insertField w sh s.inp.d s.inp.v }
        else Response.rejected { y := s.inp.a, wd := s.inp.d } } :=
  exec_eq_next_iff_of_respond fsetResponse_eq fun _ h => (fsetResponse_ok h).1

/-- `BITWR` answers for an aligned address of the region (R82). -/
theorem exec_bitwr_eq_next_iff : exec (.bitwr b) s = .next t ↔ (inRegion s.cfg s.inp.a ∧ wordAligned s.inp.a) ∧ t =
    { s with
      out :=
        if s.inp.v.toNat ≤ 1 then
          Response.accepted { y := aliasOf s.cfg s.inp.a b, wd := zextBit (s.inp.v.getLsbD 0) }
        else Response.rejected { y := aliasOf s.cfg s.inp.a b, wd := 0 } } :=
  exec_eq_next_iff_of_respond (fun h => bitwrResponse_eq h.1 h.2) fun _ h => by
    obtain ⟨hin, h4, -⟩ := bitwrResponse_ok h
    exact ⟨hin, h4⟩

/-- `SRENC` answers for a pin below 16 (R83). -/
theorem exec_srenc_eq_next_iff : exec (.srenc p) s = .next t ↔ p.toNat < 16 ∧ t =
    { s with
      out :=
        if s.inp.v.toNat ≤ 1 then
          Response.accepted { y := s.inp.a, wd := 1#32 <<< (if s.inp.v.getLsbD 0 then p.toNat else p.toNat + 16) }
        else Response.rejected { y := s.inp.a, wd := 0 } } :=
  exec_eq_next_iff_of_respond srencResponse_eq fun _ h => (srencResponse_ok h).1

end

/-- Settles O4: the field's precondition, and the field as a number (`field_eq_ofNat`). -/
theorem fgetExtractsTheField : Obligations.FgetExtractsTheField := by
  intro c w s hop hrsv hwc
  refine ⟨(decode_eq_fget_iff hrsv hop).2 hwc,
    fun hout => exec_of_violation (fgetResponse_straddling (Nat.not_le.2 hout)),
    fun hin => exec_fget_eq_next_iff.2 ⟨hin, ?_⟩⟩
  rw [field_eq_ofNat]
  rfl

/-- Settles O5: the field's precondition, then acceptance with the field replaced (`insertField_getLsbD`) or
rejection. -/
theorem fsetInsertsACheckedField : Obligations.FsetInsertsACheckedField := by
  intro c w s hop hrsv hwc henum
  refine ⟨(decode_eq_fset_iff hrsv hop).2 ⟨hwc, rfl, fun hwide => Nat.not_lt.2 hwide.2 (henum hwide.1)⟩,
    fun hout => exec_of_violation (fsetResponse_straddling (Nat.not_le.2 hout)),
    fun hin => ⟨fun hfits hmarked => ⟨_, fun k hk => insertField_getLsbD hin hfits hk,
      exec_fset_eq_next_iff.2 ⟨hin, ?_⟩⟩, fun hno => exec_fset_eq_next_iff.2 ⟨hin, ?_⟩⟩⟩
  · rw [if_pos ⟨hfits, hmarked⟩]
    rfl
  · rw [if_neg hno]
    rfl

/-- A value of 0 or 1 as a word (R82). -/
theorem zextBit_eq_ofNat {v : Half} (h : v.toNat ≤ 1) : zextBit (v.getLsbD 0) = BitVec.ofNat 32 v.toNat := by
  rw [getLsbD_zero_of_le_one h]
  obtain h0 | h1 : v.toNat = 0 ∨ v.toNat = 1 := by omega
  · rw [h0]
    rfl
  · rw [h1]
    rfl

/-- Settles O6: the preconditions in order, then the alias address with the data or without. -/
theorem bitwrAsksForOneAliasStore : Obligations.BitwrAsksForOneAliasStore := by
  intro c s hop hrsv
  refine ⟨decode_eq_bitwr hrsv hop, fun hout => exec_of_violation (bitwrResponse_outside hout),
    fun hlo hhi => ⟨fun h4 => exec_of_violation (bitwrResponse_misaligned ⟨hlo, hhi⟩ h4), fun h4 h => ?_⟩⟩
  have hin : inRegion s.cfg s.inp.a := ⟨hlo, hhi⟩
  refine ⟨_, aliasOf_toNat h hin (ctrlB c) h4, fun hle => exec_bitwr_eq_next_iff.2 ⟨⟨hin, h4⟩, ?_⟩,
    fun hgt => exec_bitwr_eq_next_iff.2 ⟨⟨hin, h4⟩, ?_⟩⟩
  · rw [if_pos hle, zextBit_eq_ofNat hle]
    rfl
  · rw [if_neg (Nat.not_le.2 hgt)]
    rfl

/-- One bit, shifted, is a power of two. -/
theorem one_shift_eq_ofNat (n : Nat) : 1#32 <<< n = BitVec.ofNat 32 (2 ^ n) :=
  BitVec.eq_of_toNat_eq ((BitVec.toNat_twoPow ..).trans (BitVec.toNat_ofNat ..).symm)

/-- Settles O7: the pin's precondition, then the set bit, the reset bit, or rejection. -/
theorem srencEncodesOnePin : Obligations.SrencEncodesOnePin := by
  intro c s hop hrsv
  refine ⟨decode_eq_srenc hrsv hop, fun hout => exec_of_violation (srencResponse_outOfRange (Nat.not_lt.2 hout)),
    fun hp => ⟨fun h1 => exec_srenc_eq_next_iff.2 ⟨hp, ?_⟩, fun h0 => exec_srenc_eq_next_iff.2 ⟨hp, ?_⟩,
      fun h2 => exec_srenc_eq_next_iff.2 ⟨hp, ?_⟩⟩⟩
  · have hbit : s.inp.v.getLsbD 0 = true := by rw [getLsbD_zero_of_le_one h1.le, h1]; rfl
    rw [if_pos h1.le, hbit, if_pos rfl, one_shift_eq_ofNat]
    rfl
  · have hbit : s.inp.v.getLsbD 0 = false := by rw [getLsbD_zero_of_le_one (by omega), h0]; rfl
    rw [if_pos (by omega), hbit, if_neg Bool.false_ne_true, one_shift_eq_ofNat]
    rfl
  · rw [if_neg (by omega)]
    rfl

/-! ### Laws of a field (R84 to R87) -/

/-- Settles O31: the set is accepted, and the field of the inserted word is the value (`field_insertField`). -/
theorem fieldRoundTrip : Obligations.FieldRoundTrip := by
  intro s w e sh hin hle hmarked
  have hfits : s.inp.v.toNat < 2 ^ w.bits := Nat.lt_of_le_pred (Nat.two_pow_pos _) hle
  have hlegal : e = true → s.inp.m.getLsbD s.inp.v.toNat = true := fun he => by simpa [he] using hmarked
  refine ⟨_, _, exec_fset_eq_next_iff.2 ⟨hin, rfl⟩, ?_, exec_fget_eq_next_iff.2 ⟨hin, rfl⟩, ?_⟩
  · rw [if_pos ⟨hfits, hlegal⟩]
    rfl
  · rw [if_pos ⟨hfits, hlegal⟩]
    exact field_insertField hin hfits

/-- Settles O32: an accepted set replaces the field alone (`insertField_siblings`), a rejected one nothing. -/
theorem siblingFieldsArePreserved : Obligations.SiblingFieldsArePreserved := by
  intro s t w e sh h
  obtain ⟨hin, rfl⟩ := exec_fset_eq_next_iff.1 h
  by_cases hok : s.inp.v.toNat < 2 ^ w.bits ∧ (e = true → s.inp.m.getLsbD s.inp.v.toNat = true)
  · simp only [if_pos hok]
    exact insertField_siblings hin hok.1
  · simp only [if_neg hok]
    rfl

/-- A set asks for its write exactly where it succeeds (R87, R95). -/
theorem accepted_or_rejected_we_eq_ok (c : Prop) [Decidable c] (x x' : Response) :
    (if c then x.accepted else x'.rejected).we = (if c then x.accepted else x'.rejected).ok := by
  split
  · rfl
  · rfl

/-- Settles O33: every set asks for its write exactly where it succeeds, a rejected `FSET` holds the word it was given,
and a conditional write that is not asked for is no event (`runLine_stWe_skip`). -/
theorem rejectionChangesNothing : Obligations.RejectionChangesNothing := by
  refine ⟨fun s t w e sh h hok => ?_, fun s t b h hok => ?_, fun s t p h hok => ?_,
    fun s id ag n r hr hwe => runLine_stWe_skip hr hwe⟩
  · obtain ⟨-, rfl⟩ := exec_fset_eq_next_iff.1 h
    refine ⟨(accepted_or_rejected_we_eq_ok ..).trans hok, ?_⟩
    rw [accepted_or_rejected_ok, decide_eq_false_iff_not] at hok
    rw [if_neg hok]
    rfl
  · obtain ⟨-, rfl⟩ := exec_bitwr_eq_next_iff.1 h
    exact (accepted_or_rejected_we_eq_ok ..).trans hok
  · obtain ⟨-, rfl⟩ := exec_srenc_eq_next_iff.1 h
    exact (accepted_or_rejected_we_eq_ok ..).trans hok

section
variable {s : State} {w : Width} {e : Bool} {sh : BitVec 5}

/-- `FSET` reads no bit of `M` above `mask(w)` (R84). -/
theorem fsetResponse_congr_codes {q : Request} {m' : Half} (hin : inWord sh w)
    (hm : ∀ k, k < 2 ^ w.bits → m'.getLsbD k = q.m.getLsbD k) :
    fsetResponse w e sh { q with m := m' } = fsetResponse w e sh q := by
  rw [fsetResponse_eq hin, fsetResponse_eq hin]
  refine congrArg _ (if_congr (and_congr_right fun hfits => ?_) rfl rfl)
  rw [hm _ hfits]

/-- `FSET` answers alike for two masks for which its response is one. -/
theorem exec_fset_of_mask {m' : Half} (hin : inWord sh w)
    (hm : fsetResponse w e sh { s.inp with m := m' } = fsetResponse w e sh s.inp) :
    ∃ r, exec (.fset w e sh) s = .next { s with out := r } ∧
      exec (.fset w e sh) { s with inp := { s.inp with m := m' } } =
        .next { { s with inp := { s.inp with m := m' } } with out := r } :=
  ⟨_, exec_eq_next_out_iff.2 (fsetResponse_eq hin), exec_eq_next_out_iff.2 (hm.trans (fsetResponse_eq hin))⟩

end

/-- Settles O34: what `FSET` accepts, and the bits of `M` it reads (`fsetResponse_congr_codes`,
`fsetResponse_congr`). -/
theorem enumerationCheckReadsTheMarkedCode : Obligations.EnumerationCheckReadsTheMarkedCode := by
  intro s w sh m' hin
  refine ⟨⟨_, exec_fset_eq_next_iff.2 ⟨hin, rfl⟩, ?_⟩, ⟨_, exec_fset_eq_next_iff.2 ⟨hin, rfl⟩, ?_⟩,
    fun hm => exec_fset_of_mask hin (fsetResponse_congr_codes hin hm),
    exec_fset_of_mask hin (fsetResponse_congr rfl rfl rfl Bool.false_ne_true.elim)⟩
  · rw [accepted_or_rejected_ok, decide_eq_true_iff]
    exact and_congr_right fun _ => ⟨fun h => h rfl, fun h _ => h⟩
  · rw [accepted_or_rejected_ok, decide_eq_true_iff]
    exact and_iff_left Bool.false_ne_true.elim

/-! ### One bit of the image -/

/-- The word with one bit replaced does not depend on the order of two such writes of different bits. -/
theorem putBit_comm {b b' : BitVec 5} (hne : b ≠ b') (x : Word) (v v' : Bool) :
    putBit (putBit x b v) b' v' = putBit (putBit x b' v') b v := by
  refine BitVec.eq_of_getLsbD_eq fun i _ => ?_
  simp only [putBit_getLsbD]
  by_cases hb : i = b.toNat
  · have hb' : i ≠ b'.toNat := fun e => hne (BitVec.eq_of_toNat_eq (hb.symm.trans e))
    rw [if_neg hb', if_pos hb, if_pos hb]
  · rw [if_neg hb, if_neg hb]

/-- The image with one bit of a word replaced: what an alias write leaves (R34). -/
def Memory.setBit (m : List Host.Cell) (a : Addr) (b : BitVec 5) (v : Bool) : List Host.Cell :=
  Memory.setWord m a (putBit (Memory.word m a) b v)

section
variable {m : List Host.Cell} (hm : Memory.wf m) (a : Addr)
include hm

theorem Memory.setBit_wf (b : BitVec 5) (v : Bool) : Memory.wf (Memory.setBit m a b v) := Memory.setWord_wf hm ..

theorem Memory.word_setBit (b : BitVec 5) (v : Bool) :
    Memory.word (Memory.setBit m a b v) a = putBit (Memory.word m a) b v := Memory.word_setWord_same hm ..

theorem Memory.word_setBit_getLsbD (b : BitVec 5) (v : Bool) (k : Nat) :
    (Memory.word (Memory.setBit m a b v) a).getLsbD k = if k = b.toNat then v else (Memory.word m a).getLsbD k := by
  rw [Memory.word_setBit hm, putBit_getLsbD]

theorem Memory.get_setBit_outside (b : BitVec 5) (v : Bool) {x : Nat} (hx : x < a.toNat ∨ a.toNat + 4 ≤ x) :
    Memory.get (Memory.setBit m a b v) x = Memory.get m x := Memory.get_setWord_outside hm _ _ hx

theorem Memory.setBit_comm {b b' : BitVec 5} (hne : b ≠ b') (v v' : Bool) :
    Memory.setBit (Memory.setBit m a b v) a b' v' = Memory.setBit (Memory.setBit m a b' v') a b v := by
  have two : ∀ b v b' v', Memory.setBit (Memory.setBit m a b v) a b' v' =
      Memory.setWord m a (putBit (putBit (Memory.word m a) b v) b' v') := by
    intro b v b' v'
    rw [Memory.setBit, Memory.word_setBit hm, Memory.setBit, Memory.setWord_setWord_same hm]
  rw [two, two, putBit_comm hne]

end

/-! ### The stores that responses ask for -/

/-- The store the response asks for replaces one bit of the word at `a`, whatever the image is by then. -/
def WritesBit (P : Params) (x : Response) (a : Addr) (b : BitVec 5) (v : Bool) : Prop :=
  ∀ s : State, s.cfg = P → memWrite s 4 x.y x.wd = .ok { s with img := Memory.setBit s.img a b v }

/-- An `SRENC` word written to BSRR replaces the pin's bit of the output-data word (R36, R83). -/
theorem setReset_eq_putBit {p : BitVec 5} (hp : p.toNat < 16) (odr : Word) (v : Bool) :
    setReset odr (1#32 <<< (if v then p.toNat else p.toNat + 16)) = putBit odr p v :=
  BitVec.eq_of_getLsbD_eq fun _ hk => by rw [setReset_one_shift hp v hk, putBit_getLsbD]

/-- The word `FSET` makes of a field of width 1, written where no placeholder bit stands, replaces that bit (R88). -/
theorem storedWord_insertField_w1 {r : Reg} {b : BitVec 5} {v : Half}
    (hp : (placeholderMask r).getLsbD b.toNat = false) (hle : v.toNat ≤ 1) (d : Word) :
    storedWord r d (insertField .w1 b d v) = putBit d b (v.getLsbD 0) := by
  refine BitVec.eq_of_getLsbD_eq fun k hk => ?_
  have hin : inWord b .w1 := b.isLt
  rw [storedWord_getLsbD _ _ _ hk, insertField_getLsbD hin (Nat.lt_succ_of_le hle) hk, putBit_getLsbD]
  by_cases hb : k = b.toNat
  · subst hb
    simp [hp, Width.bits]
  · have hfield : ¬ (b.toNat ≤ k ∧ k < b.toNat + Width.w1.bits) := by simp only [Width.bits]; omega
    rw [if_neg hfield, if_neg hb, ite_self]

section
variable {P : Params} {u t : State} {base : Nat} {v : Half} (hv : P.Valid) (hb : base ∈ P.gpioBases)
include hv hb

/-- What a `BITWR` of a legal value asks for (R34, R82). -/
theorem writesBit_of_bitwr {r : Reg} {b : BitVec 5} (h : exec (.bitwr b) u = .next t) (hcfg : u.cfg = P)
    (ha : u.inp.a = BitVec.ofNat 32 (base + P.off r)) (hval : u.inp.v = v) (hle : v.toNat ≤ 1) (hidr : r ≠ .idr)
    (hbsrr : r ≠ .bsrr) (hlckr : r ≠ .lckr) (hp : (placeholderMask r).getLsbD b.toNat = false) :
    WritesBit P t.out (BitVec.ofNat 32 (base + P.off r)) b (v.getLsbD 0) := by
  obtain ⟨-, rfl⟩ := exec_bitwr_eq_next_iff.1 h
  rintro s rfl
  have hw := memWrite_aliasOf hv hb hidr hbsrr hlckr hp (zextBit (v.getLsbD 0))
  rw [zextBit_getLsbD_zero] at hw
  rw [hval, if_pos hle, hcfg, ha, ofNat_regAddr]
  exact hw

/-- What an `SRENC` of a legal value asks for (R36, R83). -/
theorem writesBit_of_srenc {p : BitVec 5} (h : exec (.srenc p) u = .next t)
    (ha : u.inp.a = BitVec.ofNat 32 (base + P.off .bsrr)) (hval : u.inp.v = v) (hle : v.toNat ≤ 1) :
    WritesBit P t.out (BitVec.ofNat 32 (base + P.off .odr)) p (v.getLsbD 0) := by
  obtain ⟨hp, rfl⟩ := exec_srenc_eq_next_iff.1 h
  rintro s rfl
  have hshift : (if v.getLsbD 0 then p.toNat else p.toNat + 16) < 32 := by split <;> omega
  have hw := memWrite_bsrr hv hb (bothBits_one_shift _ hshift)
  rw [setReset_eq_putBit hp] at hw
  rw [hval, if_pos hle, ha, ofNat_regAddr, ofNat_regAddr]
  exact hw

end

/-- Settles O43: the alias write replaces the bit, and so does the write of the word whose field of width 1 is replaced
(`storedWord_insertField_w1`). -/
theorem widthOnePathsAgree : Obligations.WidthOnePathsAgree := by
  intro s t u base r b v hv hm hb hidr hbsrr hlckr hp hle hval ha hd hbitwr hfset
  refine ⟨_, writesBit_of_bitwr hv hb hbitwr rfl ha hval hle hidr hbsrr hlckr hp s rfl, ?_⟩
  obtain ⟨-, rfl⟩ := exec_fset_eq_next_iff.1 hfset
  have hw := memWrite_regAddr hv hb hidr hbsrr hlckr
    (insertField .w1 b (Memory.word s.img (regAddr s.cfg (BitVec.ofNat 32 base) r)) v)
  rw [storedWord_insertField_w1 hp hle] at hw
  rw [hval, if_pos ⟨Nat.lt_succ_of_le hle, Bool.false_ne_true.elim⟩, hd, ha, ofNat_regAddr]
  exact hw

/-- Settles O44: no answer of `SRENC` has both bits of a pin (`srencResponse_ok`), and the two writes replace the
pin's bit, first by 1 and then by 0. -/
theorem setThenResetLeavesThePinLow : Obligations.SetThenResetLeavesThePinLow := by
  refine ⟨fun s t p h i hi hboth => ?_, fun s t1 t2 base p hv hm hb ha h1 h2 => ?_⟩
  · obtain ⟨r, hr, rfl⟩ := exec_eq_next_iff.1 h
    obtain ⟨-, -, hnone⟩ := srencResponse_ok hr
    exact Bool.false_ne_true (hnone.symm.trans ((bothBits_iff _).2 ⟨i, hi, hboth⟩))
  · have haddr := regAddr_toNat hv hb .odr
    rw [← ofNat_regAddr] at haddr
    have hset := writesBit_of_srenc (v := 1) hv hb h1 ha rfl (by decide)
    have hreset := writesBit_of_srenc (v := 0) hv hb h2 ha rfl (by decide)
    refine ⟨_, _, hset s rfl, hreset _ rfl, fun k _ => ?_, fun x hx => ?_⟩
    · rw [Memory.word_setBit_getLsbD (Memory.setBit_wf hm ..), Memory.word_setBit_getLsbD hm]
      by_cases hk : k = p.toNat
      · rw [if_pos hk, if_pos hk]
        rfl
      · rw [if_neg hk, if_neg hk, if_neg hk]
    · rw [Memory.get_setBit_outside (Memory.setBit_wf hm ..) _ _ _ (by omega),
        Memory.get_setBit_outside hm _ _ _ (by omega)]

/-- The stores of two writers of different bits of one word, in either order: one image, with each writer's bit and no
other changed (R90). -/
theorem WritesBit.commute {s : State} {x x' : Response} {a : Addr} {b b' : BitVec 5} {v v' : Bool}
    (h : WritesBit s.cfg x a b v) (h' : WritesBit s.cfg x' a b' v') (hm : Memory.wf s.img) (hne : b ≠ b') :
    ∃ m1 m2 m3, memWrite s 4 x.y x.wd = .ok { s with img := m1 } ∧ memWrite s 4 x'.y x'.wd = .ok { s with img := m2 } ∧
      memWrite { s with img := m1 } 4 x'.y x'.wd = .ok { s with img := m3 } ∧
      memWrite { s with img := m2 } 4 x.y x.wd = .ok { s with img := m3 } ∧
      ∀ k, k < 32 → (Memory.word m3 a).getLsbD k =
        if k = b.toNat then v else if k = b'.toNat then v' else (Memory.word s.img a).getLsbD k := by
  refine ⟨_, _, _, h s rfl, h' s rfl, ?_, h _ rfl, fun k _ => ?_⟩
  · rw [Memory.setBit_comm hm a hne.symm]
    exact h' _ rfl
  · rw [Memory.word_setBit_getLsbD (Memory.setBit_wf hm ..), Memory.word_setBit_getLsbD hm]

/-- Settles O45: the writers of either form replace one bit each of one word. -/
theorem singleBitWritersCommute : Obligations.SingleBitWritersCommute := by
  intro s base v v' hv hm hb hle hle'
  refine ⟨fun r b b' t t' hidr hbsrr hlckr hne hp hp' h h' => ?_, fun p p' t t' hne h h' => ?_⟩
  · exact (writesBit_of_bitwr hv hb h rfl rfl rfl hle hidr hbsrr hlckr hp).commute
      (writesBit_of_bitwr hv hb h' rfl rfl rfl hle' hidr hbsrr hlckr hp') hm hne
  · exact (writesBit_of_srenc hv hb h rfl rfl hle).commute (writesBit_of_srenc hv hb h' rfl rfl hle') hm hne

end Sys2Proof.Machine

/-! Proofs: what stops an agent and what does not: the violated preconditions of the seven operations, ILLEGAL requests,
and the fault of a line, which is its agent's alone. -/

namespace Sys2Proof.Machine

/-! ### Violated preconditions (R94) -/

/-- Where failing `p` is the violation `e`, a violation is that one, or `p` is met. -/
theorem violation_of_check {p : Prop} {x : Except Precondition Response} {e c : Precondition}
    (he : ¬ p → x = .error e) (hc : x = .error c) : (¬ p ∧ c = e) ∨ p := by
  by_cases hp : p
  · exact .inr hp
  · exact .inl ⟨hp, Except.error.inj (hc.symm.trans (he hp))⟩

/-- A number that is not in an interval lies on one side of it. -/
theorem outside_interval {lo hi n : Nat} (h : ¬ (lo ≤ n ∧ n < hi)) : n < lo ∨ hi ≤ n := by omega

section
variable {P : Params} {q : Request}

theorem pinlookupResponse_notDataArray (h : P.RangesOk) (hw : inWindow P q.a) (h4 : wordAligned q.a)
    (hslot : ¬ ((aliasReg P q.a).toNat % P.bs = P.off .idr ∨ (aliasReg P q.a).toNat % P.bs = P.off .odr)) :
    pinlookupResponse P q = .error .notDataArray :=
  (pinlookupResponse_eq h hw h4).trans (if_pos hslot)

theorem pinlookupResponse_pinOutOfRange (h : P.RangesOk) (hw : inWindow P q.a) (h4 : wordAligned q.a)
    (hslot : (aliasReg P q.a).toNat % P.bs = P.off .idr ∨ (aliasReg P q.a).toNat % P.bs = P.off .odr)
    (hbit : ¬ (aliasBit P q.a).toNat < 16) : pinlookupResponse P q = .error .pinOutOfRange :=
  (pinlookupResponse_eq h hw h4).trans ((if_neg (not_not.2 hslot)).trans (if_pos hbit))

/-- `PINLOOKUP` of an aligned word of the window, of a pin of a data array, answers (R73). -/
theorem pinlookupResponse_of_slot (h : P.RangesOk) (hw : inWindow P q.a) (h4 : wordAligned q.a)
    (hslot : (aliasReg P q.a).toNat % P.bs = P.off .idr ∨ (aliasReg P q.a).toNat % P.bs = P.off .odr)
    (hbit : (aliasBit P q.a).toNat < 16) :
    pinlookupResponse P q = .ok (Response.done { y := blockBase P (aliasReg P q.a), z := aliasBit P q.a }) :=
  (pinlookupResponse_eq h hw h4).trans ((if_neg (not_not.2 hslot)).trans (if_neg (not_not.2 hbit)))

end

/-- Settles O17, operation by operation: a violation is that of one of the operation's checks, in their order, and a
request that passes them all answers. -/
theorem faultsNameTheViolatedPrecondition : Obligations.FaultsNameTheViolatedPrecondition := by
  intro i s h
  refine ⟨exec_ne_refused i s, fun f hf => ?_⟩
  obtain ⟨c, hc, rfl⟩ := exec_eq_fault_iff.1 hf
  refine ⟨c, rfl, ?_⟩
  cases i with
  | toalias b =>
    obtain ⟨hout, rfl⟩ | hin := violation_of_check toaliasResponse_outside hc
    · exact ⟨.inl rfl, outside_interval hout⟩
    obtain ⟨h4, rfl⟩ | h4 := violation_of_check (toaliasResponse_misaligned hin) hc
    · exact ⟨.inl rfl, h4⟩
    nomatch (toaliasResponse_eq hin h4).symm.trans hc
  | fromalias =>
    obtain ⟨hout, rfl⟩ | hw := violation_of_check fromaliasResponse_outside hc
    · exact ⟨.inl rfl, outside_interval hout⟩
    obtain ⟨h4, rfl⟩ | h4 := violation_of_check (fromaliasResponse_misaligned hw) hc
    · exact ⟨.inl rfl, h4⟩
    nomatch (fromaliasResponse_eq hw h4).symm.trans hc
  | pinlookup =>
    obtain ⟨hout, rfl⟩ | hw := violation_of_check pinlookupResponse_outside hc
    · exact ⟨.inr rfl, outside_interval hout⟩
    obtain ⟨h4, rfl⟩ | h4 := violation_of_check (pinlookupResponse_misaligned hw) hc
    · exact ⟨.inr rfl, h4⟩
    obtain ⟨hslot, rfl⟩ | hslot := violation_of_check (pinlookupResponse_notDataArray h hw h4) hc
    · exact ⟨rfl, not_or.1 hslot⟩
    obtain ⟨hbit, rfl⟩ | hbit := violation_of_check (pinlookupResponse_pinOutOfRange h hw h4 hslot) hc
    · exact .inl ⟨rfl, Nat.not_lt.1 hbit⟩
    nomatch (pinlookupResponse_of_slot h hw h4 hslot hbit).symm.trans hc
  | fget w sh =>
    obtain ⟨hout, rfl⟩ | hin := violation_of_check fgetResponse_straddling hc
    · exact .inl ⟨w, sh, rfl, Nat.not_le.1 hout⟩
    nomatch (fgetResponse_eq hin).symm.trans hc
  | fset w e sh =>
    obtain ⟨hout, rfl⟩ | hin := violation_of_check fsetResponse_straddling hc
    · exact .inr ⟨w, e, sh, rfl, Nat.not_le.1 hout⟩
    nomatch (fsetResponse_eq hin).symm.trans hc
  | bitwr b =>
    obtain ⟨hout, rfl⟩ | hin := violation_of_check bitwrResponse_outside hc
    · exact ⟨.inr rfl, outside_interval hout⟩
    obtain ⟨h4, rfl⟩ | h4 := violation_of_check (bitwrResponse_misaligned hin) hc
    · exact ⟨.inr rfl, h4⟩
    nomatch (bitwrResponse_eq hin h4).symm.trans hc
  | srenc p =>
    obtain ⟨hp, rfl⟩ | hp := violation_of_check srencResponse_outOfRange hc
    · exact .inr ⟨p, rfl, Nat.not_lt.1 hp⟩
    nomatch (srencResponse_eq hp).symm.trans hc

/-! ### ILLEGAL requests (R93) -/

/-- A request line whose control word does not decode names the ILLEGAL response (log entry 18). -/
theorem runLine_request_of_illegal {id : AgentId} {ag : Agent} {dst : Name} {ctrl : Half} {a d : Operand}
    {v m : NarrowOperand} {s : State} {e : IllegalReason} (hd : decode ctrl = .error e) :
    runLine id ag (.request dst ctrl a d v m) s =
      .next (nameResponse id dst { presented ag dst ctrl a d v m s with out := Response.illegal }) := by
  simp only [runLine, present, requestOf, hd, State.drawIf_eq, presented]

/-- Settles O20: the line's one effect on the agent is the name it binds, and on the machine the ports. -/
theorem illegalRequestsWriteNothing : Obligations.IllegalRequestsWriteNothing := by
  intro s id rest ag dst ctrl a d v m code e hc hs ha hst hr hcf hcode hd
  have hag : State.agent? { s with sched := rest } id = some ag := (State.agent?_congr rfl rfl rfl id).trans ha
  have hmid : State.agent? { presented ag dst ctrl a d v m
      (State.setAgent { s with sched := rest } id { ag with code := code }) with out := Response.illegal } id =
      some { ag with code := code } :=
    (State.agent?_congr rfl rfl rfl id).trans (State.agent?_setAgent_same hag _)
  refine ⟨_, _, step_bareLine_next hc hs ha hst hr hcf hcode (runLine_request_of_illegal hd), ?_, ?_,
    State.agent?_mapAgent_same hmid _, hst, ?_⟩
  · simp only [nameResponse_img, presented, State.setAgent_img]
  · exact nameResponse_out ..
  · rw [Agent.response?_bindResponse_same, nameResponse_out]

/-! ### The fault of a line (R94, R99) -/

section
variable {s : State} {id : AgentId} {rest : List AgentId} {ag : Agent} {l : Line} {f : Fault}

/-- The step of an agent whose next line, of its sequence or bare, faults stops the agent at that line (R94). -/
theorem step_line_fault (hc : checkProgram s = none) (hs : s.sched = id :: rest) (ha : s.agent? id = some ag)
    (hst : ag.stopped = none)
    (hl : (∃ q ls, ag.running = some ⟨q, l :: ls⟩) ∨
      (ag.running = none ∧ ag.conf = none ∧ ∃ code, ag.code = .line l :: code))
    (h : runLine id ag l s = .fault f) : step s = .next (faulted id ag l f { s with sched := rest }) := by
  have hf : ∀ u : State, u.cfg = s.cfg → u.draws = s.draws → runLine id ag l u = .fault f :=
    fun _ hcfg hdraws => runLine_fault_congr hcfg hdraws h
  obtain ⟨q, ls, hr⟩ | ⟨hr, hcf, code, hcode⟩ := hl
  · simp only [step_eq_agentTurn hc hs ha hst, agentTurn, hr, hf { s with sched := rest } rfl rfl]
  · exact step_bareLine_fault hc hs ha hst hr hcf hcode (hf _ (State.setAgent_cfg ..) (State.setAgent_draws ..))

/-- A state in which an agent has stopped is not final (R94). -/
theorem State.not_final_of_stopped (ha : s.agent? id = some ag) (hst : ag.stopped ≠ none) : ¬ s.final := by
  intro hfin
  obtain ⟨-, hnone⟩ := hfin ag (State.mem_agents.2 ⟨id, ha⟩)
  exact hst hnone

/-- No step answers a fault: it is kept in its agent (log entry 7). -/
theorem step_ne_fault (s : State) (f : Fault) : step s ≠ .fault f := by
  by_cases hc : checkProgram s = none
  · obtain ⟨t, ht⟩ := step_ok hc
    rw [ht]
    nofun
  · obtain ⟨c, hr⟩ := step_refused_of_checkProgram hc
    rw [hr]
    nofun

end

/-- Settles O24: `faulted` is what the step leaves of the fault, `step_keeps_stopped` and `step_stopped` say what later
steps do with the agent, `step_ok` and `step_ne_fault` that the machine goes on. -/
theorem faultStopsItsAgentForGood : Obligations.FaultStopsItsAgentForGood := by
  refine ⟨fun s id rest ag l f hc hs ha hst hl hf => ?_, fun s t id ag ha hst ht => ?_, fun _ => step_ok,
    step_ne_fault⟩
  · have hag : ∀ id', State.agent? { s with sched := rest } id' = s.agent? id' := fun id' =>
      State.agent?_congr rfl rfl rfl id'
    have hnew := faulted_agent?_same ((hag id).trans ha) ag l f
    exact ⟨_, step_line_fault hc hs ha hst hl hf, hnew, faulted_cfg .., faulted_img .., faulted_pinIn ..,
      faulted_sched .., fun id' hne => (faulted_agent?_other hne.symm ag l f).trans (hag id'),
      State.not_final_of_stopped hnew (Option.some_ne_none f)⟩
  · refine ⟨step_keeps_stopped ht ha hst, fun rest hs => ?_⟩
    obtain ⟨hc, -⟩ := step_next ht
    exact Host.Outcome.next.inj (ht.symm.trans (step_stopped hc hs ha hst))

end Sys2Proof.Machine

/-! Proofs: what an agent that is inside a multi-bit set or a `configure` can lose to others, and what it cannot: the boot
rule along every step, the second event of a set, `configure` that fails, and the image at reset. -/

namespace Sys2Proof.Machine

/-! ### The boot rule (R107) -/

section
variable {s t : State} {id : AgentId}

/-- The schedule is no part of an agent. -/
theorem State.agent?_sched (s : State) (rest : List AgentId) (id : AgentId) :
    State.agent? { s with sched := rest } id = s.agent? id := State.agent?_congr rfl rfl rfl id

/-- The boot rule, agent by agent. -/
theorem State.bootRule_iff : s.bootRule id ↔ ∀ x y id', s.agent? id = some x → s.agent? id' = some y →
    mayMeet (y.sets s.cfg) (x.writes s.cfg) = false := by
  simp only [State.bootRule, Option.mem_toList, State.mem_agents]
  exact ⟨fun h x y id' hx hy => h x hx y ⟨id', hy⟩, fun h x hx y ⟨id', hy⟩ => h x y id' hx hy⟩

/-- A step adds nothing to what any agent writes or sets, so it keeps the boot rule. -/
theorem step_keeps_bootRule (hi : s.Inv) (hb : s.bootRule id) (h : step s = .next t) : t.bootRule id := by
  rw [State.bootRule_iff] at hb ⊢
  intro x y id' hx hy
  obtain ⟨oldx, holdx, hshx⟩ := step_effects hi h hx
  obtain ⟨oldy, holdy, hshy⟩ := step_effects hi h hy
  rw [(step_frame h).1]
  exact hshy.sets.mayMeet_eq_false hshx.writes (hb oldx oldy id' holdx holdy)

/-- A turn of an agent that does not exist leaves the image. -/
theorem step_image_of_no_agent {rest : List AgentId} (hs : s.sched = id :: rest) (hn : s.agent? id = none)
    (h : step s = .next t) : t.img = s.img := by
  have hn' := (State.agent?_sched s rest id).trans hn
  obtain ⟨hc, -⟩ := step_next h
  simp only [step, machineStep, hc, hs, turn, hn'] at h
  rw [← Host.Outcome.next.inj h]

/-- Where `o` and `o'` cannot be one address, what `o` stands for is not what `o'` stands for. -/
theorem ne_of_not_mayCoincide {o o' : Option Addr} {a a' : Addr} (h : ¬ mayCoincide o o') (ho : o = none ∨ o = some a)
    (ho' : o' = none ∨ o' = some a') : a ≠ a' := by
  rintro rfl
  obtain rfl | rfl := ho
  · exact h (.inl rfl)
  · obtain rfl | rfl := ho'
    · exact h (.inr (.inl rfl))
    · exact h (.inr (.inr rfl))

/-- While the boot rule holds of the scheduled agent, its step changes no word that an agent has still to set. -/
theorem step_keeps_word_being_set (hi : s.Inv) (hb : s.bootRule id) (h : step s = .next t) {rest : List AgentId}
    {y : Agent} {o : Option Addr} {a : Addr} (hs : s.sched = id :: rest) (hy : y ∈ s.agents) (ho : o ∈ y.sets s.cfg)
    (hoa : o = none ∨ o = some a) (h4 : a.toNat % 4 = 0) : Memory.word t.img a = Memory.word s.img a := by
  cases hx : s.agent? id with
  | none => rw [step_image_of_no_agent hs hx h]
  | some x =>
    obtain himg | ⟨o', ho', a', w, hoa', h4', himg⟩ := step_writes hi hs hx h
    · rw [himg]
    · obtain ⟨id', hy'⟩ := State.mem_agents.1 hy
      have hmeet := mayMeet_eq_false.1 (State.bootRule_iff.1 hb x y id' hx hy') o ho o' ho'
      rw [himg, Memory.word_setWord_other hi.wf w h4' h4 (ne_of_not_mayCoincide hmeet hoa hoa').symm]

end

/-- Settles O47: what agents write and set only shrinks along a step, and a step writes in a word that its agent writes. -/
theorem bootRuleProtectsTheWordsBeingSet : Obligations.BootRuleProtectsTheWordsBeingSet := fun _ _ _ hi hb h =>
  ⟨step_keeps_bootRule hi hb h, fun _ _ _ _ => step_keeps_word_being_set hi hb h⟩

/-! ### The second event of a multi-bit set (R110) -/

section
variable {s : State} {id : AgentId} {ag : Agent}

/-- The sequence that an agent has begun is well-formed (R68), and the agent holds what the lines left need. -/
theorem State.Inv.running (hi : s.Inv) (ha : s.agent? id = some ag) {q : AccessSeq} {ls : List Line}
    (hr : ag.running = some ⟨q, ls⟩) : checkSeq s.cfg q = none ∧ ag.holds s.cfg q ls.length = true := by
  obtain ⟨-, -, -, hmid⟩ := hi
  obtain ⟨hq, -, -, hh⟩ := hmid ag (State.mem_agents.2 ⟨id, ha⟩) _ hr
  exact ⟨hq, hh⟩

/-- The write that a multi-bit set's response asks for goes to the word of the set. -/
theorem Agent.holds_set_y {P : Params} {w : Width} {e : Bool} {reg : Addr} {sh : BitVec 5} {v m : Half} {x : Response}
    (hh : ag.holds P (.set w e reg sh v m) 1 = true) (hx : ag.response? .r = some x) (hwe : x.we = true) : x.y = reg := by
  simpa [Agent.holds, hx, hwe] using hh

end

/-- Settles O46: the write is of a register without placeholder bits, so it stores its data whole. -/
theorem secondEventOverwritesTheWord : Obligations.SecondEventOverwritesTheWord := by
  intro s id rest ag w e reg sh v m x hi hs ha hst hr hx hwe
  obtain ⟨hq, hh⟩ := hi.running ha hr
  have hy : x.y = reg := Agent.holds_set_y hh hx hwe
  obtain ⟨base, r, hb, rfl, hidr, hbsrr, hlckr, hmask, -, -⟩ := checkSet_multiBit hi.valid hq
  obtain ⟨t, stop, ht, himg⟩ := step_stWe_last hi.checked hs ha hst hr hx hwe
    (by rw [hy]; exact memWrite_regAddr (s := { s with sched := rest }) hi.valid hb hidr hbsrr hlckr x.wd)
  rw [storedWord_of_no_placeholder hmask] at himg
  refine ⟨t, ht.step, ?_, fun a hout => ?_⟩
  · rw [himg, Memory.word_setWord_same hi.wf]
  · rw [himg, Memory.get_setWord_outside hi.wf _ _ hout]

/-! ### `configure` (R108, R109) -/

/-- Settles O54: where no `VALID` set is listed, no step carries an enumeration check. -/
theorem configureStepsInOrder : Obligations.ConfigureStepsInOrder := by
  intro P c af haf hvalid
  have hnone : ∀ r sh, validSet? P r sh = none := fun r sh => by rw [validSet?, hvalid]; rfl
  simp only [configureSteps, haf, hnone]
  rfl

/-- The agent is inside a `configure` of which a step has failed. -/
def Agent.configureFailed (ag : Agent) : Prop := ∃ steps, ag.conf = some ⟨steps, false⟩

section
variable {s t : State} {id : AgentId} {ag : Agent}

/-- The failure stands in the `configure` alone. -/
theorem Agent.configureFailed.of_conf_eq {b : Agent} (h : ag.configureFailed) (hconf : b.conf = ag.conf) :
    b.configureFailed := by
  obtain ⟨steps, hs⟩ := h
  exact ⟨steps, hconf.trans hs⟩

/-- A failed set fails the `configure` it is a step of, whose other steps are dropped or kept (R109). -/
theorem Agent.finish_failed_conf {steps : List AccessSeq} {ok : Bool} (h : ag.conf = some ⟨steps, ok⟩) (stop : Bool) :
    (ag.finish (some (.success false)) stop).conf = some ⟨if stop then [] else steps, false⟩ := by
  simp [Agent.finish, h, SeqResult.failed]

/-- No end of a sequence makes a `configure` forget that it has failed. -/
theorem Agent.configureFailed.finish (h : ag.configureFailed) (res : Option SeqResult) (stop : Bool) :
    (ag.finish res stop).configureFailed := by
  obtain ⟨steps, hs⟩ := h
  simp only [Agent.configureFailed, Agent.finish, hs, Bool.false_and]
  exact ⟨_, rfl⟩

/-- What follows a line of a sequence does not either. -/
theorem Agent.configureFailed.afterLine (h : ag.configureFailed) (ha : s.agent? id = some ag) (q : AccessSeq) (l : Line)
    (ls : List Line) : ∃ new, (afterLine id q l ls s).agent? id = some new ∧ new.configureFailed := by
  unfold Machine.afterLine
  split
  · exact ⟨_, endSeq_agent?_same ha _, h.finish ..⟩
  · split
    · exact ⟨_, endSeq_agent?_same ha _, h.finish ..⟩
    · exact ⟨_, State.agent?_mapAgent_same ha _, h⟩

/-- From `s` to `t` and from `ag` to `new`, a `configure` that has failed stays so, or it ends, reports the failure and
leaves the image. -/
def FailureKept (s t : State) (ag new : Agent) : Prop :=
  new.configureFailed ∨ (new.conf = none ∧ new.results = ag.results ++ [.configured false] ∧ t.img = s.img)

/-- A turn of an agent inside a `configure` that has failed. -/
theorem agentTurn_keeps_failure (h : ag.configureFailed) (ha : s.agent? id = some ag)
    (ht : agentTurn id ag s = .next t) : ∃ new, t.agent? id = some new ∧ FailureKept s t ag new := by
  have hfail := h
  obtain ⟨steps, hconf⟩ := hfail
  unfold agentTurn at ht
  split at ht
  · split at ht
    · rename_i hu
      obtain rfl := Host.Outcome.next.inj ht
      obtain ⟨mid, hmid, hbound⟩ := (runLine_frame hu).2 ag ha
      obtain ⟨new, hn, hnew⟩ := (h.of_conf_eq hbound.same.conf).afterLine hmid _ _ _
      exact ⟨new, hn, .inl hnew⟩
    · obtain rfl := Host.Outcome.next.inj ht
      exact ⟨_, faulted_agent?_same ha .., .inl h⟩
    · cases ht
  · obtain rfl := Host.Outcome.next.inj ht
    exact ⟨_, State.agent?_setAgent_same ha _, .inl h⟩
  · rw [hconf] at ht
    cases steps with
    | nil =>
      obtain rfl := Host.Outcome.next.inj ht
      exact ⟨_, State.agent?_setAgent_same ha _, .inr ⟨rfl, rfl, State.setAgent_img ..⟩⟩
    | cons q qs =>
      obtain rfl := Host.Outcome.next.inj ht
      exact ⟨_, State.agent?_setAgent_same ha _, .inl ⟨qs, rfl⟩⟩

/-- A step of any agent keeps the failure of a `configure`, or the `configure` ends and reports it (R109). -/
theorem step_keeps_failure (h : ag.configureFailed) (ha : s.agent? id = some ag) (ht : step s = .next t) :
    ∃ new, t.agent? id = some new ∧ FailureKept s t ag new := by
  obtain ⟨-, ⟨-, rfl⟩ | ⟨id', rest, -, hturn⟩⟩ := step_next ht
  · exact ⟨ag, ha, .inl h⟩
  · have ha' := (State.agent?_sched s rest id).trans ha
    obtain ⟨-, rfl⟩ | ⟨ag', hag', -, hturn⟩ := turn_next hturn
    · exact ⟨ag, ha', .inl h⟩
    · by_cases e : id' = id
      · subst e
        obtain rfl := Option.some.inj (ha'.symm.trans hag')
        exact agentTurn_keeps_failure (s := { s with sched := rest }) h ha' hturn
      · exact ⟨ag, ((agentTurn_frame hturn).others id e).trans ha', .inl h⟩

/-- The turn of an agent whose `configure` has no step left ends it and reports whether every step succeeded (R109). -/
theorem step_configure_end {rest : List AgentId} {ok : Bool} (hc : checkProgram s = none) (hs : s.sched = id :: rest)
    (ha : s.agent? id = some ag) (hst : ag.stopped = none) (hr : ag.running = none) (hconf : ag.conf = some ⟨[], ok⟩) :
    step s = .next (State.setAgent { s with sched := rest } id
      { ag with conf := none, results := ag.results ++ [.configured ok] }) := by
  simp only [step_eq_agentTurn hc hs ha hst, agentTurn, hr, hconf]

/-- The result of a set is whether its response has `OK = 1` (R49, R50). -/
theorem seqResult_of_set {q : AccessSeq} {x : Response} (hx : ag.response? .r = some x)
    (hq : (∃ w e reg sh v m, q = .set w e reg sh v m) ∨ ∃ reg b v, q = .setBit reg b v) :
    seqResult ag q = some (.success x.ok) := by
  have hres : seqResult ag q = (ag.response? .r).map fun r => .success r.ok := by
    obtain ⟨w, e, reg, sh, v, m, rfl⟩ | ⟨reg, b, v, rfl⟩ := hq
    · rfl
    · rfl
  rw [hres, hx, Option.map_some]

end

/-- Settles O55: the failed set makes no event and leaves its failure in the `configure`, which no step forgets, and
which the end of the `configure` reports. -/
theorem configureIsNotTransactional : Obligations.ConfigureIsNotTransactional := by
  refine ⟨fun s id rest ag q x steps ok hi hs ha hst hconf hr hx hok hwe hq => ?_,
    fun s t id ag steps ha hconf ht => step_keeps_failure ⟨steps, hconf⟩ ha ht,
    fun s id rest ag ok hc hs ha hst hr hconf => ?_⟩
  · have ha' := (State.agent?_sched s rest id).trans ha
    obtain ⟨t, ht, himg, -⟩ := step_last hi.checked hs ha hst hr (runLine_stWe_skip hx hwe) ha' rfl
    have hnew := ht.agent
    rw [seqResult_of_set hx hq, hok] at hnew
    exact ⟨t, _, ht.step, himg, hnew, rfl, rfl, Agent.finish_failed_conf hconf _⟩
  · have ht := step_configure_end hc hs ha hst hr hconf
    have hnew := State.agent?_setAgent_same ((State.agent?_sched s rest id).trans ha)
    exact ⟨_, _, ht, State.setAgent_img .., hnew _, rfl, rfl, rfl⟩

/-! ### Reset (R105) -/

/-- Settles O57: a read of the reset state takes from the image, `REG_RESET`, every bit that it does not draw. -/
theorem resetImageIsTheParameter : Obligations.ResetImageIsTheParameter := by
  intro P base r hv hb hidr hbsrr
  rw [ofNat_regAddr]
  exact ⟨_, _, memRead_regAddr (s := State.resetOf P) hv hb r,
    fun _ _ hp => regWord_getLsbD_image (State.resetOf P) _ hidr hbsrr hp⟩

end Sys2Proof.Machine
